-- ==== Sys2Proof/Word.lean ====
section
/-! DEFINITION. The widths IOX-BTN computes with (00_scope.md rules R10, R12): every value is an unsigned bit vector of a fixed width. -/
namespace Sys2Proof

/-- `u8`: a port register, a mask, a code or a pin operand (00_scope.md rule R10). -/
abbrev Byte := BitVec 8

/-- `u16`: a pin mask `M = (m1 << 8) | m0`, bit p for pin p (00_scope.md rule R9). -/
abbrev PinMask := BitVec 16

/-- `u24`: a millisecond immediate, threshold or period (30_encoding.md rule R93). -/
abbrev Millis24 := BitVec 24

/-- `u32`: a command word, a result register, or a timestamp of width `W_T` = 32 (00_scope.md rule R6). -/
abbrev Word := BitVec 32

end Sys2Proof
end

