-- ==== Sys2Proof/Syntax.lean ====
section
/-! DEFINITION. The commands of IOX-BTN, one constructor per row of spec/opcode_table.json (30_encoding.md rule R94), with the operands of rule R93. -/
namespace Sys2Proof

/-- A command. `pin` is the 8-bit pin operand (values 16 to 255 decode, and the command then raises `InvalidPin`),
`dir` and `level` are the bit `B[0]` (1 = input, 1 = high), `m0` and `m1` are the two port images, `ms` is the
24-bit immediate (30_encoding.md rules R92 to R94). -/
inductive Instr where
  /-- INIT (41_expander.md rule R140) -/
  | init
  /-- SETDIR pin, dir (rule R141) -/
  | setdir (pin : Byte) (dir : Bool)
  /-- SETPDIR m0, m1 (rule R142) -/
  | setpdir (m0 m1 : Byte)
  /-- SETLVL pin, level (rule R143) -/
  | setlvl (pin : Byte) (level : Bool)
  /-- SETPLVL m0, m1 (rule R144) -/
  | setplvl (m0 m1 : Byte)
  /-- GETLVL pin (rule R145) -/
  | getlvl (pin : Byte)
  /-- GETPLVL (rule R146) -/
  | getplvl
  /-- GETOUT (rule R147) -/
  | getout
  /-- GETCFG (rule R148) -/
  | getcfg
  /-- TOGGLE pin (rule R150) -/
  | toggle (pin : Byte)
  /-- RDCACHE (rule R152) -/
  | rdcache
  /-- ECLR (42_engine_control.md rule R180) -/
  | eclr
  /-- EADD pin (rule R181) -/
  | eadd (pin : Byte)
  /-- ETHR ms (rule R182) -/
  | ethr (ms : Millis24)
  /-- EPER ms (rule R183) -/
  | eper (ms : Millis24)
  /-- ESTART (rule R184) -/
  | estart
  /-- ESTOP (rule R185) -/
  | estop
  /-- ETICK (43_engine_tick.md rule R228) -/
  | etick
  /-- EPOP (42_engine_control.md rule R187) -/
  | epop
  /-- ESTAT (rule R186) -/
  | estat
deriving DecidableEq, Repr

end Sys2Proof
end

