-- ==== Sys2Proof/WellFormed.lean ====
section
/-! DEFINITION. What an assembly line of 30_encoding.md rule R97 is, and when it is well formed. A constructor of Instr has operands of the field's own width, so every Instr is well formed; the checks of the spec are on the line a host writes, whose numbers may not fit. -/
namespace Sys2Proof

/-- The five formats of 30_encoding.md rule R92. -/
inductive Format where
  | z
  | p
  | pb
  | mm
  | i24
deriving DecidableEq, Repr

/-- The mnemonics of 30_encoding.md rule R94. -/
inductive Mnemonic where
  | init | setdir | setpdir | setlvl | setplvl | getlvl | getplvl | getout | getcfg | toggle | rdcache
  | eclr | eadd | ethr | eper | estart | estop | etick | epop | estat
deriving DecidableEq, Repr

/-- The format column of 30_encoding.md rule R94. -/
def Mnemonic.format : Mnemonic → Format
  | .init | .getplvl | .getout | .getcfg | .rdcache => .z
  | .eclr | .estart | .estop | .etick | .epop | .estat => .z
  | .getlvl | .toggle | .eadd => .p
  | .setdir | .setlvl => .pb
  | .setpdir | .setplvl => .mm
  | .ethr | .eper => .i24

/-- An operand of an assembly line: a number, or one of the words of 30_encoding.md rule R97. -/
inductive AsmOperand where
  | num (n : Nat)
  | kwIn
  | kwOut
  | kwHi
  | kwLo
deriving DecidableEq, Repr

/-- An assembly line without its label and comment (30_encoding.md rule R97). -/
structure AsmLine where
  mnemonic : Mnemonic
  operands : List AsmOperand
deriving DecidableEq, Repr

/-- The one-bit operand of format PB: `in`/`out` for SETDIR, `hi`/`lo` for SETLVL, 0 or 1 for both (rule R97).
A value above 1 is an assembly error. -/
def AsmOperand.bitFor (m : Mnemonic) : AsmOperand → Option Bool
  | .num 0 => some false
  | .num 1 => some true
  | .num _ => none
  | .kwIn => if m = .setdir then some true else none
  | .kwOut => if m = .setdir then some false else none
  | .kwHi => if m = .setlvl then some true else none
  | .kwLo => if m = .setlvl then some false else none

/-- A line is well formed when its operands are those of its format and each fits its field: "a pin above 255,
a mask above 255, a value above 1, or an immediate above 16,777,215" is an assembly error (rule R97). -/
def AsmLine.wf (l : AsmLine) : Bool :=
  match l.mnemonic.format, l.operands with
  | .z, [] => true
  | .p, [.num pin] => decide (pin ≤ 255)
  | .pb, [.num pin, v] => decide (pin ≤ 255) && (v.bitFor l.mnemonic).isSome
  | .mm, [.num m0, .num m1] => decide (m0 ≤ 255) && decide (m1 ≤ 255)
  | .i24, [.num ms] => decide (ms ≤ 16777215)
  | _, _ => false

end Sys2Proof
end

