-- ==== Sys2Proof/Decode.lean ====
section
/-! DEFINITION. The command word: fields, opcode map, decoder and encoder (30_encoding.md rules R90 to R96). -/
namespace Sys2Proof

/-- `OPC` = bits [31:24] (rule R90). -/
def fieldOpc (w : Word) : Byte := w.extractLsb' 24 8

/-- `A` = bits [23:16] (rule R90). -/
def fieldA (w : Word) : Byte := w.extractLsb' 16 8

/-- `B` = bits [15:8] (rule R90). -/
def fieldB (w : Word) : Byte := w.extractLsb' 8 8

/-- `IMM24` = bits [23:0] (rule R90). -/
def fieldImm24 (w : Word) : Millis24 := w.extractLsb' 0 24

/-- `val` = `B[0]`, bit 8 of the word (rule R93). -/
def fieldVal (w : Word) : Bool := (fieldB w).getLsbD 0

/-- `MASKfree`: the operand bits of [23:0] a format gives a meaning (rule R92). -/
def maskFree : Format → Word
  | .z => 0x00000000
  | .p => 0x00FF0000
  | .pb => 0x00FF0100
  | .mm => 0x00FFFF00
  | .i24 => 0x00FFFFFF

/-- The opcode map (rule R94). -/
def opcodeOf : Mnemonic → Byte
  | .init => 0x01
  | .setdir => 0x02
  | .setpdir => 0x03
  | .setlvl => 0x04
  | .setplvl => 0x05
  | .getlvl => 0x06
  | .getplvl => 0x07
  | .getout => 0x08
  | .getcfg => 0x09
  | .toggle => 0x0A
  | .rdcache => 0x0B
  | .eclr => 0x20
  | .eadd => 0x21
  | .ethr => 0x22
  | .eper => 0x23
  | .estart => 0x24
  | .estop => 0x25
  | .etick => 0x26
  | .epop => 0x27
  | .estat => 0x28

/-- The opcode map read backwards; every opcode that is not a row is reserved (rules R94, R95). -/
def mnemonicOf (opc : Byte) : Option Mnemonic :=
  match opc.toNat with
  | 0x01 => some .init
  | 0x02 => some .setdir
  | 0x03 => some .setpdir
  | 0x04 => some .setlvl
  | 0x05 => some .setplvl
  | 0x06 => some .getlvl
  | 0x07 => some .getplvl
  | 0x08 => some .getout
  | 0x09 => some .getcfg
  | 0x0A => some .toggle
  | 0x0B => some .rdcache
  | 0x20 => some .eclr
  | 0x21 => some .eadd
  | 0x22 => some .ethr
  | 0x23 => some .eper
  | 0x24 => some .estart
  | 0x25 => some .estop
  | 0x26 => some .etick
  | 0x27 => some .epop
  | 0x28 => some .estat
  | _ => none

/-- Some must-be-zero bit of [23:0] is one (rule R91). -/
def mbzSet (f : Format) (w : Word) : Bool := w &&& ~~~(maskFree f) &&& 0x00FFFFFF != 0

/-- The command a mnemonic and the operand fields of a word name (rule R93). -/
def assembleFields (m : Mnemonic) (w : Word) : Instr :=
  match m with
  | .init => .init
  | .setdir => .setdir (fieldA w) (fieldVal w)
  | .setpdir => .setpdir (fieldA w) (fieldB w)
  | .setlvl => .setlvl (fieldA w) (fieldVal w)
  | .setplvl => .setplvl (fieldA w) (fieldB w)
  | .getlvl => .getlvl (fieldA w)
  | .getplvl => .getplvl
  | .getout => .getout
  | .getcfg => .getcfg
  | .toggle => .toggle (fieldA w)
  | .rdcache => .rdcache
  | .eclr => .eclr
  | .eadd => .eadd (fieldA w)
  | .ethr => .ethr (fieldImm24 w)
  | .eper => .eper (fieldImm24 w)
  | .estart => .estart
  | .estop => .estop
  | .etick => .etick
  | .epop => .epop
  | .estat => .estat

/-- The decode procedure of rule R91. `none` is the decoder's rejection: the word raises `IllegalCommand`. -/
def decode (w : Word) : Option Instr :=
  match mnemonicOf (fieldOpc w) with
  | none => none
  | some m => if mbzSet m.format w then none else some (assembleFields m w)

/-- The mnemonic of a command. -/
def mnemonicOfInstr : Instr → Mnemonic
  | .init => .init
  | .setdir _ _ => .setdir
  | .setpdir _ _ => .setpdir
  | .setlvl _ _ => .setlvl
  | .setplvl _ _ => .setplvl
  | .getlvl _ => .getlvl
  | .getplvl => .getplvl
  | .getout => .getout
  | .getcfg => .getcfg
  | .toggle _ => .toggle
  | .rdcache => .rdcache
  | .eclr => .eclr
  | .eadd _ => .eadd
  | .ethr _ => .ethr
  | .eper _ => .eper
  | .estart => .estart
  | .estop => .estop
  | .etick => .etick
  | .epop => .epop
  | .estat => .estat

/-- A word of format Z: the opcode, then 24 zero bits (rule R92). -/
def wordZ (m : Mnemonic) : Word := opcodeOf m ++ (0 : BitVec 24)

/-- A word of format P: `A` = pin, the rest zero. -/
def wordP (m : Mnemonic) (pin : Byte) : Word := opcodeOf m ++ pin ++ (0 : BitVec 16)

/-- A word of format PB: `A` = pin, `B[0]` = val, the rest zero. -/
def wordPB (m : Mnemonic) (pin : Byte) (val : Bool) : Word :=
  opcodeOf m ++ pin ++ (0 : BitVec 7) ++ BitVec.ofBool val ++ (0 : BitVec 8)

/-- A word of format MM: `A` = m0, `B` = m1, `C` = 0. -/
def wordMM (m : Mnemonic) (m0 m1 : Byte) : Word := opcodeOf m ++ m0 ++ m1 ++ (0 : BitVec 8)

/-- A word of format I24: `IMM24` = imm. -/
def wordI24 (m : Mnemonic) (imm : Millis24) : Word := opcodeOf m ++ imm

/-- The word of a command (rules R90 to R94). -/
def encode : Instr → Word
  | .init => wordZ .init
  | .setdir pin dir => wordPB .setdir pin dir
  | .setpdir m0 m1 => wordMM .setpdir m0 m1
  | .setlvl pin level => wordPB .setlvl pin level
  | .setplvl m0 m1 => wordMM .setplvl m0 m1
  | .getlvl pin => wordP .getlvl pin
  | .getplvl => wordZ .getplvl
  | .getout => wordZ .getout
  | .getcfg => wordZ .getcfg
  | .toggle pin => wordP .toggle pin
  | .rdcache => wordZ .rdcache
  | .eclr => wordZ .eclr
  | .eadd pin => wordP .eadd pin
  | .ethr ms => wordI24 .ethr ms
  | .eper ms => wordI24 .eper ms
  | .estart => wordZ .estart
  | .estop => wordZ .estop
  | .etick => wordZ .etick
  | .epop => wordZ .epop
  | .estat => wordZ .estat

/-- The command word whose low `nbits` bits are `w` and whose other bits are zero. A command is one 32-bit
word (rule R96), so bits past 31 do not exist. -/
def tableWord (nbits w : Nat) : Word := BitVec.ofNat 32 (w % 2 ^ nbits)

/-- What the decoder reads from the instruction whose bits are `w`, numbered as spec/opcode_table.json
numbers them (bit 0 the least significant). -/
def decodeTableWord (nbits w : Nat) : Option Instr := decode (tableWord nbits w)

end Sys2Proof
end

