-- ==== Sys2Proof/Config.lean ====
section
/-! DEFINITION. What is fixed outside the block: the implementation parameters of 00_scope.md rule R6, the kinds of a transport failure (20_memory.md rule R62), one answer of the bus (rule R61), and the free values behind the environment's draws. -/
namespace Sys2Proof

/-- `TransportErrorKind` (20_memory.md rule R62). -/
inductive TransportErrorKind where
  /-- "bus nack" -/
  | nack
  /-- "timeout" -/
  | timeout
  /-- "arbitration loss" -/
  | arbitrationLost
  /-- any other failure the transport reports -/
  | other
deriving DecidableEq, Repr, Inhabited

/-- The environment's answer to one bus transaction (20_memory.md rule R61): `Ok` or `Err k`.
A successful write uses no data, a one-byte read takes `b0`, a two-byte read takes `b0` then `b1` (DEDUCED, log entry 13). -/
inductive BusReply where
  | ok (b0 b1 : Byte)
  | err (k : TransportErrorKind)
deriving DecidableEq, Repr, Inhabited

/-- `BULK_MODE` (00_scope.md rule R6): how a two-port bulk read is performed. -/
inductive BulkMode where
  | pair
  | split
deriving DecidableEq, Repr

/-- `RMW_SOURCE` (00_scope.md rule R6): where a read-modify-write reads the old value from. -/
inductive RmwSource where
  | hardware
  | cache
deriving DecidableEq, Repr

/-- The parameters a platform fixes for one instance of the block (00_scope.md rule R6): the device address,
the six sub-addresses and the two modes. No command writes one. A statement about every state is a
statement about every configuration. -/
structure Config where
  /-- `DEV_ADDR` -/
  devAddr : BitVec 7
  /-- `SUB_IN0`, `SUB_IN1` -/
  subIn0 : Byte
  subIn1 : Byte
  /-- `SUB_OUT0`, `SUB_OUT1` -/
  subOut0 : Byte
  subOut1 : Byte
  /-- `SUB_CFG0`, `SUB_CFG1` -/
  subCfg0 : Byte
  subCfg1 : Byte
  bulkMode : BulkMode
  rmwSource : RmwSource
deriving DecidableEq, Repr

/-- The defaults of 00_scope.md rule R6. PRESUMED for the addresses (the spec marks them general knowledge); log entry 2. -/
def Config.default : Config where
  devAddr := 0x20
  subIn0 := 0x00
  subIn1 := 0x01
  subOut0 := 0x02
  subOut1 := 0x03
  subCfg0 := 0x06
  subCfg1 := 0x07
  bulkMode := .pair
  rmwSource := .hardware

/-- `N_CH_MAX` (00_scope.md rule R6). -/
def Config.nChMax : Nat := 16

/-- `EVQ_DEPTH` (00_scope.md rule R6). -/
def Config.evqDepth : Nat := 32

/-- `BUS_TIMEOUT_MS` (00_scope.md rule R6): OPEN, and read by no rule (70_reset_and_hazards.md rule R300). Log entry 5. -/
opaque Config.busTimeoutMs : Nat

/-- FREE VALUE: the answer to the n-th bus transaction beyond those a state lists
(20_memory.md rule R61, 93_implementation_defined.md U1, U2). Log entry 3. -/
opaque Config.freeBus : Nat → BusReply

/-- FREE VALUE: the n-th sample of `NOW_MS` beyond those a state lists
(60_exceptions.md rule R262, 93_implementation_defined.md U10). Log entry 4. -/
opaque Config.freeNow : Nat → Word

end Sys2Proof
end

