-- ==== Sys2Proof/Machine/State.lean ====
section
/-! DEFINITION. The state of IOX-BTN (10_state.md), the environment's inputs and outputs beside it, the reasons a step can stop, and the state after reset (70_reset_and_hazards.md rule R280). -/
namespace Sys2Proof.Machine

/-! ### Why a step stops (60_exceptions.md rule R253) -/

/-- The machine stops with a fault. -/
inductive Fault where
  /-- Raised by SETDIR, SETLVL and TOGGLE, also when a reset cuts one short after its cache read: a read-modify-write under `RMW_SOURCE` = Cache reads a cache register whose
  valid bit is 0 (40_register_access.md rule R127, 60_exceptions.md rule R253). Safe: the spec says fault. -/
  | cacheUnwritten
deriving DecidableEq, Repr

/-- The model gives no meaning. -/
inductive Refusal where
  /-- Raised by exec for a command that has no meaning yet. Safe. No command of this model is refused so. -/
  | notModelled (mnemonic : String)
  /-- Raised by the host's write of less than a whole word to `CMD` (20_memory.md rule R66, 60_exceptions.md rule R253).
  Safe: the spec says refuse. -/
  | partialCmdWrite
  /-- Raised by every step under an ill-formed configuration (20_memory.md rule R67, 60_exceptions.md rule R253).
  Safe: the spec says refuse. -/
  | illFormedConfig
deriving DecidableEq, Repr

/-! ### Ports, registers and transactions -/

/-- One of the two ports (00_scope.md rule R8). -/
inductive Port where
  | p0
  | p1
deriving DecidableEq, Repr

/-- One value per port. -/
structure Ports (α : Type) where
  p0 : α
  p1 : α
deriving DecidableEq, Repr

/-- The three kinds of chip register IOX-BTN reads (20_memory.md rule R70). -/
inductive RegKind where
  | input
  | output
  | config
deriving DecidableEq, Repr

/-- The two kinds it also writes and caches: `kind ∈ {CFG, OUT}` (40_register_access.md section 3). -/
inductive Latch where
  | cfg
  | out
deriving DecidableEq, Repr

/-- A transaction the block has put on the bus, and how it ended (20_memory.md rule R61). A failed read has no data. -/
inductive BusEvent where
  | write (dev : BitVec 7) (bytes : List Byte) (failed : Option TransportErrorKind)
  | read (dev : BitVec 7) (n : Nat) (data : List Byte) (failed : Option TransportErrorKind)
deriving DecidableEq, Repr

/-- How a command can end other than OK: the error taxonomy of 60_exceptions.md rule R240. -/
inductive Raise where
  | busError (k : TransportErrorKind)
  | chipNotFound (k : TransportErrorKind)
  | invalidPin
  | invalidChannelConfig
  | illegalCommand
  | engineRunning
  | engineNotRunning
  | queueEmpty
deriving DecidableEq, Repr

/-! ### The host interface registers (10_state.md section 1) -/

/-- `STATUS` (its two fields, rule R22) and `RES0`..`RES3` (rule R23). `CMD` holds nothing that can be read back (rule R20; DEDUCED, log entry 10). -/
structure HostRegs where
  /-- `STATUS.ERR` -/
  err : Byte
  /-- `STATUS.TERR` -/
  terr : Byte
  res0 : Word
  res1 : Word
  res2 : Word
  res3 : Word
deriving DecidableEq, Repr

/-- A register the host can read (10_state.md rules R20, R22, R23). -/
inductive HostReg where
  | cmd
  | status
  | res0
  | res1
  | res2
  | res3
deriving DecidableEq, Repr

/-! ### The Expander State Model (10_state.md section 2) -/

/-- The register cache with its valid bits, the last-observed inputs, and `INIT_DONE` (rules R30 to R33). -/
structure Expander where
  /-- `CACHE_DIR` -/
  cacheDir : Ports Byte
  /-- `CACHE_OUT` -/
  cacheOut : Ports Byte
  /-- `DIR_VALID` -/
  dirValid : Ports Bool
  /-- `OUT_VALID` -/
  outValid : Ports Bool
  /-- `LAST_IN` -/
  lastIn : Ports Byte
  /-- `LAST_IN_VALID` -/
  lastInValid : Ports Bool
  /-- `INIT_DONE` -/
  initDone : Bool
deriving DecidableEq, Repr

/-! ### The Button Event Engine (10_state.md section 3) -/

/-- The lifecycle of a channel (rule R43). The code 3 does not exist. -/
inductive Life where
  | released
  | pressed
  | longPressed
deriving DecidableEq, Repr

/-- One entry of the channel table and of the per-channel state (rules R42 to R46). -/
structure Channel where
  /-- `CH_PIN[k]` -/
  pin : BitVec 4
  /-- `LIFE[k]` -/
  life : Life
  /-- `PRESS_START[k]` -/
  pressStart : Word
  /-- `LONG_EMITTED[k]` -/
  longEmitted : Bool
  /-- `PREV[k]`: true = open (level 1), false = closed, pressed (level 0) -/
  prev : Bool
deriving DecidableEq, Repr

/-- The kind of an event (rule R49). -/
inductive EventKind where
  | press
  | release
  | longPress
  | chord
deriving DecidableEq, Repr

/-- The release class (rule R49). -/
inductive ReleaseClass where
  | none
  | short
  | long
deriving DecidableEq, Repr

/-- An event record (rule R49). -/
structure Event where
  kind : EventKind
  channelId : Byte
  cls : ReleaseClass
  timestamp : Word
  durationMs : Word
  members : BitVec 16
deriving DecidableEq, Repr

/-- The engine's state (rules R40 to R51), and the poll timer's one pending request (60_exceptions.md rule R261). -/
structure Engine where
  /-- `RUNNING` -/
  running : Bool
  /-- `CH_COUNT`, 0 to 16 -/
  chCount : Fin 17
  /-- the sixteen entries of `CH_PIN`, `LIFE`, `PRESS_START`, `LONG_EMITTED` and `PREV` -/
  ch : Vector Channel 16
  /-- `LP_THR` -/
  lpThr : Millis24
  /-- `POLL_MS` -/
  pollMs : Millis24
  /-- `EVQ`, oldest first; `EVQ_COUNT` is its length (DEDUCED, log entry 14) -/
  evq : List Event
  /-- `EVQ_OVF` -/
  evqOvf : Bool
  /-- `LAST_TICK_ERR` -/
  lastTickErr : Byte
  /-- `LAST_TICK_TERR` -/
  lastTickTerr : Byte
  /-- a requested timer tick waits for its turn -/
  tickPending : Bool
deriving DecidableEq, Repr

/-! ### The agents (60_exceptions.md rule R260) -/

/-- An operation, which runs to completion as one atomic step (rule R260). -/
inductive Operation where
  /-- a host command -/
  | command (w : Word)
  /-- a tick of the poll timer -/
  | tick
deriving DecidableEq, Repr

/-- A move of an agent outside the block. -/
inductive Action where
  /-- the host writes a whole word to `CMD` (10_state.md rule R20) -/
  | cmdWrite (w : Word)
  /-- the host writes only some bytes of `CMD` (20_memory.md rule R66) -/
  | cmdPartialWrite (bytes : List Byte)
  /-- the host reads a host interface register -/
  | hostRead (r : HostReg)
  /-- the poll timer's period passes (60_exceptions.md rule R261) -/
  | timerRequest
  /-- the turn of the poll timer's pending tick comes -/
  | timerTurn
  /-- the platform's reset input, between two operations (70_reset_and_hazards.md rule R280) -/
  | reset
  /-- the reset input while an operation runs, after `n` of its transactions were issued (rule R282) -/
  | resetDuring (op : Operation) (n : Nat)
deriving DecidableEq, Repr

/-- What stands outside the block, as plain data: the inputs lined up for it and the outputs it has given.
These fields are the model's, not the spec's (log entries 1, 3, 4, 6, 7, 11). -/
structure Env where
  /-- the agents' moves, in the order they are taken -/
  agenda : List Action
  /-- the bus's answers to the next transactions; past its end they are `Config.freeBus` -/
  busIn : List BusReply
  /-- how many free answers have been drawn -/
  busDraws : Nat
  /-- the next samples of `NOW_MS` (10_state.md rule R24); past its end they are `Config.freeNow` -/
  nowIn : List Word
  /-- how many free samples have been drawn -/
  nowDraws : Nat
  /-- every transaction issued, oldest first (20_memory.md rule R73) -/
  busLog : List BusEvent
  /-- what the host's last register read returned -/
  hostData : Word
deriving DecidableEq, Repr

/-- The machine. -/
structure State where
  /-- the parameters, which no step changes -/
  cfg : Config
  /-- the host interface registers -/
  host : HostRegs
  /-- the Expander State Model -/
  exp : Expander
  /-- the Button Event Engine -/
  eng : Engine
  /-- the block's surroundings -/
  env : Env
deriving DecidableEq, Repr

/-- The result of a micro-operation or of a command's body: a value, or an error raised. Either carries the state, since
"state writes already made stay made" (00_scope.md rule R10, `raise`). -/
inductive Ran (ε α : Type) where
  | done (a : α) (s : State)
  | raised (e : ε) (s : State)
deriving DecidableEq, Repr

/-! ### Reset values (10_state.md section 4, 70_reset_and_hazards.md rule R280) -/

/-- Rules R22, R23. -/
def HostRegs.reset : HostRegs where
  err := 0x00
  terr := 0x00
  res0 := 0
  res1 := 0
  res2 := 0
  res3 := 0

/-- Rules R30 to R33. -/
def Expander.reset : Expander where
  cacheDir := ⟨0x00, 0x00⟩
  cacheOut := ⟨0x00, 0x00⟩
  dirValid := ⟨false, false⟩
  outValid := ⟨false, false⟩
  lastIn := ⟨0x00, 0x00⟩
  lastInValid := ⟨false, false⟩
  initDone := false

/-- Rules R42 to R46. -/
def Channel.reset : Channel where
  pin := 0
  life := .released
  pressStart := 0
  longEmitted := false
  prev := true

/-- Rules R40 to R51; no timer tick is pending (DEDUCED from rule R281, log entry 8). -/
def Engine.reset : Engine where
  running := false
  chCount := 0
  ch := Vector.replicate 16 Channel.reset
  lpThr := 1000
  pollMs := 50
  evq := []
  evqOvf := false
  lastTickErr := 0
  lastTickTerr := 0
  tickPending := false

/-- Surroundings in which no agent has moved and nothing has been issued (DESIGN CHOICE, log entries 1 and 11). -/
def Env.quiet : Env where
  agenda := []
  busIn := []
  busDraws := 0
  nowIn := []
  nowDraws := 0
  busLog := []
  hostData := 0

/-- The machine right after power-on, with the default parameters (rule R280; log entries 1 and 2). -/
def State.reset : State where
  cfg := Config.default
  host := HostRegs.reset
  exp := Expander.reset
  eng := Engine.reset
  env := Env.quiet

end Sys2Proof.Machine
end

