-- ==== Sys2Proof/Machine/Flags.lean ====
section
/-! DEFINITION. The numeric codes that reach the host's registers, and the fields of `STATUS`. -/
namespace Sys2Proof.Machine

/-- The code of a transport kind (20_memory.md rule R62). -/
def kindCode : TransportErrorKind → Byte
  | .nack => 0x01
  | .timeout => 0x02
  | .arbitrationLost => 0x03
  | .other => 0x04

/-- `STATUS.ERR` = OK (60_exceptions.md rule R240). -/
def errOk : Byte := 0x00

/-- The `ERR` code of an error (60_exceptions.md rule R240). -/
def errCode : Raise → Byte
  | .busError _ => 0x01
  | .chipNotFound _ => 0x02
  | .invalidPin => 0x03
  | .invalidChannelConfig => 0x04
  | .illegalCommand => 0x05
  | .engineRunning => 0x06
  | .engineNotRunning => 0x07
  | .queueEmpty => 0x08

/-- `TERR`: the transport kind's code inside BusError and ChipNotFound, otherwise 0 (60_exceptions.md rule R242). -/
def terrCode : Raise → Byte
  | .busError k => kindCode k
  | .chipNotFound k => kindCode k
  | .invalidPin => 0
  | .invalidChannelConfig => 0
  | .illegalCommand => 0
  | .engineRunning => 0
  | .engineNotRunning => 0
  | .queueEmpty => 0

/-- `STATUS` as one 16-bit register: `TERR` in [15:8], `ERR` in [7:0] (10_state.md rule R22). -/
def statusWord (h : HostRegs) : BitVec 16 := h.terr ++ h.err

/-- The code of an event's kind (10_state.md rule R49). -/
def eventCode : EventKind → Byte
  | .press => 1
  | .release => 2
  | .longPress => 3
  | .chord => 4

/-- The code of a release class (10_state.md rule R49). -/
def classCode : ReleaseClass → Byte
  | .none => 0
  | .short => 1
  | .long => 2

/-- The 2-bit code of a lifecycle (10_state.md rule R43). -/
def lifeCode : Life → BitVec 2
  | .released => 0
  | .pressed => 1
  | .longPressed => 2

end Sys2Proof.Machine
end

