-- ==== Sys2Proof/Machine/Operands.lean ====
section
/-! DEFINITION. Operand forms: a pin's port and bit (00_scope.md rule R8), the bit functions of a port image (40_register_access.md rule R129), and the packing of two ports (00_scope.md rule R9). -/
namespace Sys2Proof.Machine

/-- `pin < 16`: the operand names a pin (00_scope.md rule R8). -/
def pinOk (pin : Byte) : Bool := decide (pin.toNat < 16)

/-- `port(p) = p div 8` (00_scope.md rule R8). -/
def portOf (pin : Nat) : Port := if pin < 8 then .p0 else .p1

/-- `bit(p) = p mod 8` (00_scope.md rule R8). -/
def bitOf (pin : Nat) : Nat := pin % 8

/-- `setb_i` (40_register_access.md rule R129). -/
def setb (i : Nat) (x : Byte) : Byte := x ||| (1#8 <<< i)

/-- `clrb_i` (rule R129). -/
def clrb (i : Nat) (x : Byte) : Byte := x &&& ~~~(1#8 <<< i)

/-- `flipb_i` (rule R129). -/
def flipb (i : Nat) (x : Byte) : Byte := x ^^^ (1#8 <<< i)

/-- `put_i(x, b)` (rule R129). -/
def putb (i : Nat) (b : Bool) (x : Byte) : Byte := if b then setb i x else clrb i x

/-- The value at a port. -/
def Ports.get {α : Type} (v : Ports α) : Port → α
  | .p0 => v.p0
  | .p1 => v.p1

/-- Both values, with the one at a port replaced. -/
def Ports.set {α : Type} (v : Ports α) (p : Port) (x : α) : Ports α :=
  match p with
  | .p0 => { v with p0 := x }
  | .p1 => { v with p1 := x }

/-- `(m1 << 8) | m0` (00_scope.md rule R9). -/
def packPorts (b0 b1 : Byte) : PinMask := b1 ++ b0

/-- A one-bit value zero-extended to a result register. -/
def bitWord (b : Bool) : Word := (BitVec.ofBool b).setWidth 32

end Sys2Proof.Machine
end

