-- ==== Sys2Proof/Machine/Ops.lean ====
section
/-! DEFINITION. The named operations: the configuration check, the environment's draws, the Register Access Layer and the shared micro-operations (40_register_access.md), the command frame with its error report (60_exceptions.md rule R246), host reads, and reset. -/
namespace Sys2Proof.Machine

/-! ### Sequencing -/

/-- Go on with `f` after a micro-operation that succeeded; one that raised ends the whole operation there
(00_scope.md rules R10, R11). -/
def Ran.andThen {ε α β : Type} (r : Ran ε α) (f : α → State → Ran ε β) : Ran ε β :=
  match r with
  | .done a s => f a s
  | .raised e s => .raised e s

/-- Failure wrapping: a micro-operation's failure becomes the caller's error (40_register_access.md rule R125). -/
def Ran.wrap {ε ε' α : Type} (g : ε → ε') (r : Ran ε α) : Ran ε' α :=
  match r with
  | .done a s => .done a s
  | .raised e s => .raised (g e) s

/-- The state an operation left, whichever way it ended. -/
def Ran.state {ε α : Type} : Ran ε α → State
  | .done _ s => s
  | .raised _ s => s

/-! ### The configuration (00_scope.md rule R6) -/

/-- The sub-address of a chip register (20_memory.md rule R70). -/
def subOf (c : Config) (k : RegKind) (p : Port) : Byte :=
  match k, p with
  | .input, .p0 => c.subIn0
  | .input, .p1 => c.subIn1
  | .output, .p0 => c.subOut0
  | .output, .p1 => c.subOut1
  | .config, .p0 => c.subCfg0
  | .config, .p1 => c.subCfg1

/-- `SUB_x1 = SUB_x0 + 1` for one kind of register (20_memory.md rule R67). The sum is exact, so 0xFF has no successor
(DEDUCED, log entry 9). -/
def consecutive (c : Config) (k : RegKind) : Bool :=
  (subOf c k .p1).toNat == (subOf c k .p0).toNat + 1

/-- The six sub-addresses differ from one another (60_exceptions.md rule R253). -/
def subsDistinct (c : Config) : Bool :=
  decide [c.subIn0, c.subIn1, c.subOut0, c.subOut1, c.subCfg0, c.subCfg1].Nodup

/-- The configuration is well-formed (20_memory.md rule R67, 60_exceptions.md rule R253). -/
def configWf (c : Config) : Bool :=
  subsDistinct c &&
    (c.bulkMode == .split || (consecutive c .input && consecutive c .output && consecutive c .config))

/-! ### Draws of the environment -/

/-- The answer the n-th transaction from now gets (20_memory.md rule R61; log entry 3). -/
def upcoming (s : State) (n : Nat) : BusReply :=
  match s.env.busIn[n]? with
  | some r => r
  | none => Config.freeBus (s.env.busDraws + (n - s.env.busIn.length))

/-- Use up the next answer, and log the transaction it answered (20_memory.md rule R73). -/
def transacted (ev : BusEvent) (s : State) : State :=
  { s with env := { s.env with
      busIn := s.env.busIn.tail
      busDraws := s.env.busDraws + (if s.env.busIn.isEmpty then 1 else 0)
      busLog := s.env.busLog ++ [ev] } }

/-- The next sample of `NOW_MS` (60_exceptions.md rule R262; log entry 4). -/
def upcomingNow (s : State) : Word :=
  match s.env.nowIn with
  | t :: _ => t
  | [] => Config.freeNow s.env.nowDraws

/-- Use up that sample (43_engine_tick.md rule R212). -/
def sampledNow (s : State) : State :=
  { s with env := { s.env with
      nowIn := s.env.nowIn.tail
      nowDraws := s.env.nowDraws + (if s.env.nowIn.isEmpty then 1 else 0) } }

/-! ### Bus Transport (20_memory.md rule R61) -/

/-- `BusWrite(DEV_ADDR, bytes)`. -/
def busWrite (bytes : List Byte) (s : State) : Ran TransportErrorKind Unit :=
  match upcoming s 0 with
  | .ok _ _ => .done () (transacted (.write s.cfg.devAddr bytes none) s)
  | .err k => .raised k (transacted (.write s.cfg.devAddr bytes (some k)) s)

/-- `BusRead(DEV_ADDR, 1)`. -/
def busRead1 (s : State) : Ran TransportErrorKind Byte :=
  match upcoming s 0 with
  | .ok b0 _ => .done b0 (transacted (.read s.cfg.devAddr 1 [b0] none) s)
  | .err k => .raised k (transacted (.read s.cfg.devAddr 1 [] (some k)) s)

/-- `BusRead(DEV_ADDR, 2)`. -/
def busRead2 (s : State) : Ran TransportErrorKind (Byte × Byte) :=
  match upcoming s 0 with
  | .ok b0 b1 => .done (b0, b1) (transacted (.read s.cfg.devAddr 2 [b0, b1] none) s)
  | .err k => .raised k (transacted (.read s.cfg.devAddr 2 [] (some k)) s)

/-! ### Register Access Layer (40_register_access.md section 1) -/

/-- `ReadReg(sub)`: select the register pointer, then read one byte (rule R120). -/
def readReg (k : RegKind) (p : Port) (s : State) : Ran TransportErrorKind Byte :=
  (busWrite [subOf s.cfg k p] s).andThen fun _ s => busRead1 s

/-- The register of the chip that a latch names. -/
def Latch.reg : Latch → RegKind
  | .cfg => .config
  | .out => .output

/-- `WriteReg(sub, v)`: one transaction [sub, v] (rule R121). -/
def writeReg (l : Latch) (p : Port) (v : Byte) (s : State) : Ran TransportErrorKind Unit :=
  busWrite [subOf s.cfg l.reg p, v] s

/-- `BulkRead(sub0, sub1)` (rules R122 for `Pair`, R123 for `Split`): the bytes of port 0 and port 1. -/
def bulkRead (k : RegKind) (s : State) : Ran TransportErrorKind (Byte × Byte) :=
  match s.cfg.bulkMode with
  | .pair => (busWrite [subOf s.cfg k .p0] s).andThen fun _ s => busRead2 s
  | .split =>
    (readReg k .p0 s).andThen fun b0 s =>
    (readReg k .p1 s).andThen fun b1 s => .done (b0, b1) s

/-! ### Input observation (40_register_access.md rule R126) -/

/-- `LAST_IN[p] <- b; LAST_IN_VALID[p] <- 1`. -/
def observe (p : Port) (b : Byte) (s : State) : State :=
  { s with exp := { s.exp with lastIn := s.exp.lastIn.set p b, lastInValid := s.exp.lastInValid.set p true } }

/-- Both ports observed. -/
def observeBoth (b0 b1 : Byte) (s : State) : State := observe .p1 b1 (observe .p0 b0 s)

/-! ### The register cache (10_state.md rules R30, R31, R34; 40_register_access.md section 3) -/

/-- `CACHE(kind, p)`. -/
def cached (l : Latch) (p : Port) (s : State) : Byte :=
  match l with
  | .cfg => s.exp.cacheDir.get p
  | .out => s.exp.cacheOut.get p

/-- `VALID(kind, p)`. -/
def cacheValid (l : Latch) (p : Port) (s : State) : Bool :=
  match l with
  | .cfg => s.exp.dirValid.get p
  | .out => s.exp.outValid.get p

/-- `CACHE(kind, p) <- v; VALID(kind, p) <- 1`: the one place the cache is written (10_state.md rule R34). -/
def setCache (l : Latch) (p : Port) (v : Byte) (s : State) : State :=
  match l with
  | .cfg => { s with exp := { s.exp with
      cacheDir := s.exp.cacheDir.set p v, dirValid := s.exp.dirValid.set p true } }
  | .out => { s with exp := { s.exp with
      cacheOut := s.exp.cacheOut.set p v, outValid := s.exp.outValid.set p true } }

/-- `MemWrite` with its cache update, which comes only after the write's `Ok` (10_state.md rule R34). -/
def writeCached (l : Latch) (p : Port) (v : Byte) (s : State) : Ran Raise Unit :=
  ((writeReg l p v s).wrap .busError).andThen fun _ s => .done () (setCache l p v s)

/-- The old value of a read-modify-write (40_register_access.md rule R127). -/
def rmwOld (l : Latch) (p : Port) (s : State) : Ran Raise Byte :=
  match s.cfg.rmwSource with
  | .hardware => (readReg l.reg p s).wrap .busError
  | .cache => .done (cached l p s) s

/-- `RMW(kind, p, f)` (40_register_access.md rule R127). Its model fault is `rmwFaults`, which a command tests first. -/
def rmw (l : Latch) (p : Port) (f : Byte → Byte) (s : State) : Ran Raise Unit :=
  (rmwOld l p s).andThen fun old s => writeCached l p (f old) s

/-- `CacheUnwritten`: a read-modify-write of this port would read an unwritten cache register
(40_register_access.md rule R127, 60_exceptions.md rule R253). -/
def rmwFaults (l : Latch) (p : Port) (s : State) : Bool :=
  s.cfg.rmwSource == .cache && !cacheValid l p s

/-- `WRITE_PAIR(kind, m0, m1)`, port 0 first (40_register_access.md rule R128). -/
def writePair (l : Latch) (m0 m1 : Byte) (s : State) : Ran Raise Unit :=
  (writeCached l .p0 m0 s).andThen fun _ s => writeCached l .p1 m1 s

/-! ### The command frame (60_exceptions.md rule R246) -/

/-- `RES0`..`RES3` all 0, the first act of every host command (10_state.md rule R23). -/
def clearRes (s : State) : State :=
  { s with host := { s.host with res0 := 0, res1 := 0, res2 := 0, res3 := 0 } }

/-- The result registers of a command that succeeded. -/
def setRes (r0 r1 r2 r3 : Word) (s : State) : State :=
  { s with host := { s.host with res0 := r0, res1 := r1, res2 := r2, res3 := r3 } }

/-- `STATUS` written (10_state.md rule R22). -/
def setStatus (err terr : Byte) (s : State) : State :=
  { s with host := { s.host with err := err, terr := terr } }

/-- The end of a command: OK, or the error it raised. The block has no trap, so this report is all an error does
(60_exceptions.md rules R246, R248). -/
def finish (r : Ran Raise Unit) : State :=
  match r with
  | .done _ s => setStatus errOk 0 s
  | .raised e s => setStatus (errCode e) (terrCode e) s

/-- A command: the frame around its body (60_exceptions.md rule R246). -/
def runCommand (body : State → Ran Raise Unit) (s : State) : Host.Outcome State Fault Refusal :=
  .next (finish (body (clearRes s)))

/-- A read-modify-write command on one pin (41_expander.md rules R141, R143, R150): the pin check comes before any bus
activity, then the model fault, then the transactions. -/
def pinRmw (l : Latch) (pin : Byte) (f : Nat → Byte → Byte) (s : State) : Host.Outcome State Fault Refusal :=
  if pinOk pin && rmwFaults l (portOf pin.toNat) s then .fault .cacheUnwritten
  else runCommand (fun s =>
    if pinOk pin then rmw l (portOf pin.toNat) (f (bitOf pin.toNat)) s else .raised .invalidPin s) s

/-- The word was rejected by the decoder (60_exceptions.md rule R243). -/
def illegalCommand (s : State) : Host.Outcome State Fault Refusal :=
  runCommand (fun s => .raised .illegalCommand s) s

/-! ### Host reads (10_state.md rules R20, R22, R23) -/

/-- What a read of a host interface register returns. A read of `CMD` returns 0 (rule R20). -/
def readHostReg (r : HostReg) (s : State) : Word :=
  match r with
  | .cmd => 0
  | .status => (statusWord s.host).setWidth 32
  | .res0 => s.host.res0
  | .res1 => s.host.res1
  | .res2 => s.host.res2
  | .res3 => s.host.res3

/-- A host read changes nothing of the block (20_memory.md rule R66). -/
def hostReadReg (r : HostReg) (s : State) : State :=
  { s with env := { s.env with hostData := readHostReg r s } }

/-! ### The event queue (43_engine_tick.md rule R226) -/

/-- `emit ev`: appended, or dropped with `EVQ_OVF` set when the queue is full. -/
def emit (g : Engine) (ev : Event) : Engine :=
  if g.evq.length < Config.evqDepth then { g with evq := g.evq ++ [ev] } else { g with evqOvf := true }

/-- A tick's events, in order. -/
def emitAll (g : Engine) (evs : List Event) : Engine := evs.foldl emit g

/-! ### The channel table (10_state.md rules R42 to R46) -/

/-- Every entry of the table replaced by a function of its index and its old value. -/
def mapChannels (f : Fin 16 → Channel → Channel) (g : Engine) : Engine :=
  { g with ch := Vector.ofFn fun k => f k g.ch[k] }

/-- `LIFE <- Released; PRESS_START <- 0; LONG_EMITTED <- 0; PREV <- 1`, the pin kept (42_engine_control.md rules R180, R184). -/
def Channel.idle (c : Channel) : Channel :=
  { c with life := .released, pressStart := 0, longEmitted := false, prev := true }

/-! ### Reset (70_reset_and_hazards.md rules R280, R282) -/

/-- The reset input: every state element takes its reset value. The parameters and the surroundings are not the
block's, and stay (DEDUCED, log entry 12). -/
def resetBlock (s : State) : State := { State.reset with cfg := s.cfg, env := s.env }

/-- Reset while an operation that would have led from `s` to `t` runs, after `n` of its transactions: the reset values
apply, and what was issued stays issued (rule R282; log entry 7). -/
def resetAfter (n : Nat) (s t : State) : State :=
  { State.reset with
    cfg := s.cfg
    env := { t.env with
      busLog := t.env.busLog.take (s.env.busLog.length + n)
      busIn := s.env.busIn.drop (min n (t.env.busLog.length - s.env.busLog.length)) } }

end Sys2Proof.Machine
end

