-- ==== Sys2Proof/Machine/Engine.lean ====
section
/-! DEFINITION. The Button Event Engine control commands (42_engine_control.md). -/
namespace Sys2Proof.Machine

/-- The defined channels: k < `CH_COUNT`, in ascending order (10_state.md rule R42). -/
def channels (g : Engine) : List (Fin 16) := (List.finRange 16).filter fun k => decide (k.val < g.chCount.val)

/-- The engine state replaced. -/
def withEngine (g : Engine) (s : State) : State := { s with eng := g }

/-! ### ECLR, EADD (rules R180, R181) -/

/-- The body of ECLR (42_engine_control.md rule R180). -/
def eclrBody (s : State) : Ran Raise Unit :=
  if s.eng.running then .raised .engineRunning s
  else .done () (withEngine { mapChannels (fun _ c => c.idle) s.eng with chCount := 0 } s)

/-- ECLR (42_engine_control.md rule R180). -/
def execEclr (s : State) : Host.Outcome State Fault Refusal := runCommand eclrBody s

/-- Some channel has the pin (42_engine_control.md rule R181). -/
def hasPin (g : Engine) (pin : BitVec 4) : Bool := (channels g).any fun k => g.ch[k].pin == pin

/-- `CH_PIN[CH_COUNT] <- pin; CH_COUNT <- CH_COUNT + 1` (42_engine_control.md rule R181). -/
def addChannel (pin : BitVec 4) (g : Engine) : Engine :=
  { mapChannels (fun k c => if k.val = g.chCount.val then { c with pin := pin } else c) g with
    chCount := g.chCount + 1 }

/-- The body of EADD (42_engine_control.md rule R181). -/
def eaddBody (pin : Byte) (s : State) : Ran Raise Unit :=
  if s.eng.running then .raised .engineRunning s
  else if !pinOk pin then .raised .invalidPin s
  else if s.eng.chCount.val = Config.nChMax then .raised .invalidChannelConfig s
  else if hasPin s.eng (pin.setWidth 4) then .raised .invalidChannelConfig s
  else .done () (withEngine (addChannel (pin.setWidth 4) s.eng) s)

/-- EADD pin (42_engine_control.md rule R181). -/
def execEadd (pin : Byte) (s : State) : Host.Outcome State Fault Refusal := runCommand (eaddBody pin) s

/-! ### ETHR, EPER (rules R182, R183) -/

/-- The body of ETHR (42_engine_control.md rule R182). -/
def ethrBody (ms : Millis24) (s : State) : Ran Raise Unit :=
  if s.eng.running then .raised .engineRunning s
  else .done () (withEngine { s.eng with lpThr := ms } s)

/-- ETHR ms (42_engine_control.md rule R182). -/
def execEthr (ms : Millis24) (s : State) : Host.Outcome State Fault Refusal := runCommand (ethrBody ms) s

/-- The body of EPER (42_engine_control.md rule R183). -/
def eperBody (ms : Millis24) (s : State) : Ran Raise Unit :=
  .done () (withEngine { s.eng with pollMs := ms } s)

/-- EPER ms (42_engine_control.md rule R183). -/
def execEper (ms : Millis24) (s : State) : Host.Outcome State Fault Refusal := runCommand (eperBody ms) s

/-! ### ESTART, ESTOP (rules R184, R185) -/

/-- The pin is configured as input in the cache (42_engine_control.md rule R184). -/
def cachedInput (x : Expander) (pin : BitVec 4) : Bool :=
  x.dirValid.get (portOf pin.toNat) && (x.cacheDir.get (portOf pin.toNat)).getLsbD (bitOf pin.toNat)

/-- The engine as ESTART leaves it (42_engine_control.md rule R184). -/
def started (g : Engine) : Engine :=
  { mapChannels (fun _ c => c.idle) g with
    evqOvf := false, lastTickErr := 0, lastTickTerr := 0, running := true }

/-- The body of ESTART (42_engine_control.md rule R184). -/
def estartBody (s : State) : Ran Raise Unit :=
  if s.eng.running then .raised .engineRunning s
  else if !s.exp.initDone then .raised .invalidChannelConfig s
  else if s.eng.chCount.val = 0 then .raised .invalidChannelConfig s
  else if (channels s.eng).all fun k => cachedInput s.exp s.eng.ch[k].pin then
    .done () (withEngine (started s.eng) s)
  else .raised .invalidChannelConfig s

/-- ESTART (42_engine_control.md rule R184). -/
def execEstart (s : State) : Host.Outcome State Fault Refusal := runCommand estartBody s

/-- The body of ESTOP (42_engine_control.md rule R185). -/
def estopBody (s : State) : Ran Raise Unit := .done () (withEngine { s.eng with running := false } s)

/-- ESTOP (42_engine_control.md rule R185). -/
def execEstop (s : State) : Host.Outcome State Fault Refusal := runCommand estopBody s

/-! ### EPOP, ESTAT (rules R186 to R188) -/

/-- `RES0` of an event: kind, channel id, class (42_engine_control.md rules R187, R188). -/
def eventRes0 (ev : Event) : Word :=
  ((eventCode ev.kind).setWidth 32 <<< 24) ||| (ev.channelId.setWidth 32 <<< 16) |||
    ((classCode ev.cls).setWidth 32 <<< 8)

/-- The body of EPOP (42_engine_control.md rule R187). -/
def epopBody (s : State) : Ran Raise Unit :=
  match s.eng.evq with
  | [] => .raised .queueEmpty s
  | ev :: rest =>
    .done () (setRes (eventRes0 ev) ev.timestamp ev.durationMs (ev.members.setWidth 32)
      (withEngine { s.eng with evq := rest } s))

/-- EPOP (42_engine_control.md rule R187). -/
def execEpop (s : State) : Host.Outcome State Fault Refusal := runCommand epopBody s

/-- `RES0` of ESTAT: `EVQ_COUNT`, `CH_COUNT`, `EVQ_OVF`, `RUNNING` (42_engine_control.md rule R186). -/
def estatRes0 (g : Engine) : Word :=
  ((BitVec.ofNat 16 g.evq.length).setWidth 32 <<< 16) ||| ((BitVec.ofNat 8 g.chCount.val).setWidth 32 <<< 8) |||
    (bitWord g.evqOvf <<< 1) ||| bitWord g.running

/-- `RES1` of ESTAT: `LAST_TICK_ERR`, `LP_THR` (rule R186). -/
def estatRes1 (g : Engine) : Word := (g.lastTickErr.setWidth 32 <<< 24) ||| g.lpThr.setWidth 32

/-- `RES2` of ESTAT: `LAST_TICK_TERR`, `POLL_MS` (rule R186). -/
def estatRes2 (g : Engine) : Word := (g.lastTickTerr.setWidth 32 <<< 24) ||| g.pollMs.setWidth 32

/-- `RES3` of ESTAT: two bits of lifecycle per channel (rule R186). -/
def estatRes3 (g : Engine) : Word :=
  (channels g).foldl (fun w k => w ||| ((lifeCode g.ch[k].life).setWidth 32 <<< (2 * k.val))) 0

/-- The body of ESTAT (42_engine_control.md rule R186). -/
def estatBody (s : State) : Ran Raise Unit :=
  .done () (setRes (estatRes0 s.eng) (estatRes1 s.eng) (estatRes2 s.eng) (estatRes3 s.eng) s)

/-- ESTAT (42_engine_control.md rule R186). -/
def execEstat (s : State) : Host.Outcome State Fault Refusal := runCommand estatBody s

end Sys2Proof.Machine
end

