-- ==== Sys2Proof/Machine/Expander.lean ====
section
/-! DEFINITION. The Expander State Model commands (41_expander.md). -/
namespace Sys2Proof.Machine

/-- INIT's presence probe: the value is discarded, and a failure is `ChipNotFound` (41_expander.md rule R140,
60_exceptions.md rule R251). -/
def probe (s : State) : Ran Raise Unit :=
  ((readReg .input .p0 s).wrap .chipNotFound).andThen fun _ s => .done () s

/-- `INIT_DONE <- b` (10_state.md rule R33). -/
def setInitDone (b : Bool) (s : State) : State := { s with exp := { s.exp with initDone := b } }

/-- The body of INIT (41_expander.md rule R140). -/
def initBody (s : State) : Ran Raise Unit :=
  if s.eng.running then .raised .engineRunning s
  else
    (probe (setInitDone false s)).andThen fun _ s =>
    (writePair .cfg 0xFF 0xFF s).andThen fun _ s =>
    (writePair .out 0x00 0x00 s).andThen fun _ s => .done () (setInitDone true s)

/-- INIT (41_expander.md rule R140). -/
def execInit (s : State) : Host.Outcome State Fault Refusal := runCommand initBody s

/-- SETDIR pin, dir (41_expander.md rule R141). -/
def execSetdir (pin : Byte) (dir : Bool) (s : State) : Host.Outcome State Fault Refusal :=
  pinRmw .cfg pin (fun i => putb i dir) s

/-- SETPDIR m0, m1 (41_expander.md rule R142). -/
def execSetpdir (m0 m1 : Byte) (s : State) : Host.Outcome State Fault Refusal :=
  runCommand (writePair .cfg m0 m1) s

/-- SETLVL pin, level (41_expander.md rule R143). -/
def execSetlvl (pin : Byte) (level : Bool) (s : State) : Host.Outcome State Fault Refusal :=
  pinRmw .out pin (fun i => putb i level) s

/-- SETPLVL m0, m1 (41_expander.md rule R144). -/
def execSetplvl (m0 m1 : Byte) (s : State) : Host.Outcome State Fault Refusal :=
  runCommand (writePair .out m0 m1) s

/-- The body of GETLVL: the input register is read fresh, and recorded in `LAST_IN` (41_expander.md rule R145). -/
def getlvlBody (pin : Byte) (s : State) : Ran Raise Unit :=
  if pinOk pin then
    ((readReg .input (portOf pin.toNat) s).wrap .busError).andThen fun b s =>
    .done () (setRes (bitWord (b.getLsbD (bitOf pin.toNat))) 0 0 0 (observe (portOf pin.toNat) b s))
  else .raised .invalidPin s

/-- GETLVL pin (41_expander.md rule R145). -/
def execGetlvl (pin : Byte) (s : State) : Host.Outcome State Fault Refusal := runCommand (getlvlBody pin) s

/-- A bulk read of one kind of register into `RES0`, port 0 in the low byte (41_expander.md rules R146 to R148);
`seen` says what else a success writes. -/
def bulkToRes (k : RegKind) (seen : Byte → Byte → State → State) (s : State) : Ran Raise Unit :=
  ((bulkRead k s).wrap .busError).andThen fun b s =>
  .done () (setRes ((packPorts b.1 b.2).setWidth 32) 0 0 0 (seen b.1 b.2 s))

/-- GETPLVL (41_expander.md rule R146): it also records `LAST_IN`. -/
def execGetplvl (s : State) : Host.Outcome State Fault Refusal := runCommand (bulkToRes .input observeBoth) s

/-- GETOUT (41_expander.md rules R147, R149): the chip's output registers; the cache is not written. -/
def execGetout (s : State) : Host.Outcome State Fault Refusal := runCommand (bulkToRes .output fun _ _ s => s) s

/-- GETCFG (41_expander.md rules R148, R149): the chip's direction registers; the cache is not written. -/
def execGetcfg (s : State) : Host.Outcome State Fault Refusal := runCommand (bulkToRes .config fun _ _ s => s) s

/-- TOGGLE pin (41_expander.md rule R150). -/
def execToggle (pin : Byte) (s : State) : Host.Outcome State Fault Refusal := pinRmw .out pin flipb s

/-- `RES0` of RDCACHE: `CACHE_OUT[1]`, `CACHE_OUT[0]`, `CACHE_DIR[1]`, `CACHE_DIR[0]` (41_expander.md rule R152). -/
def rdcacheRes0 (x : Expander) : Word :=
  (x.cacheOut.p1.setWidth 32 <<< 24) ||| (x.cacheOut.p0.setWidth 32 <<< 16) |||
    (x.cacheDir.p1.setWidth 32 <<< 8) ||| x.cacheDir.p0.setWidth 32

/-- `RES1` of RDCACHE: `INIT_DONE` and the four valid bits (rule R152). -/
def rdcacheRes1 (x : Expander) : Word :=
  (bitWord x.initDone <<< 4) ||| (bitWord x.outValid.p1 <<< 3) ||| (bitWord x.outValid.p0 <<< 2) |||
    (bitWord x.dirValid.p1 <<< 1) ||| bitWord x.dirValid.p0

/-- `RES2` of RDCACHE: `LAST_IN` (rule R152). -/
def rdcacheRes2 (x : Expander) : Word := (packPorts x.lastIn.p0 x.lastIn.p1).setWidth 32

/-- `RES3` of RDCACHE: `LAST_IN_VALID` (rule R152). -/
def rdcacheRes3 (x : Expander) : Word := (bitWord x.lastInValid.p1 <<< 1) ||| bitWord x.lastInValid.p0

/-- The body of RDCACHE (41_expander.md rule R152): no bus activity, and it always ends OK. -/
def rdcacheBody (s : State) : Ran Raise Unit :=
  .done () (setRes (rdcacheRes0 s.exp) (rdcacheRes1 s.exp) (rdcacheRes2 s.exp) (rdcacheRes3 s.exp) s)

/-- RDCACHE (41_expander.md rule R152). -/
def execRdcache (s : State) : Host.Outcome State Fault Refusal := runCommand rdcacheBody s

end Sys2Proof.Machine
end

