-- ==== Sys2Proof/Machine/Tick.lean ====
section
/-! DEFINITION. The polling tick: snapshot, edges, long press, chord (43_engine_tick.md), and ETICK. -/
namespace Sys2Proof.Machine

/-- `elapsed(k) = now -_32 PRESS_START[k]`, modulo 2^32 (43_engine_tick.md rule R214). -/
def elapsed (now : Word) (c : Channel) : Word := now - c.pressStart

/-- The long-press threshold at the time base's width (00_scope.md rule R12). -/
def threshold (g : Engine) : Word := g.lpThr.setWidth 32

/-- `new[k]`: the snapshot's level of the channel's pin, true = open (43_engine_tick.md rule R213). -/
def newLevel (snap : PinMask) (c : Channel) : Bool := snap.getLsbD c.pin.toNat

/-- The condition of rule R215: a 0→1 transition of a channel that is not Released. -/
def isRelease (new : Bool) (c : Channel) : Bool := !c.prev && new && c.life != .released

/-- The condition of rule R216: a 1→0 transition. -/
def isPress (new : Bool) (c : Channel) : Bool := c.prev && !new

/-- The condition of rule R217: no transition, Pressed, the threshold reached, no LongPress emitted yet. -/
def isLongPress (thr now : Word) (new : Bool) (c : Channel) : Bool :=
  c.prev == new && c.life == .pressed && decide (thr ≤ elapsed now c) && !c.longEmitted

/-- The event of rule R215. -/
def releaseEvent (thr now : Word) (k : Fin 16) (c : Channel) : Event where
  kind := .release
  channelId := BitVec.ofNat 8 k.val
  cls := if elapsed now c < thr then .short else .long
  timestamp := now
  durationMs := elapsed now c
  members := 0

/-- The event of rules R216 and R217: no class, no duration, no members. -/
def plainEvent (kind : EventKind) (now : Word) (k : Fin 16) : Event where
  kind := kind
  channelId := BitVec.ofNat 8 k.val
  cls := .none
  timestamp := now
  durationMs := 0
  members := 0

/-- Step 2 for one channel: the event it emits, if any (43_engine_tick.md rules R215 to R219). -/
def channelEvent (thr now : Word) (snap : PinMask) (k : Fin 16) (c : Channel) : Option Event :=
  let new := newLevel snap c
  if isRelease new c then some (releaseEvent thr now k c)
  else if isPress new c then some (plainEvent .press now k)
  else if isLongPress thr now new c then some (plainEvent .longPress now k)
  else none

/-- Step 2 for one channel: its lifecycle, press start and long-emitted flag afterwards (rules R215 to R219). -/
def channelStep (thr now : Word) (snap : PinMask) (c : Channel) : Channel :=
  let new := newLevel snap c
  if isRelease new c then { c with life := .released, longEmitted := false }
  else if isPress new c then { c with life := .pressed, pressStart := now, longEmitted := false }
  else if isLongPress thr now new c then { c with life := .longPressed, longEmitted := true }
  else c

/-- Step 4 for one channel: the snapshot becomes the previous one (43_engine_tick.md rule R220). -/
def storeLevel (snap : PinMask) (c : Channel) : Channel := { c with prev := newLevel snap c }

/-- `P`: the channels the new snapshot shows pressed (43_engine_tick.md rule R221). -/
def pressedNow (snap : PinMask) (g : Engine) : List (Fin 16) :=
  (channels g).filter fun k => !newLevel snap g.ch[k]

/-- `OR over k in P of (1 << k)` (rule R221). -/
def memberMask (ks : List (Fin 16)) : BitVec 16 := ks.foldl (fun m k => m ||| (1#16 <<< k.val)) 0

/-- Step 3: the Chord event, when two or more channels are pressed (rule R221). -/
def chordEvent (now : Word) (snap : PinMask) (g : Engine) : Option Event :=
  if 2 ≤ (pressedNow snap g).length then
    some { kind := .chord, channelId := 0xFF, cls := .none, timestamp := now, durationMs := 0,
           members := memberMask (pressedNow snap g) }
  else none

/-- The events of one tick: by ascending channel id, then the Chord (rule R222). -/
def tickEvents (now : Word) (snap : PinMask) (g : Engine) : List Event :=
  (channels g).filterMap (fun k => channelEvent (threshold g) now snap k g.ch[k]) ++ (chordEvent now snap g).toList

/-- Steps 2 and 4 for every defined channel (rules R215 to R220). A channel's step reads only its own entry, so the
ascending order of rule R222 shows in the events alone (DEDUCED, log entry 16). -/
def tickChannels (now : Word) (snap : PinMask) (g : Engine) : Engine :=
  mapChannels (fun k c =>
    if k.val < g.chCount.val then storeLevel snap (channelStep (threshold g) now snap c) else c) g

/-- The engine after a tick whose snapshot was read, before its outcome is recorded (rules R215 to R226). -/
def tickEngine (now : Word) (snap : PinMask) (g : Engine) : Engine :=
  emitAll (tickChannels now snap g) (tickEvents now snap g)

/-- `LAST_TICK_ERR` and `LAST_TICK_TERR` written (43_engine_tick.md rule R227). -/
def recordTick (err terr : Byte) (s : State) : State :=
  withEngine { s.eng with lastTickErr := err, lastTickTerr := terr } s

/-- The tick after its `RUNNING` check (43_engine_tick.md rules R212 to R227): one sample of `NOW_MS`, one bulk read;
a failed read records its outcome and changes nothing else. -/
def tick (s : State) : Ran Raise Unit :=
  let now := upcomingNow s
  match bulkRead .input (sampledNow s) with
  | .raised k s => .raised (.busError k) (recordTick (errCode (.busError k)) (kindCode k) s)
  | .done b s =>
    let s := observeBoth b.1 b.2 s
    .done () (recordTick errOk 0 (withEngine (tickEngine now (packPorts b.1 b.2) s.eng) s))

/-- The body of ETICK (43_engine_tick.md rule R228). -/
def etickBody (s : State) : Ran Raise Unit := if s.eng.running then tick s else .raised .engineNotRunning s

/-- ETICK (43_engine_tick.md rule R228). -/
def execEtick (s : State) : Host.Outcome State Fault Refusal := runCommand etickBody s

/-! ### The poll timer (60_exceptions.md rule R261) -/

/-- The poll timer may issue a tick: `RUNNING` = 1 and `POLL_MS` ≠ 0. -/
def timerMayTick (g : Engine) : Bool := g.running && g.pollMs != 0

/-- The timer's period passes: a tick is requested, and a request made while one is pending is merged into it. -/
def timerRequest (s : State) : State :=
  if timerMayTick s.eng then withEngine { s.eng with tickPending := true } s else s

/-- The turn of the pending tick: it runs outside the command frame, so neither `STATUS` nor `RES0`..`RES3` is written
(43_engine_tick.md rule R227); it is dropped when the timer may not tick; with none pending nothing happens. -/
def timerTurn (s : State) : State :=
  if s.eng.tickPending then
    if timerMayTick s.eng then (tick (withEngine { s.eng with tickPending := false } s)).state
    else withEngine { s.eng with tickPending := false } s
  else s

end Sys2Proof.Machine
end

