-- ==== Sys2Proof/Machine/Dispatch.lean ====
section
/-! DEFINITION. exec: one arm per command (30_encoding.md rule R94). -/
namespace Sys2Proof.Machine

def exec (i : Instr) (s : State) : Host.Outcome State Fault Refusal :=
  match i with
  | .init => Sys2Proof.Machine.execInit s
  | .setdir pin dir => Sys2Proof.Machine.execSetdir pin dir s
  | .setpdir m0 m1 => Sys2Proof.Machine.execSetpdir m0 m1 s
  | .setlvl pin level => Sys2Proof.Machine.execSetlvl pin level s
  | .setplvl m0 m1 => Sys2Proof.Machine.execSetplvl m0 m1 s
  | .getlvl pin => Sys2Proof.Machine.execGetlvl pin s
  | .getplvl => Sys2Proof.Machine.execGetplvl s
  | .getout => Sys2Proof.Machine.execGetout s
  | .getcfg => Sys2Proof.Machine.execGetcfg s
  | .toggle pin => Sys2Proof.Machine.execToggle pin s
  | .rdcache => Sys2Proof.Machine.execRdcache s
  | .eclr => Sys2Proof.Machine.execEclr s
  | .eadd pin => Sys2Proof.Machine.execEadd pin s
  | .ethr ms => Sys2Proof.Machine.execEthr ms s
  | .eper ms => Sys2Proof.Machine.execEper ms s
  | .estart => Sys2Proof.Machine.execEstart s
  | .estop => Sys2Proof.Machine.execEstop s
  | .etick => Sys2Proof.Machine.execEtick s
  | .epop => Sys2Proof.Machine.execEpop s
  | .estat => Sys2Proof.Machine.execEstat s

end Sys2Proof.Machine
end

