-- ==== Sys2Proof/Machine/Agents.lean ====
section
/-! DEFINITION. What each move of an agent outside the block does (60_exceptions.md rules R260 to R263, 70_reset_and_hazards.md rules R280 to R282). -/
namespace Sys2Proof.Machine

/-- A word written to `CMD`: decoded, then executed; a word the decoder rejects raises `IllegalCommand`
(30_encoding.md rule R91, 60_exceptions.md rules R243, R246). -/
def runWord (w : Word) (s : State) : Host.Outcome State Fault Refusal :=
  match decode w with
  | some i => exec i s
  | none => illegalCommand s

/-- Where an operation leads when no reset cuts it short (60_exceptions.md rule R260). -/
def operationOutcome (op : Operation) (s : State) : Host.Outcome State Fault Refusal :=
  match op with
  | .command w => runWord w s
  | .tick => .next (if timerMayTick s.eng then (tick s).state else s)

/-- A reset while an operation runs (70_reset_and_hazards.md rule R282). An operation that the model stops is stopped before its
first transaction (40_register_access.md rule R127), so a reset that comes later finds the stop, which stays (60_exceptions.md
rule R253); one that comes before, n = 0, ends the operation first (log entry 7). -/
def resetDuring (op : Operation) (n : Nat) (s : State) : Host.Outcome State Fault Refusal :=
  match operationOutcome op s with
  | .next t => .next (resetAfter n s t)
  | .fault f => if n = 0 then .next (resetAfter 0 s s) else .fault f
  | .refused r => if n = 0 then .next (resetAfter 0 s s) else .refused r

/-- One agent's move (60_exceptions.md rule R260). -/
def act (a : Action) (s : State) : Host.Outcome State Fault Refusal :=
  match a with
  | .cmdWrite w => runWord w s
  | .cmdPartialWrite _ => .refused .partialCmdWrite
  | .hostRead r => .next (hostReadReg r s)
  | .timerRequest => .next (timerRequest s)
  | .timerTurn => .next (timerTurn s)
  | .reset => .next (resetBlock s)
  | .resetDuring op n => resetDuring op n s

/-- The agenda without its first move. -/
def takeMove (s : State) : State := { s with env := { s.env with agenda := s.env.agenda.tail } }

/-- The next move of the agenda; with none the block is idle (70_reset_and_hazards.md rule R281; log entry 1). -/
def nextMove (s : State) : Host.Outcome State Fault Refusal :=
  match s.env.agenda with
  | [] => .next s
  | a :: _ => act a (takeMove s)

/-- A whole-word write of `w` to `CMD` put before every other move: where step takes its next command from. -/
def queueCommand (w : Word) (s : State) : State :=
  { s with env := { s.env with agenda := .cmdWrite w :: s.env.agenda } }

end Sys2Proof.Machine
end

