-- ==== Sys2Proof/Machine/Step.lean ====
section
/-! DEFINITION. One step: one atomic operation of one agent (60_exceptions.md rule R260), under a well-formed configuration (rule R253). -/
namespace Sys2Proof.Machine

/-- One step. -/
def step (s : State) : Host.Outcome State Fault Refusal :=
  if configWf s.cfg then nextMove s else .refused .illFormedConfig

/-- `s` with the command whose bits are `w` written to `CMD` next. -/
def State.withFetchWord (s : State) (nbits w : Nat) : State := queueCommand (tableWord nbits w) s

end Sys2Proof.Machine
end

