-- ==== Sys2Proof/Machine/Assembler.lean ====
section
/-! DEFINITION. The assembler of 30_encoding.md rules R97 and R98: lines to commands, pseudo-commands to their expansions, and how a host runs an expansion. A line is its mnemonic and operands, without the text (log entry 17). -/
namespace Sys2Proof.Machine

/-- The number of an operand, 0 for a word (a line's format says which operands are numbers). -/
def operandNum : AsmOperand → Nat
  | .num n => n
  | .kwIn => 0
  | .kwOut => 0
  | .kwHi => 0
  | .kwLo => 0

/-- The i-th operand of a line. -/
def operandAt (l : AsmLine) (i : Nat) : AsmOperand := l.operands[i]?.getD (.num 0)

/-- An operand as a field of the given width. -/
def operandField (n : Nat) (l : AsmLine) (i : Nat) : BitVec n := BitVec.ofNat n (operandNum (operandAt l i))

/-- The one-bit operand of a line of format PB. -/
def operandBit (l : AsmLine) : Bool := ((operandAt l 1).bitFor l.mnemonic).getD false

/-- The command of a line; an ill-formed line is an assembly error (30_encoding.md rule R97). -/
def assembleLine (l : AsmLine) : Option Instr :=
  if l.wf then
    match l.mnemonic with
    | .init => some .init
    | .setdir => some (.setdir (operandField 8 l 0) (operandBit l))
    | .setpdir => some (.setpdir (operandField 8 l 0) (operandField 8 l 1))
    | .setlvl => some (.setlvl (operandField 8 l 0) (operandBit l))
    | .setplvl => some (.setplvl (operandField 8 l 0) (operandField 8 l 1))
    | .getlvl => some (.getlvl (operandField 8 l 0))
    | .getplvl => some .getplvl
    | .getout => some .getout
    | .getcfg => some .getcfg
    | .toggle => some (.toggle (operandField 8 l 0))
    | .rdcache => some .rdcache
    | .eclr => some .eclr
    | .eadd => some (.eadd (operandField 8 l 0))
    | .ethr => some (.ethr (operandField 24 l 0))
    | .eper => some (.eper (operandField 24 l 0))
    | .estart => some .estart
    | .estop => some .estop
    | .etick => some .etick
    | .epop => some .epop
    | .estat => some .estat
  else none

/-- A line that may also be a pseudo-command (30_encoding.md rule R98). -/
inductive AsmStatement where
  | line (l : AsmLine)
  | mkout (pin level : AsmOperand)
  | mkin (pin : AsmOperand)
  | allin
  | watch (pins : List AsmOperand)
  | pop
deriving DecidableEq, Repr

/-- The lines a statement stands for (30_encoding.md rule R98). -/
def expandStatement : AsmStatement → List AsmLine
  | .line l => [l]
  | .mkout pin level => [⟨.setlvl, [pin, level]⟩, ⟨.setdir, [pin, .kwOut]⟩]
  | .mkin pin => [⟨.setdir, [pin, .kwIn]⟩]
  | .allin => [⟨.setpdir, [.num 0xFF, .num 0xFF]⟩]
  | .watch pins => ⟨.eclr, []⟩ :: pins.map (fun p => ⟨.eadd, [p]⟩) ++ [⟨.estart, []⟩]
  | .pop => [⟨.epop, []⟩]

/-- `WATCH` takes 1 to 16 pins (rule R98). -/
def statementOk : AsmStatement → Bool
  | .watch pins => decide (1 ≤ pins.length) && decide (pins.length ≤ 16)
  | .line _ => true
  | .mkout _ _ => true
  | .mkin _ => true
  | .allin => true
  | .pop => true

/-- The commands of a statement, none if any of its lines is an assembly error (rules R97, R98). -/
def assembleStatement (a : AsmStatement) : Option (List Instr) :=
  if statementOk a then (expandStatement a).mapM assembleLine else none

/-- A move of the poll timer, the one agent beside the host that issues operations (60_exceptions.md rules R260, R261). -/
inductive TimerMove where
  | request
  | turn
deriving DecidableEq, Repr

/-- Moves of the poll timer, one after another (60_exceptions.md rule R261). -/
def timerMoves : List TimerMove → State → State
  | [], s => s
  | .request :: ms, s => timerMoves ms (timerRequest s)
  | .turn :: ms, s => timerMoves ms (timerTurn s)

/-- "An expansion stops at the first command that does not end with `ERR` = OK" (rule R98): the commands run one after
another, and the host sees the failing command's status. Each command stands with the poll timer's moves that come after
it and before the next: rule R98 does not say that none does, and rule R260 admits a tick between two commands.
DESIGN CHOICE: no reset and no other host access comes between them (log entry 21). -/
def runExpansion : List (Instr × List TimerMove) → State → Host.Outcome State Fault Refusal
  | [], s => .next s
  | (i, moves) :: is, s =>
    match exec i s with
    | .next t => if t.host.err = errOk then runExpansion is (timerMoves moves t) else .next t
    | .fault f => .fault f
    | .refused r => .refused r

end Sys2Proof.Machine
end

