-- ==== Sys2Proof/Machine/RefChip.lean ====
section
/-! DEFINITION. The reference chip of 20_memory.md rule R75, which is not part of IOX-BTN: a model of the expander that claims may assume of the bus, as a hypothesis on the transactions logged. No step of the machine uses it. -/
namespace Sys2Proof.Machine

/-- The chip's registers, its register pointer and the external line levels (20_memory.md rule R75). -/
structure RefChip where
  /-- `CHIP_CFG` -/
  chipCfg : Ports Byte
  /-- `CHIP_OUT` -/
  chipOut : Ports Byte
  /-- `PTR` -/
  ptr : Byte
  /-- `LINE[0..15]`, bit p for pin p: the levels the last transaction met -/
  line : PinMask
deriving DecidableEq, Repr

/-- `REG(SUB_INp)`: the output latch looped back on output pins, the line on input pins (rule R75). -/
def chipInput (x : RefChip) (p : Port) : Byte :=
  (x.chipOut.get p &&& ~~~x.chipCfg.get p) ||| ((Ports.get ⟨x.line.setWidth 8, x.line.extractLsb' 8 8⟩ p) &&& x.chipCfg.get p)

/-- `REG(a)` (rule R75). The rule gives no register at any other sub-address, so no read of one is answered. -/
def chipReg (c : Config) (x : RefChip) (a : Byte) : Option Byte :=
  if a = c.subIn0 then some (chipInput x .p0)
  else if a = c.subIn1 then some (chipInput x .p1)
  else if a = c.subOut0 then some x.chipOut.p0
  else if a = c.subOut1 then some x.chipOut.p1
  else if a = c.subCfg0 then some x.chipCfg.p0
  else if a = c.subCfg1 then some x.chipCfg.p1
  else none

/-- A register write that the chip took (rule R75). -/
def chipStore (c : Config) (x : RefChip) (a v : Byte) : RefChip :=
  if a = c.subOut0 then { x with chipOut := x.chipOut.set .p0 v }
  else if a = c.subOut1 then { x with chipOut := x.chipOut.set .p1 v }
  else if a = c.subCfg0 then { x with chipCfg := x.chipCfg.set .p0 v }
  else if a = c.subCfg1 then { x with chipCfg := x.chipCfg.set .p1 v }
  else x

/-- What the chip may be after a transaction that ended so: none when the chip would not have answered so. A write that
failed leaves the addressed register (or the pointer) as it was, or written; a failed read changes nothing (rule R75; DEDUCED for
the pointer, log entry 15). -/
def chipAfter (c : Config) (x : RefChip) : BusEvent → List RefChip
  | .write _ [a] none => [{ x with ptr := a }]
  | .write _ [a] (some _) => [x, { x with ptr := a }]
  | .write _ [a, v] none => [chipStore c x a v]
  | .write _ [a, v] (some _) => [x, chipStore c x a v]
  | .write _ _ _ => []
  | .read _ 1 [b0] none => if chipReg c x x.ptr = some b0 then [x] else []
  | .read _ 2 [b0, b1] none =>
    if chipReg c x x.ptr = some b0 ∧ chipReg c x (x.ptr + 1) = some b1 then [x] else []
  | .read _ _ _ none => []
  | .read _ _ _ (some _) => [x]

/-- What the chip may be after a run of transactions that ended as logged, each with the line levels it meets: `LINE` is a
draw, so it may change between any two transactions and not within one (rules R75, R68; DEDUCED, log entry 15). -/
def chipAfterAll (c : Config) (x : RefChip) : List (PinMask × BusEvent) → List RefChip
  | [] => [x]
  | (line, ev) :: rest => (chipAfter c { x with line := line } ev).flatMap fun y => chipAfterAll c y rest

/-- The transaction returned `Ok`. -/
def eventOk : BusEvent → Bool
  | .write _ _ failed => failed.isNone
  | .read _ _ _ failed => failed.isNone

end Sys2Proof.Machine
end

