-- ==== Sys2Proof/Safety.lean ====
section
/-! DEFINITION. The terms claims are stated in: how the bus will answer, what has been issued, the invariants of a run, and what traffic is legal. -/
namespace Sys2Proof.Machine

/-! ### How the bus will answer (20_memory.md rule R61) -/

/-- The transaction returned `Ok`. -/
def replyOk : BusReply → Bool
  | .ok _ _ => true
  | .err _ => false

/-- The first byte of an answer's data. -/
def byte0 : BusReply → Byte
  | .ok b0 _ => b0
  | .err _ => 0

/-- The second byte of an answer's data. -/
def byte1 : BusReply → Byte
  | .ok _ b1 => b1
  | .err _ => 0

/-- The next `n` transactions return `Ok`. -/
def allOk (n : Nat) (s : State) : Bool := (List.range n).all fun j => replyOk (upcoming s j)

/-- The next `j` transactions return `Ok`, and the one after them fails with kind `k`. -/
def failsAt (j : Nat) (k : TransportErrorKind) (s : State) : Bool := allOk j s && decide (upcoming s j = .err k)

/-! ### What has been issued (20_memory.md rules R64, R73) -/

/-- The surroundings after the block has issued these transactions: that many answers used up, the transactions
logged in order, and nothing else changed. -/
def afterBus (evs : List BusEvent) (s : State) : Env :=
  { s.env with
    busIn := s.env.busIn.drop evs.length
    busDraws := s.env.busDraws + (evs.length - s.env.busIn.length)
    busLog := s.env.busLog ++ evs }

/-- The state after the block has issued these transactions and done nothing else. -/
def issued (evs : List BusEvent) (s : State) : State := { s with env := afterBus evs s }

/-- A successful pointer write. -/
def evPoint (c : Config) (k : RegKind) (p : Port) : BusEvent := .write c.devAddr [subOf c k p] none

/-- A successful one-byte read. -/
def evRead1 (c : Config) (b : Byte) : BusEvent := .read c.devAddr 1 [b] none

/-- A successful two-byte read. -/
def evRead2 (c : Config) (b0 b1 : Byte) : BusEvent := .read c.devAddr 2 [b0, b1] none

/-- A successful register write. -/
def evStore (c : Config) (l : Latch) (p : Port) (v : Byte) : BusEvent := .write c.devAddr [subOf c l.reg p, v] none

/-- How many transactions a bulk read makes (40_register_access.md rules R122, R123). -/
def bulkCount (c : Config) : Nat :=
  match c.bulkMode with
  | .pair => 2
  | .split => 4

/-- The bytes a bulk read gets when its transactions all return `Ok` (rules R122, R123). -/
def bulkData (s : State) : Byte × Byte :=
  match s.cfg.bulkMode with
  | .pair => (byte0 (upcoming s 1), byte1 (upcoming s 1))
  | .split => (byte0 (upcoming s 1), byte0 (upcoming s 3))

/-- The transactions of a successful bulk read (rules R122, R123). -/
def bulkEvents (k : RegKind) (s : State) : List BusEvent :=
  match s.cfg.bulkMode with
  | .pair => [evPoint s.cfg k .p0, evRead2 s.cfg (bulkData s).1 (bulkData s).2]
  | .split =>
    [evPoint s.cfg k .p0, evRead1 s.cfg (bulkData s).1, evPoint s.cfg k .p1, evRead1 s.cfg (bulkData s).2]

/-- The host registers after a command that ended OK with these results (60_exceptions.md rule R246). -/
def okRegs (r0 r1 r2 r3 : Word) : HostRegs := ⟨0x00, 0x00, r0, r1, r2, r3⟩

/-- The host registers after a command that raised an error with this code (rule R246). -/
def errRegs (err terr : Byte) : HostRegs := ⟨err, terr, 0, 0, 0, 0⟩

/-- The same transaction, ended with a failure of kind `k`: a failed read returns no data (20_memory.md rule R61). -/
def failedWith (k : TransportErrorKind) : BusEvent → BusEvent
  | .write dev bytes _ => .write dev bytes (some k)
  | .read dev n _ _ => .read dev n [] (some k)

/-- What an operation that would issue `evs` issues when transaction j is the first to fail, with kind `k`: those before it,
then that one, and none after it (60_exceptions.md rule R249). -/
def cutAt (j : Nat) (k : TransportErrorKind) (evs : List BusEvent) : List BusEvent :=
  evs.take j ++ ((evs.drop j).take 1).map (failedWith k)

/-- The kind a transaction failed with, if it failed. -/
def failedKind : BusEvent → Option TransportErrorKind
  | .write _ _ failed => failed
  | .read _ _ _ failed => failed

/-- The Expander State Model with one cache register written (10_state.md rule R34). -/
def expWithCache (x : Expander) (l : Latch) (p : Port) (v : Byte) : Expander :=
  match l with
  | .cfg => { x with cacheDir := x.cacheDir.set p v, dirValid := x.dirValid.set p true }
  | .out => { x with cacheOut := x.cacheOut.set p v, outValid := x.outValid.set p true }

/-- What a read-modify-write command on one pin does in every case (40_register_access.md rule R127): `newBit` is what becomes of
the pin's own bit, and the other seven bits are those of the old value.
- a pin of 16 or more: `InvalidPin`, nothing else written;
- Hardware, every transaction `Ok`: the register is read, the new value written back even when it is the same, then cached;
- Cache, a valid cache register and the write `Ok`: the old value is the cached one;
- transaction j the first to fail: `BusError` with its kind, no cache register changed, and the same transactions up to it;
- Cache, an unwritten cache register: the model fault `CacheUnwritten`. -/
def PinCommandCases (i : Instr) (l : Latch) (pin : Byte) (newBit : Bool → Bool) (s : State) : Prop :=
  let p := portOf pin.toNat
  let wrote (old v : Byte) : Prop :=
    ∀ j, j < 8 → v.getLsbD j = if j = pin.toNat % 8 then newBit (old.getLsbD j) else old.getLsbD j
  (16 ≤ pin.toNat → exec i s = .next { s with host := errRegs 0x03 0x00 }) ∧
  (pin.toNat < 16 → s.cfg.rmwSource = .hardware → allOk 3 s = true →
    ∃ v : Byte, wrote (byte0 (upcoming s 1)) v ∧
      exec i s = .next { s with
        host := okRegs 0 0 0 0
        exp := expWithCache s.exp l p v
        env := afterBus [evPoint s.cfg l.reg p, evRead1 s.cfg (byte0 (upcoming s 1)), evStore s.cfg l p v] s }) ∧
  (pin.toNat < 16 → s.cfg.rmwSource = .cache → cacheValid l p s = true → allOk 1 s = true →
    ∃ v : Byte, wrote (cached l p s) v ∧
      exec i s = .next { s with
        host := okRegs 0 0 0 0, exp := expWithCache s.exp l p v, env := afterBus [evStore s.cfg l p v] s }) ∧
  (∀ (j : Nat) (k : TransportErrorKind), pin.toNat < 16 → s.cfg.rmwSource = .hardware → j < 3 → failsAt j k s = true →
    ∃ v : Byte, wrote (byte0 (upcoming s 1)) v ∧
      exec i s = .next { s with
        host := errRegs 0x01 (kindCode k)
        env := afterBus (cutAt j k
          [evPoint s.cfg l.reg p, evRead1 s.cfg (byte0 (upcoming s 1)), evStore s.cfg l p v]) s }) ∧
  (∀ k : TransportErrorKind, pin.toNat < 16 → s.cfg.rmwSource = .cache → cacheValid l p s = true → failsAt 0 k s = true →
    ∃ v : Byte, wrote (cached l p s) v ∧
      exec i s = .next { s with
        host := errRegs 0x01 (kindCode k), env := afterBus (cutAt 0 k [evStore s.cfg l p v]) s }) ∧
  (pin.toNat < 16 → s.cfg.rmwSource = .cache → cacheValid l p s = false → exec i s = .fault .cacheUnwritten)

/-- The command would read an unwritten cache register: SETDIR, SETLVL or TOGGLE of a pin that exists, under `RMW_SOURCE` =
Cache, with the valid bit of its register 0 (40_register_access.md rule R127, 60_exceptions.md rule R253). -/
def ReadsUnwrittenCache (i : Instr) (s : State) : Prop :=
  s.cfg.rmwSource = .cache ∧ ∃ pin : Byte, pin.toNat < 16 ∧
    ((∃ dir, i = .setdir pin dir) ∧ cacheValid .cfg (portOf pin.toNat) s = false ∨
      ((∃ level, i = .setlvl pin level) ∨ i = .toggle pin) ∧ cacheValid .out (portOf pin.toNat) s = false)

/-! ### Invariants -/

/-- A channel is Released exactly when its previous level is open (10_state.md rule R52), here for all sixteen entries. -/
def LifeMatchesPrev (g : Engine) : Prop := ∀ k : Fin 16, g.ch[k].life = .released ↔ g.ch[k].prev = true

/-- A LongPress has been emitted exactly when the channel is LongPressed (10_state.md rule R53). -/
def LongMatchesLife (g : Engine) : Prop := ∀ k : Fin 16, g.ch[k].longEmitted = true ↔ g.ch[k].life = .longPressed

/-- `TERR` fits its `ERR`: a transport kind's code for BusError and ChipNotFound, otherwise 0 (60_exceptions.md rule R242). -/
def TerrFits (err terr : Byte) : Prop :=
  if err = 0x01 ∨ err = 0x02 then 1 ≤ terr.toNat ∧ terr.toNat ≤ 4 else terr = 0

/-- What every run keeps of the registers and of the engine. -/
structure WellKept (s : State) : Prop where
  /-- codes 0x09 to 0xFF are never written (60_exceptions.md rule R240) -/
  err_code : s.host.err.toNat ≤ 8
  /-- 60_exceptions.md rule R242 -/
  terr_fits : TerrFits s.host.err s.host.terr
  /-- a tick ends OK or with BusError (43_engine_tick.md rule R227) -/
  tick_err : s.eng.lastTickErr = 0x00 ∨ s.eng.lastTickErr = 0x01
  /-- 43_engine_tick.md rule R227 -/
  tick_terr : TerrFits s.eng.lastTickErr s.eng.lastTickTerr
  /-- `EVQ_COUNT` is at most 32 (10_state.md rule R49) -/
  queue_fits : s.eng.evq.length ≤ Config.evqDepth
  /-- the defined channels have distinct pins (10_state.md rule R42) -/
  pins_distinct : ∀ j k : Fin 16, j.val < s.eng.chCount.val → k.val < s.eng.chCount.val →
    s.eng.ch[j].pin = s.eng.ch[k].pin → j = k
  /-- a running engine was started on an initialised chip (42_engine_control.md rule R184) -/
  running_init : s.eng.running = true → s.exp.initDone = true
  /-- a running engine has a channel (rule R184) -/
  running_channels : s.eng.running = true → 0 < s.eng.chCount.val
  /-- after a successful INIT every cache register is valid (70_reset_and_hazards.md rule R284) -/
  init_valid : s.exp.initDone = true → ∀ (l : Latch) (p : Port), cacheValid l p s = true

/-- The value a transaction stored in a chip register with success, if it did (20_memory.md rule R64). -/
def storedValue (c : Config) (l : Latch) (p : Port) : BusEvent → Option Byte
  | .write _ [a, v] none => if a = subOf c l.reg p then some v else none
  | .write _ _ _ => none
  | .read _ _ _ _ => none

/-- The value of the last successful write of a chip register in a log, if any. -/
def lastStore (c : Config) (l : Latch) (p : Port) (log : List BusEvent) : Option Byte :=
  log.reverse.findSome? (storedValue c l p)

/-- Write-then-cache (10_state.md rule R34): a valid cache register holds what its last successful write stored. -/
def CacheMirrors (s : State) : Prop :=
  ∀ (l : Latch) (p : Port), cacheValid l p s = true → lastStore s.cfg l p s.env.busLog = some (cached l p s)

/-! ### Legal traffic (20_memory.md rules R60, R63, R65, R70, R80) -/

/-- The six sub-addresses. -/
def subAddresses (c : Config) : List Byte := [c.subIn0, c.subIn1, c.subOut0, c.subOut1, c.subCfg0, c.subCfg1]

/-- The four that IOX-BTN writes. -/
def writableSubs (c : Config) : List Byte := [c.subOut0, c.subOut1, c.subCfg0, c.subCfg1]

/-- A transaction IOX-BTN may issue: to `DEV_ADDR`; a pointer write to one of the six sub-addresses, a one-byte register
write to one of the four writable ones, or a read of one or two bytes. -/
def legalEvent (c : Config) : BusEvent → Bool
  | .write dev [a] _ => dev == c.devAddr && (subAddresses c).contains a
  | .write dev [a, _] _ => dev == c.devAddr && (writableSubs c).contains a
  | .write _ _ _ => false
  | .read dev n _ _ => dev == c.devAddr && (n == 1 || n == 2)

/-! ### The commands by what they touch -/

/-- The commands of 41_expander.md (30_encoding.md rule R94, opcodes 0x01 to 0x0B). -/
def isExpander : Instr → Bool
  | .init | .setdir _ _ | .setpdir _ _ | .setlvl _ _ | .setplvl _ _ | .getlvl _ => true
  | .getplvl | .getout | .getcfg | .toggle _ | .rdcache => true
  | .eclr | .eadd _ | .ethr _ | .eper _ | .estart | .estop | .etick | .epop | .estat => false

/-- The commands that write a chip register (20_memory.md rule R71). -/
def writesChip : Instr → Bool
  | .init | .setdir _ _ | .setpdir _ _ | .setlvl _ _ | .setplvl _ _ | .toggle _ => true
  | .getlvl _ | .getplvl | .getout | .getcfg | .rdcache => false
  | .eclr | .eadd _ | .ethr _ | .eper _ | .estart | .estop | .etick | .epop | .estat => false

/-- Transactions of a command when all succeed (70_reset_and_hazards.md rule R302). -/
def transactionCount (c : Config) : Instr → Nat
  | .init => 6
  | .setdir _ _ | .setlvl _ _ | .toggle _ =>
    match c.rmwSource with
    | .hardware => 3
    | .cache => 1
  | .setpdir _ _ | .setplvl _ _ => 2
  | .getlvl _ => 2
  | .getplvl | .getout | .getcfg | .etick => bulkCount c
  | .rdcache | .eclr | .eadd _ | .ethr _ | .eper _ | .estart | .estop | .epop | .estat => 0

/-- The same outcome with the engine's state replaced. -/
def outcomeWithEngine (g : Engine) : Host.Outcome State Fault Refusal → Host.Outcome State Fault Refusal
  | .next t => .next { t with eng := g }
  | .fault f => .fault f
  | .refused r => .refused r

end Sys2Proof.Machine
end

