-- ==== Sys2Proof/Certificates/Slice0/Obligations.lean ====
section
/-! DEFINITION. The statements for the provers. Each names the rule or section of spec/ it rests on. A statement about a command's next state gives that state as a record: every field it does not name is that of `s`. -/
open Sys2Proof Sys2Proof.Machine

/-! ### Encoding (30_encoding.md) -/

/-- Decoding the encoding of any command gives the command back, every operand at every value (30_encoding.md rules R90 to R94). -/
def Obligations.DecodeOfEncodeIsIdentity : Prop := ∀ i : Instr, decode (encode i) = some i

/-- A word that decodes is the encoding of what it decodes to: no bit of it is dropped, and two words never mean one
command (30_encoding.md rules R91, R92). -/
def Obligations.DecodedWordIsTheEncoding : Prop := ∀ (w : Word) (i : Instr), decode w = some i → encode i = w

/-- The rejected words are those with a reserved opcode (0x00, 0x0C to 0x1F, 0x29 to 0xFF) or, under an opcode of the
map, a must-be-zero bit that is one; writing one ends with `IllegalCommand` and changes nothing but `STATUS` and
`RES0`..`RES3` (30_encoding.md rule R95, 60_exceptions.md rule R243). -/
def Obligations.RejectedWordsRaiseIllegalCommand : Prop :=
  ∀ w : Word,
    (decode w = none ↔
      ((fieldOpc w).toNat = 0x00 ∨ (0x0C ≤ (fieldOpc w).toNat ∧ (fieldOpc w).toNat ≤ 0x1F) ∨ 0x29 ≤ (fieldOpc w).toNat) ∨
      ∃ m : Mnemonic, opcodeOf m = fieldOpc w ∧
        ∃ j : Nat, j < 24 ∧ w.getLsbD j = true ∧ (maskFree m.format).getLsbD j = false) ∧
    ∀ s : State, decode w = none → runWord w s = .next { s with host := errRegs 0x05 0x00 }

/-- The words of the table of examples (30_encoding.md section 5), written out from the spec: each encodes and decodes as its
row says, and the last row is illegal. -/
def Obligations.EncodingExamples : Prop :=
  (∀ r ∈ ([(.init, 0x01000000), (.setdir 3 false, 0x02030000), (.setdir 9 true, 0x02090100),
      (.setpdir 0xFF 0x0F, 0x03FF0F00), (.setlvl 3 true, 0x04030100), (.setplvl 0x00 0x80, 0x05008000),
      (.getlvl 12, 0x060C0000), (.getplvl, 0x07000000), (.getout, 0x08000000), (.getcfg, 0x09000000),
      (.toggle 15, 0x0A0F0000), (.rdcache, 0x0B000000), (.eclr, 0x20000000), (.eadd 9, 0x21090000),
      (.ethr 1000, 0x220003E8), (.eper 50, 0x23000032), (.estart, 0x24000000), (.estop, 0x25000000),
      (.etick, 0x26000000), (.epop, 0x27000000), (.estat, 0x28000000), (.setdir 16 true, 0x02100100)] :
      List (Instr × Word)), decode r.2 = some r.1 ∧ encode r.1 = r.2) ∧
  decode 0x02030200 = none

/-- The assembly lines that assemble, each with its command, and no others: a line of another format, with a word of another
command, with a word where a number stands, with an operand too few or too many, or with a number that does not fit its field, is an
assembly error (30_encoding.md section 4). -/
def Obligations.AssemblyLinesAssemble : Prop :=
  ∀ (m : Mnemonic) (ops : List AsmOperand) (i : Instr), assembleLine ⟨m, ops⟩ = some i ↔
    let bare (c : Instr) : Prop := ops = [] ∧ i = c
    let onPin (c : Byte → Instr) : Prop := ∃ n : Nat, n ≤ 255 ∧ ops = [.num n] ∧ i = c (BitVec.ofNat 8 n)
    let pinAndBit (c : Byte → Bool → Instr) (bit1 bit0 : AsmOperand) : Prop :=
      ∃ (n : Nat) (v : AsmOperand), n ≤ 255 ∧ ops = [.num n, v] ∧
        ((v = bit1 ∨ v = .num 1) ∧ i = c (BitVec.ofNat 8 n) true ∨ (v = bit0 ∨ v = .num 0) ∧ i = c (BitVec.ofNat 8 n) false)
    let masks (c : Byte → Byte → Instr) : Prop :=
      ∃ a b : Nat, a ≤ 255 ∧ b ≤ 255 ∧ ops = [.num a, .num b] ∧ i = c (BitVec.ofNat 8 a) (BitVec.ofNat 8 b)
    let millis (c : Millis24 → Instr) : Prop := ∃ n : Nat, n ≤ 16777215 ∧ ops = [.num n] ∧ i = c (BitVec.ofNat 24 n)
    match m with
    | .init => bare .init
    | .setdir => pinAndBit .setdir .kwIn .kwOut
    | .setpdir => masks .setpdir
    | .setlvl => pinAndBit .setlvl .kwHi .kwLo
    | .setplvl => masks .setplvl
    | .getlvl => onPin .getlvl
    | .getplvl => bare .getplvl
    | .getout => bare .getout
    | .getcfg => bare .getcfg
    | .toggle => onPin .toggle
    | .rdcache => bare .rdcache
    | .eclr => bare .eclr
    | .eadd => onPin .eadd
    | .ethr => millis .ethr
    | .eper => millis .eper
    | .estart => bare .estart
    | .estop => bare .estop
    | .etick => bare .etick
    | .epop => bare .epop
    | .estat => bare .estat

/-- The pseudo-commands' expansions, and how an expansion runs: on past each command that ends with `ERR` = OK, stopping
after the first that does not, its state kept (30_encoding.md rule R98). Any moves of the poll timer may come between two commands;
they write no host register (43_engine_tick.md rule R227); no reset and no other host access comes there (the form of `runExpansion`, log entry 21). -/
def Obligations.PseudoCommandsExpand : Prop :=
  (∀ pin level : AsmOperand,
    expandStatement (.mkout pin level) = [⟨.setlvl, [pin, level]⟩, ⟨.setdir, [pin, .kwOut]⟩]) ∧
  (∀ pin : AsmOperand, expandStatement (.mkin pin) = [⟨.setdir, [pin, .kwIn]⟩]) ∧
  assembleStatement .allin = some [.setpdir 0xFF 0xFF] ∧
  assembleStatement .pop = some [.epop] ∧
  (∀ pins : List Nat, (∀ n ∈ pins, n ≤ 255) →
    assembleStatement (.watch (pins.map .num)) =
      if 1 ≤ pins.length ∧ pins.length ≤ 16 then
        some (.eclr :: pins.map (fun n => .eadd (BitVec.ofNat 8 n)) ++ [.estart]) else none) ∧
  (∀ s : State, runExpansion [] s = .next s) ∧
  (∀ (moves : List TimerMove) (s : State), (timerMoves moves s).host = s.host) ∧
  ∀ (i : Instr) (moves : List TimerMove) (is : List (Instr × List TimerMove)) (s t : State), exec i s = .next t →
    runExpansion ((i, moves) :: is) s = if t.host.err = 0x00 then runExpansion is (timerMoves moves t) else .next t

/-! ### Steps and agents (60_exceptions.md, 70_reset_and_hazards.md) -/

/-- Under a well-formed configuration, a step whose next move is a whole-word write to `CMD` is the command the word decodes
to, run on the state with that move taken; a word that does not decode is an illegal command. Log entry 1 says where
the next command comes from. -/
def Obligations.StepRunsTheDecodedCommand : Prop :=
  ∀ (s : State) (w : Word) (rest : List Action), configWf s.cfg = true → s.env.agenda = .cmdWrite w :: rest →
    (∀ i : Instr, decode w = some i → step s = exec i { s with env := { s.env with agenda := rest } }) ∧
    (decode w = none → step s = .next { s with
      host := errRegs 0x05 0x00, env := { s.env with agenda := rest } })

/-- The model stops exactly as the spec's list of model faults says: a cache read-modify-write of an unwritten register, also when
a reset cuts it short after its cache read (n is not 0, log entry 7), a partial write to `CMD`, an ill-formed configuration
(60_exceptions.md rule R253; that 0xFF has no next sub-address is the model's reading, log entry 9); and in no other case: under a
well-formed configuration every step answers a next state whose move is none of these (rules R248, R253). -/
def Obligations.ModelStopsExactlyAsListed : Prop :=
  (∀ (i : Instr) (s : State),
    (ReadsUnwrittenCache i s → exec i s = .fault .cacheUnwritten) ∧
    (¬ ReadsUnwrittenCache i s → ∃ t : State, exec i s = .next t)) ∧
  (∀ (s : State) (w : Word) (i : Instr) (n : Nat) (rest : List Action), configWf s.cfg = true →
    decode w = some i → ReadsUnwrittenCache i s →
    s.env.agenda = .cmdWrite w :: rest ∨ (s.env.agenda = .resetDuring (.command w) n :: rest ∧ n ≠ 0) →
    step s = .fault .cacheUnwritten) ∧
  (∀ (s : State) (bytes : List Byte) (rest : List Action), configWf s.cfg = true →
    s.env.agenda = .cmdPartialWrite bytes :: rest → step s = .refused .partialCmdWrite) ∧
  (∀ s : State,
    ¬ [s.cfg.subIn0, s.cfg.subIn1, s.cfg.subOut0, s.cfg.subOut1, s.cfg.subCfg0, s.cfg.subCfg1].Nodup ∨
      (s.cfg.bulkMode = .pair ∧
        ¬ (s.cfg.subIn1.toNat = s.cfg.subIn0.toNat + 1 ∧ s.cfg.subOut1.toNat = s.cfg.subOut0.toNat + 1 ∧
          s.cfg.subCfg1.toNat = s.cfg.subCfg0.toNat + 1)) →
    step s = .refused .illFormedConfig) ∧
  (∀ s : State, configWf s.cfg = true → (∀ bytes rest, s.env.agenda ≠ .cmdPartialWrite bytes :: rest) →
    (∀ w n rest i,
      s.env.agenda = .cmdWrite w :: rest ∨ (s.env.agenda = .resetDuring (.command w) n :: rest ∧ n ≠ 0) →
      decode w = some i → ¬ ReadsUnwrittenCache i s) →
    ∃ t : State, step s = .next t)

/-- Reset puts every state element at the value of the table of 10_state.md section 4, at power-on and at the reset input, whatever
the state was, and issues no bus transaction (70_reset_and_hazards.md rule R280). -/
def Obligations.ResetSetsEveryElement : Prop :=
  let atReset (t : State) : Prop :=
    t.host.err = 0x00 ∧ t.host.terr = 0x00 ∧
    t.host.res0 = 0 ∧ t.host.res1 = 0 ∧ t.host.res2 = 0 ∧ t.host.res3 = 0 ∧
    (∀ p : Port, t.exp.cacheDir.get p = 0x00 ∧ t.exp.cacheOut.get p = 0x00 ∧ t.exp.dirValid.get p = false ∧
      t.exp.outValid.get p = false ∧ t.exp.lastIn.get p = 0x00 ∧ t.exp.lastInValid.get p = false) ∧
    t.exp.initDone = false ∧ t.eng.running = false ∧ t.eng.chCount = 0 ∧
    (∀ k : Fin 16, t.eng.ch[k].pin = 0 ∧ t.eng.ch[k].life = .released ∧ t.eng.ch[k].pressStart = 0 ∧
      t.eng.ch[k].longEmitted = false ∧ t.eng.ch[k].prev = true) ∧
    t.eng.lpThr = 1000 ∧ t.eng.pollMs = 50 ∧ t.eng.evq = [] ∧ t.eng.evqOvf = false ∧
    t.eng.lastTickErr = 0 ∧ t.eng.lastTickTerr = 0
  (atReset State.reset ∧ State.reset.env.busLog = []) ∧
  ∀ (s : State) (rest : List Action), configWf s.cfg = true → s.env.agenda = .reset :: rest →
    ∃ t : State, step s = .next t ∧ atReset t ∧ t.env.busLog = s.env.busLog ∧ t.cfg = s.cfg

/-- After reset the block is idle (70_reset_and_hazards.md section 1, R281): a step with no agent's move changes nothing, so the
block issues nothing by itself. That an empty agenda is an idle step is the model's choice, log entry 1. -/
def Obligations.IdleAfterReset : Prop :=
  step State.reset = .next State.reset ∧
  ∀ s : State, configWf s.cfg = true → s.env.agenda = [] → step s = .next s

/-- A reset while a command or a tick runs leaves the reset values, and on the bus the first n transactions that the operation
would have issued, or all of them when it issues fewer (70_reset_and_hazards.md rule R282; that n is in the agenda's move is the
model's form, log entry 7). With n = 0 no transaction is issued, whatever the operation. A command that reads an unwritten cache
register does so before its first transaction: cut short after that, it is still the model fault. -/
def Obligations.ResetDuringAnOperation : Prop :=
  ∀ (s : State) (op : Operation) (n : Nat) (rest : List Action), configWf s.cfg = true →
    s.env.agenda = .resetDuring op n :: rest →
    let s' : State := { s with env := { s.env with agenda := rest } }
    let resetWith (evs : List BusEvent) : Prop := ∃ t : State, step s = .next t ∧
      t.host = HostRegs.reset ∧ t.exp = Expander.reset ∧ t.eng = Engine.reset ∧ t.cfg = s.cfg ∧
      t.env.agenda = rest ∧ t.env.busLog = s.env.busLog ++ evs
    (∀ u : State, operationOutcome op s' = .next u →
      ∃ evs : List BusEvent, u.env.busLog = s.env.busLog ++ evs ∧ resetWith (evs.take n)) ∧
    (n = 0 → resetWith []) ∧
    (∀ (w : Word) (i : Instr), op = .command w → decode w = some i → ReadsUnwrittenCache i s → n ≠ 0 →
      step s = .fault .cacheUnwritten)

/-- A host read of `CMD` returns 0, of `STATUS` its two fields, of a result register its value, and changes nothing of the
block (10_state.md rules R20, R22, R23; `hostData` is the model's own field, log entry 6). -/
def Obligations.HostReads : Prop :=
  ∀ (s : State) (r : HostReg) (rest : List Action), configWf s.cfg = true → s.env.agenda = .hostRead r :: rest →
    ∃ v : Word, step s = .next { s with env := { s.env with agenda := rest, hostData := v } } ∧
      (r = .cmd → v = 0) ∧ (r = .res0 → v = s.host.res0) ∧ (r = .res1 → v = s.host.res1) ∧
      (r = .res2 → v = s.host.res2) ∧ (r = .res3 → v = s.host.res3) ∧
      (r = .status → v.extractLsb' 0 8 = s.host.err ∧ v.extractLsb' 8 8 = s.host.terr ∧ v.extractLsb' 16 16 = 0)

/-- The poll timer (60_exceptions.md section 3): a request is kept only while `RUNNING` = 1 and `POLL_MS` ≠ 0, and merges with a
pending one; a pending request whose turn comes then is one tick, otherwise it is dropped; with none pending nothing happens.
That the pending request is a bit, and that it is dropped also when `POLL_MS` = 0, are the model's (log entry 8). -/
def Obligations.PollTimerTicksOnlyWhileRunning : Prop :=
  ∀ s : State,
    (s.eng.running = true ∧ s.eng.pollMs ≠ 0 →
      act .timerRequest s = .next { s with eng := { s.eng with tickPending := true } }) ∧
    (s.eng.running = false ∨ s.eng.pollMs = 0 → act .timerRequest s = .next s) ∧
    (s.eng.tickPending = false → act .timerTurn s = .next s) ∧
    (s.eng.tickPending = true → s.eng.running = false ∨ s.eng.pollMs = 0 →
      act .timerTurn s = .next { s with eng := { s.eng with tickPending := false } }) ∧
    (s.eng.tickPending = true → s.eng.running = true → s.eng.pollMs ≠ 0 →
      act .timerTurn s = .next (tick { s with eng := { s.eng with tickPending := false } }).state)

/-! ### Errors reported before any effect (60_exceptions.md) -/

/-- `InvalidPin`: a pin operand of 16 or more is refused before any bus activity and before any state is written, with
`TERR` = 0 (60_exceptions.md rule R241). EADD checks the engine's state first (rule R247). -/
def Obligations.InvalidPinWritesNothing : Prop :=
  ∀ (s : State) (pin : Byte) (b : Bool), 16 ≤ pin.toNat →
    exec (.setdir pin b) s = .next { s with host := errRegs 0x03 0x00 } ∧
    exec (.setlvl pin b) s = .next { s with host := errRegs 0x03 0x00 } ∧
    exec (.getlvl pin) s = .next { s with host := errRegs 0x03 0x00 } ∧
    exec (.toggle pin) s = .next { s with host := errRegs 0x03 0x00 } ∧
    (s.eng.running = false → exec (.eadd pin) s = .next { s with host := errRegs 0x03 0x00 })

/-- `EngineRunning`: while the engine runs INIT, ECLR, EADD, ETHR and ESTART are refused and write nothing, whatever their
operands; no other command reports it, so pin-level commands remain allowed (60_exceptions.md rule R244). -/
def Obligations.EngineRunningRefusesConfiguration : Prop :=
  (∀ (s : State) (pin : Byte) (ms : Millis24), s.eng.running = true →
    exec .init s = .next { s with host := errRegs 0x06 0x00 } ∧
    exec .eclr s = .next { s with host := errRegs 0x06 0x00 } ∧
    exec (.eadd pin) s = .next { s with host := errRegs 0x06 0x00 } ∧
    exec (.ethr ms) s = .next { s with host := errRegs 0x06 0x00 } ∧
    exec .estart s = .next { s with host := errRegs 0x06 0x00 }) ∧
  (∀ (i : Instr) (s t : State), exec i s = .next t → t.host.err = 0x06 →
    s.eng.running = true ∧
      (i = .init ∨ i = .eclr ∨ (∃ pin, i = .eadd pin) ∨ (∃ ms, i = .ethr ms) ∨ i = .estart))

/-- `EngineNotRunning` from ETICK while stopped and `QueueEmpty` from EPOP on an empty queue: nothing else is written, and
`TERR` = 0 (60_exceptions.md rule R245). -/
def Obligations.NotRunningAndQueueEmpty : Prop :=
  (∀ s : State, s.eng.running = false → exec .etick s = .next { s with host := errRegs 0x07 0x00 }) ∧
  (∀ s : State, s.eng.evq = [] → exec .epop s = .next { s with host := errRegs 0x08 0x00 })

/-- `InvalidChannelConfig`: EADD raises it when the table is full or the pin is already a channel, ESTART when `INIT_DONE` = 0, when
there is no channel, or when some channel's pin is not a valid input in the cache; no other command does. The checks of rule R247
come first. It is raised before any bus activity and records nothing (60_exceptions.md rule R252). -/
def Obligations.InvalidChannelConfigOnlyFromSetup : Prop :=
  ∀ (i : Instr) (s t : State), exec i s = .next t →
    (t.host.err = 0x04 ↔ s.eng.running = false ∧
      ((∃ pin : Byte, i = .eadd pin ∧ pin.toNat < 16 ∧
          (s.eng.chCount.val = 16 ∨ ∃ k : Fin 16, k.val < s.eng.chCount.val ∧ s.eng.ch[k].pin.toNat = pin.toNat)) ∨
        (i = .estart ∧ (s.exp.initDone = false ∨ s.eng.chCount.val = 0 ∨
          ∃ k : Fin 16, k.val < s.eng.chCount.val ∧
            (s.exp.dirValid.get (portOf s.eng.ch[k].pin.toNat) = false ∨
              (s.exp.cacheDir.get (portOf s.eng.ch[k].pin.toNat)).getLsbD (s.eng.ch[k].pin.toNat % 8) = false))))) ∧
    (t.host.err = 0x04 → t = { s with host := errRegs 0x04 0x00 })

/-- The report of any command: `TERR` is the code of the kind that the first failed transaction returned when `ERR` is BusError or
ChipNotFound (Nack 1, Timeout 2, ArbitrationLost 3, Other 4), and 0 for every other `ERR`; a command that fails leaves `RES0`..`RES3` at 0 (60_exceptions.md rule R242;
10_state.md rule R23). -/
def Obligations.CommandReportIsConsistent : Prop :=
  ∀ (i : Instr) (s t : State), exec i s = .next t →
    t.host.err.toNat ≤ 8 ∧
    (t.host.err = 0x01 ∨ t.host.err = 0x02 →
      ∃ (evs : List BusEvent) (ev : BusEvent) (k : TransportErrorKind), t.env.busLog = s.env.busLog ++ evs ++ [ev] ∧
        evs.all eventOk = true ∧ failedKind ev = some k ∧ t.host.terr = kindCode k ∧
        (k = .nack → t.host.terr = 0x01) ∧ (k = .timeout → t.host.terr = 0x02) ∧
        (k = .arbitrationLost → t.host.terr = 0x03) ∧ (k = .other → t.host.terr = 0x04)) ∧
    (t.host.err ≠ 0x01 → t.host.err ≠ 0x02 → t.host.terr = 0) ∧
    (t.host.err ≠ 0x00 → t.host.res0 = 0 ∧ t.host.res1 = 0 ∧ t.host.res2 = 0 ∧ t.host.res3 = 0)

/-! ### INIT (41_expander.md rule R140) -/

/-- INIT in every case (41_expander.md rule R140). Running: refused. Every transaction `Ok`: the probe, then CFG0, CFG1, OUT0, OUT1
in that order; every pin an input and every output low in the cache, all valid, and `INIT_DONE` = 1. Transaction j the first to
fail: `ChipNotFound` for the probe's two, else `BusError`; nothing is issued after it; the registers written before it are cached
and valid, the others as they were, and `INIT_DONE` = 0. -/
def Obligations.InitInEveryCase : Prop :=
  ∀ s : State,
    (s.eng.running = true → exec .init s = .next { s with host := errRegs 0x06 0x00 }) ∧
    (s.eng.running = false → allOk 6 s = true →
      exec .init s = .next { s with
        host := okRegs 0 0 0 0
        exp := { s.exp with
          cacheDir := ⟨0xFF, 0xFF⟩, cacheOut := ⟨0x00, 0x00⟩
          dirValid := ⟨true, true⟩, outValid := ⟨true, true⟩, initDone := true }
        env := afterBus [evPoint s.cfg .input .p0, evRead1 s.cfg (byte0 (upcoming s 1)),
          evStore s.cfg .cfg .p0 0xFF, evStore s.cfg .cfg .p1 0xFF,
          evStore s.cfg .out .p0 0x00, evStore s.cfg .out .p1 0x00] s }) ∧
    (∀ (j : Nat) (k : TransportErrorKind), s.eng.running = false → j < 6 → failsAt j k s = true →
        exec .init s = .next { s with
          host := errRegs (if j < 2 then 0x02 else 0x01) (kindCode k)
          exp := { s.exp with
            initDone := false
            cacheDir := ⟨if 3 ≤ j then 0xFF else s.exp.cacheDir.p0, if 4 ≤ j then 0xFF else s.exp.cacheDir.p1⟩
            dirValid := ⟨if 3 ≤ j then true else s.exp.dirValid.p0, if 4 ≤ j then true else s.exp.dirValid.p1⟩
            cacheOut := ⟨if 5 ≤ j then 0x00 else s.exp.cacheOut.p0, s.exp.cacheOut.p1⟩
            outValid := ⟨if 5 ≤ j then true else s.exp.outValid.p0, s.exp.outValid.p1⟩ }
          env := afterBus (cutAt j k [evPoint s.cfg .input .p0, evRead1 s.cfg (byte0 (upcoming s 1)),
            evStore s.cfg .cfg .p0 0xFF, evStore s.cfg .cfg .p1 0xFF,
            evStore s.cfg .out .p0 0x00, evStore s.cfg .out .p1 0x00]) s })

/-- INIT whose presence probe fails: `ChipNotFound` with the transport kind, `INIT_DONE` = 0 and nothing else changed, no chip
register written; no other command and no later failure reports it (60_exceptions.md rule R251). -/
def Obligations.ChipNotFoundOnlyFromTheProbe : Prop :=
  (∀ (s : State) (j : Nat) (k : TransportErrorKind), s.eng.running = false → j < 2 → failsAt j k s = true →
    let evs := cutAt j k [evPoint s.cfg .input .p0, evRead1 s.cfg (byte0 (upcoming s 1))]
    (∀ ev ∈ evs, ∀ dev a v failed, ev ≠ .write dev [a, v] failed) ∧
      exec .init s = .next { s with
        host := errRegs 0x02 (kindCode k), exp := { s.exp with initDone := false }, env := afterBus evs s }) ∧
  (∀ (i : Instr) (s t : State), exec i s = .next t → t.host.err = 0x02 →
    i = .init ∧ ∃ j k, j < 2 ∧ failsAt j k s = true)

/-! ### SETDIR, SETLVL, TOGGLE (41_expander.md rules R141, R143, R150) -/

/-- SETDIR in every case: a pin of 16 or more, a read-modify-write through the chip and through the cache, a failed transaction, an
unwritten cache register (41_expander.md rule R141; `PinCommandCases` says each). -/
def Obligations.SetdirInEveryCase : Prop :=
  ∀ (s : State) (pin : Byte) (dir : Bool), PinCommandCases (.setdir pin dir) .cfg pin (fun _ => dir) s

/-- SETLVL in every case, whatever the pin's direction (41_expander.md rule R143). -/
def Obligations.SetlvlInEveryCase : Prop :=
  ∀ (s : State) (pin : Byte) (level : Bool), PinCommandCases (.setlvl pin level) .out pin (fun _ => level) s

/-- TOGGLE in every case; and two of them on one pin with no other write between restore the register: the cached value under
Cache, the value the chip returned first under Hardware, when it returns the second time what the first wrote
(41_expander.md rule R150). -/
def Obligations.ToggleInEveryCase : Prop :=
  (∀ (s : State) (pin : Byte), PinCommandCases (.toggle pin) .out pin (fun old => !old) s) ∧
  ∀ (s t u : State) (pin : Byte), pin.toNat < 16 →
    exec (.toggle pin) s = .next t → exec (.toggle pin) t = .next u → t.host.err = 0x00 → u.host.err = 0x00 →
    (s.cfg.rmwSource = .cache → u.exp.cacheOut.get (portOf pin.toNat) = s.exp.cacheOut.get (portOf pin.toNat)) ∧
    (s.cfg.rmwSource = .hardware → byte0 (upcoming s 4) = t.exp.cacheOut.get (portOf pin.toNat) →
      u.exp.cacheOut.get (portOf pin.toNat) = byte0 (upcoming s 1))

/-! ### SETPDIR, SETPLVL (41_expander.md rules R142, R144) -/

/-- SETPDIR overwrites both direction registers with no read before the write, port 0 first; when port 1's write fails port 0
stays changed, and when port 0's fails nothing is changed and port 1 is not written (41_expander.md rule R142). -/
def Obligations.SetpdirOverwritesBothPorts : Prop :=
  ∀ (s : State) (m0 m1 : Byte) (k : TransportErrorKind),
    (allOk 2 s = true → exec (.setpdir m0 m1) s = .next { s with
      host := okRegs 0 0 0 0
      exp := { s.exp with cacheDir := ⟨m0, m1⟩, dirValid := ⟨true, true⟩ }
      env := afterBus [evStore s.cfg .cfg .p0 m0, evStore s.cfg .cfg .p1 m1] s }) ∧
    (failsAt 0 k s = true → exec (.setpdir m0 m1) s = .next { s with
      host := errRegs 0x01 (kindCode k)
      env := afterBus [.write s.cfg.devAddr [s.cfg.subCfg0, m0] (some k)] s }) ∧
    (failsAt 1 k s = true → exec (.setpdir m0 m1) s = .next { s with
      host := errRegs 0x01 (kindCode k)
      exp := { s.exp with cacheDir := { s.exp.cacheDir with p0 := m0 }, dirValid := { s.exp.dirValid with p0 := true } }
      env := afterBus [evStore s.cfg .cfg .p0 m0, .write s.cfg.devAddr [s.cfg.subCfg1, m1] (some k)] s })

/-- SETPLVL overwrites both output registers in the same way, and issued twice it writes and caches the same values as issued once
(41_expander.md rule R144). -/
def Obligations.SetplvlOverwritesBothPorts : Prop :=
  ∀ (s : State) (m0 m1 : Byte) (k : TransportErrorKind),
    (allOk 2 s = true → exec (.setplvl m0 m1) s = .next { s with
      host := okRegs 0 0 0 0
      exp := { s.exp with cacheOut := ⟨m0, m1⟩, outValid := ⟨true, true⟩ }
      env := afterBus [evStore s.cfg .out .p0 m0, evStore s.cfg .out .p1 m1] s }) ∧
    (failsAt 0 k s = true → exec (.setplvl m0 m1) s = .next { s with
      host := errRegs 0x01 (kindCode k)
      env := afterBus [.write s.cfg.devAddr [s.cfg.subOut0, m0] (some k)] s }) ∧
    (failsAt 1 k s = true → exec (.setplvl m0 m1) s = .next { s with
      host := errRegs 0x01 (kindCode k)
      exp := { s.exp with cacheOut := { s.exp.cacheOut with p0 := m0 }, outValid := { s.exp.outValid with p0 := true } }
      env := afterBus [evStore s.cfg .out .p0 m0, .write s.cfg.devAddr [s.cfg.subOut1, m1] (some k)] s }) ∧
    (allOk 4 s = true → ∃ t u : State, exec (.setplvl m0 m1) s = .next t ∧ exec (.setplvl m0 m1) t = .next u ∧
      t.exp.cacheOut = ⟨m0, m1⟩ ∧ u.exp = t.exp ∧
      u.env = afterBus [evStore s.cfg .out .p0 m0, evStore s.cfg .out .p1 m1] t)

/-! ### GETLVL, GETPLVL, GETOUT, GETCFG, RDCACHE (41_expander.md rules R145 to R149, R152) -/

/-- GETLVL reads the pin's input register fresh, records the byte in `LAST_IN` and returns the pin's bit; when a transaction
fails it ends with `BusError` and records nothing; a pin of 16 or more is `InvalidPin` (41_expander.md rule R145). -/
def Obligations.GetlvlReadsThePin : Prop :=
  ∀ (s : State) (pin : Byte),
    (16 ≤ pin.toNat → exec (.getlvl pin) s = .next { s with host := errRegs 0x03 0x00 }) ∧
    (pin.toNat < 16 → allOk 2 s = true →
      let p := portOf pin.toNat
      let b := byte0 (upcoming s 1)
      exec (.getlvl pin) s = .next { s with
        host := okRegs (if b.getLsbD (pin.toNat % 8) then 1 else 0) 0 0 0
        exp := { s.exp with lastIn := s.exp.lastIn.set p b, lastInValid := s.exp.lastInValid.set p true }
        env := afterBus [evPoint s.cfg .input p, evRead1 s.cfg b] s }) ∧
    (∀ (j : Nat) (k : TransportErrorKind), pin.toNat < 16 → j < 2 → failsAt j k s = true →
      exec (.getlvl pin) s = .next { s with
        host := errRegs 0x01 (kindCode k)
        env := afterBus (cutAt j k
          [evPoint s.cfg .input (portOf pin.toNat), evRead1 s.cfg (byte0 (upcoming s 1))]) s })

/-- GETPLVL, GETOUT and GETCFG in either bulk mode: `RES0` holds port 0's byte in [7:0] and port 1's in [15:8]; GETPLVL also
records both in `LAST_IN`; nothing else is written, the cache included. When transaction j fails they end with `BusError` and
change nothing: in `Split` mode a failure of the second read discards the first byte (41_expander.md rules R146 to R149). -/
def Obligations.BulkReadsReturnBothPorts : Prop :=
  ∀ s : State,
    (allOk (bulkCount s.cfg) s = true →
      exec .getplvl s = .next { s with
        host := okRegs (((bulkData s).2 ++ (bulkData s).1).setWidth 32) 0 0 0
        exp := { s.exp with lastIn := ⟨(bulkData s).1, (bulkData s).2⟩, lastInValid := ⟨true, true⟩ }
        env := afterBus (bulkEvents .input s) s } ∧
      exec .getout s = .next { s with
        host := okRegs (((bulkData s).2 ++ (bulkData s).1).setWidth 32) 0 0 0
        env := afterBus (bulkEvents .output s) s } ∧
      exec .getcfg s = .next { s with
        host := okRegs (((bulkData s).2 ++ (bulkData s).1).setWidth 32) 0 0 0
        env := afterBus (bulkEvents .config s) s }) ∧
    (∀ (j : Nat) (k : TransportErrorKind), j < bulkCount s.cfg → failsAt j k s = true →
      exec .getplvl s = .next { s with
        host := errRegs 0x01 (kindCode k), env := afterBus (cutAt j k (bulkEvents .input s)) s } ∧
      exec .getout s = .next { s with
        host := errRegs 0x01 (kindCode k), env := afterBus (cutAt j k (bulkEvents .output s)) s } ∧
      exec .getcfg s = .next { s with
        host := errRegs 0x01 (kindCode k), env := afterBus (cutAt j k (bulkEvents .config s)) s })

/-- RDCACHE returns the Expander State Model's own state, field by field, with no bus activity (41_expander.md rule R152). -/
def Obligations.RdcacheReturnsTheCache : Prop :=
  ∀ s : State, ∃ r0 r1 r2 r3 : Word,
    exec .rdcache s = .next { s with host := okRegs r0 r1 r2 r3 } ∧
    r0.extractLsb' 0 8 = s.exp.cacheDir.p0 ∧ r0.extractLsb' 8 8 = s.exp.cacheDir.p1 ∧
    r0.extractLsb' 16 8 = s.exp.cacheOut.p0 ∧ r0.extractLsb' 24 8 = s.exp.cacheOut.p1 ∧
    r1.getLsbD 0 = s.exp.dirValid.p0 ∧ r1.getLsbD 1 = s.exp.dirValid.p1 ∧
    r1.getLsbD 2 = s.exp.outValid.p0 ∧ r1.getLsbD 3 = s.exp.outValid.p1 ∧
    r1.getLsbD 4 = s.exp.initDone ∧ r1.extractLsb' 5 27 = 0 ∧
    r2.extractLsb' 0 8 = s.exp.lastIn.p0 ∧ r2.extractLsb' 8 8 = s.exp.lastIn.p1 ∧ r2.extractLsb' 16 16 = 0 ∧
    r3.getLsbD 0 = s.exp.lastInValid.p0 ∧ r3.getLsbD 1 = s.exp.lastInValid.p1 ∧ r3.extractLsb' 2 30 = 0

/-! ### Engine control (42_engine_control.md) -/

/-- ECLR empties the table and puts every entry's engine state at rest, its pin kept; the queue is not touched; refused while running
(42_engine_control.md rule R180). -/
def Obligations.EclrEmptiesTheTable : Prop :=
  ∀ s : State,
    (s.eng.running = true → exec .eclr s = .next { s with host := errRegs 0x06 0x00 }) ∧
    (s.eng.running = false →
      ∃ ch : Vector Channel 16,
        (∀ k : Fin 16, ch[k] = ⟨s.eng.ch[k].pin, .released, 0, false, true⟩) ∧
        exec .eclr s = .next { s with host := okRegs 0 0 0 0, eng := { s.eng with chCount := 0, ch := ch } })

/-- EADD: refused while running; then `InvalidPin` for a pin of 16 or more; then `InvalidChannelConfig` for a full table or a pin
that is already a channel; none of these writes anything. Otherwise the pin is appended at index `CH_COUNT`
(42_engine_control.md rule R181). -/
def Obligations.EaddAppendsAChannel : Prop :=
  ∀ (s : State) (pin : Byte),
    (s.eng.running = true → exec (.eadd pin) s = .next { s with host := errRegs 0x06 0x00 }) ∧
    (s.eng.running = false → 16 ≤ pin.toNat → exec (.eadd pin) s = .next { s with host := errRegs 0x03 0x00 }) ∧
    (s.eng.running = false → pin.toNat < 16 →
      s.eng.chCount.val = 16 ∨ (∃ k : Fin 16, k.val < s.eng.chCount.val ∧ s.eng.ch[k].pin.toNat = pin.toNat) →
      exec (.eadd pin) s = .next { s with host := errRegs 0x04 0x00 }) ∧
    (s.eng.running = false → pin.toNat < 16 →
      s.eng.chCount.val < 16 → (∀ k : Fin 16, k.val < s.eng.chCount.val → s.eng.ch[k].pin.toNat ≠ pin.toNat) →
      ∃ (n : Fin 17) (ch : Vector Channel 16), n.val = s.eng.chCount.val + 1 ∧
        (∀ k : Fin 16, ch[k] =
          if k.val = s.eng.chCount.val then { s.eng.ch[k] with pin := BitVec.ofNat 4 pin.toNat } else s.eng.ch[k]) ∧
        exec (.eadd pin) s = .next { s with
          host := okRegs 0 0 0 0, eng := { s.eng with chCount := n, ch := ch } })

/-- ETHR sets the long-press threshold, 0 included, and is refused while running. EPER sets the polling period, running or not; the
period 0 turns the poll timer off, and no period changes what a tick computes (42_engine_control.md rules R182, R183). -/
def Obligations.ThresholdAndPeriodAreSet : Prop :=
  ∀ (s : State) (ms : Millis24),
    (s.eng.running = true → exec (.ethr ms) s = .next { s with host := errRegs 0x06 0x00 }) ∧
    (s.eng.running = false →
      exec (.ethr ms) s = .next { s with host := okRegs 0 0 0 0, eng := { s.eng with lpThr := ms } }) ∧
    exec (.eper ms) s = .next { s with host := okRegs 0 0 0 0, eng := { s.eng with pollMs := ms } } ∧
    timerMayTick { s.eng with pollMs := 0 } = false ∧
    ∀ (now : Word) (snap : PinMask),
      tickEngine now snap { s.eng with pollMs := ms } = { tickEngine now snap s.eng with pollMs := ms }

/-- ESTART: refused while running; else it starts when `INIT_DONE` = 1, there is a channel, and every channel's pin is valid and an
input in the cache; otherwise `InvalidChannelConfig` with nothing changed (42_engine_control.md rule R184). -/
def Obligations.EstartValidatesAndStarts : Prop :=
  ∀ s : State,
    let ready : Prop := s.exp.initDone = true ∧ 0 < s.eng.chCount.val ∧
      ∀ k : Fin 16, k.val < s.eng.chCount.val →
        s.exp.dirValid.get (portOf s.eng.ch[k].pin.toNat) = true ∧
        (s.exp.cacheDir.get (portOf s.eng.ch[k].pin.toNat)).getLsbD (s.eng.ch[k].pin.toNat % 8) = true
    (s.eng.running = true → exec .estart s = .next { s with host := errRegs 0x06 0x00 }) ∧
    (s.eng.running = false → ready → ∃ ch : Vector Channel 16,
      (∀ k : Fin 16, ch[k] = ⟨s.eng.ch[k].pin, .released, 0, false, true⟩) ∧
      exec .estart s = .next { s with
        host := okRegs 0 0 0 0
        eng := { s.eng with
          ch := ch, evqOvf := false, lastTickErr := 0, lastTickTerr := 0, running := true } }) ∧
    (s.eng.running = false → ¬ ready → exec .estart s = .next { s with host := errRegs 0x04 0x00 })

/-- ESTOP clears `RUNNING` and nothing else, and succeeds while stopped (42_engine_control.md rule R185). -/
def Obligations.EstopClearsRunning : Prop :=
  ∀ s : State, exec .estop s = .next { s with host := okRegs 0 0 0 0, eng := { s.eng with running := false } }

/-- ESTAT returns the engine's status, field by field, and clears nothing; a lifecycle is 0 for Released, 1 for Pressed, 2 for
LongPressed, and 0 past `CH_COUNT` (42_engine_control.md rule R186). -/
def Obligations.EstatReturnsTheStatus : Prop :=
  ∀ s : State, s.eng.evq.length ≤ 32 → ∃ r0 r1 r2 r3 : Word,
    exec .estat s = .next { s with host := okRegs r0 r1 r2 r3 } ∧
    (r0.extractLsb' 16 16).toNat = s.eng.evq.length ∧ (r0.extractLsb' 8 8).toNat = s.eng.chCount.val ∧
    r0.extractLsb' 2 6 = 0 ∧ r0.getLsbD 1 = s.eng.evqOvf ∧ r0.getLsbD 0 = s.eng.running ∧
    r1.extractLsb' 24 8 = s.eng.lastTickErr ∧ r1.extractLsb' 0 24 = s.eng.lpThr ∧
    r2.extractLsb' 24 8 = s.eng.lastTickTerr ∧ r2.extractLsb' 0 24 = s.eng.pollMs ∧
    ∀ k : Fin 16,
      (s.eng.chCount.val ≤ k.val ∨ s.eng.ch[k].life = .released → r3.extractLsb' (2 * k.val) 2 = 0) ∧
      (k.val < s.eng.chCount.val → s.eng.ch[k].life = .pressed → r3.extractLsb' (2 * k.val) 2 = 1) ∧
      (k.val < s.eng.chCount.val → s.eng.ch[k].life = .longPressed → r3.extractLsb' (2 * k.val) 2 = 2)

/-- EPOP removes the oldest event and returns its fields, whether or not the engine runs: the kind as Press 1, Release 2,
LongPress 3, Chord 4, the class as none 0, short 1, long 2; on an empty queue it ends with `QueueEmpty` (42_engine_control.md
rule R187). -/
def Obligations.EpopReturnsTheOldest : Prop :=
  ∀ s : State,
    (s.eng.evq = [] → exec .epop s = .next { s with host := errRegs 0x08 0x00 }) ∧
    ∀ (ev : Event) (rest : List Event), s.eng.evq = ev :: rest →
      ∃ r0 r3 : Word,
        exec .epop s = .next { s with
          host := okRegs r0 ev.timestamp ev.durationMs r3, eng := { s.eng with evq := rest } } ∧
        (ev.kind = .press → r0.extractLsb' 24 8 = 1) ∧ (ev.kind = .release → r0.extractLsb' 24 8 = 2) ∧
        (ev.kind = .longPress → r0.extractLsb' 24 8 = 3) ∧ (ev.kind = .chord → r0.extractLsb' 24 8 = 4) ∧
        r0.extractLsb' 16 8 = ev.channelId ∧
        (ev.cls = .none → r0.extractLsb' 8 8 = 0) ∧ (ev.cls = .short → r0.extractLsb' 8 8 = 1) ∧
        (ev.cls = .long → r0.extractLsb' 8 8 = 2) ∧ r0.extractLsb' 0 8 = 0 ∧
        r3.extractLsb' 0 16 = ev.members ∧ r3.extractLsb' 16 16 = 0

/-! ### The tick (43_engine_tick.md) -/

/-- ETICK runs one tick. Stopped: `EngineNotRunning`, nothing else written. The snapshot read: one sample of `NOW_MS`, one bulk read
of the input registers, `LAST_IN` recorded, the engine stepped on that snapshot (the statements below say how), the outcome OK,
`RES0`..`RES3` left at 0. Transaction j of the read failing: `BusError` and its kind, here and in `LAST_TICK_ERR`; no channel
changes, no event is emitted and `LAST_IN` is kept (43_engine_tick.md rule R228, with R212 and R213). -/
def Obligations.EtickRunsOneTick : Prop :=
  ∀ s : State,
    (s.eng.running = false → exec .etick s = .next { s with host := errRegs 0x07 0x00 }) ∧
    (s.eng.running = true → allOk (bulkCount s.cfg) s = true →
      exec .etick s = .next { s with
        host := okRegs 0 0 0 0
        exp := { s.exp with lastIn := ⟨(bulkData s).1, (bulkData s).2⟩, lastInValid := ⟨true, true⟩ }
        eng := { tickEngine (upcomingNow s) ((bulkData s).2 ++ (bulkData s).1) s.eng with
          lastTickErr := 0x00, lastTickTerr := 0x00 }
        env := afterBus (bulkEvents .input s) (sampledNow s) }) ∧
    (∀ (j : Nat) (k : TransportErrorKind), s.eng.running = true → j < bulkCount s.cfg → failsAt j k s = true →
      exec .etick s = .next { s with
        host := errRegs 0x01 (kindCode k)
        eng := { s.eng with lastTickErr := 0x01, lastTickTerr := kindCode k }
        env := afterBus (cutAt j k (bulkEvents .input s)) (sampledNow s) })

/-- The outcome of a tick: `LAST_TICK_ERR` and `LAST_TICK_TERR` are (OK, 0) when the snapshot was read and (BusError, the kind) when
transaction j failed; a timer tick writes neither `STATUS` nor `RES0`..`RES3`, and everything else as an ETICK on the same state,
whose `STATUS` shows the same outcome (43_engine_tick.md rule R227). -/
def Obligations.TickOutcomeIsRecorded : Prop :=
  ∀ s : State,
    (allOk (bulkCount s.cfg) s = true →
      (tick s).state.eng.lastTickErr = 0x00 ∧ (tick s).state.eng.lastTickTerr = 0x00) ∧
    (∀ (j : Nat) (k : TransportErrorKind), j < bulkCount s.cfg → failsAt j k s = true →
      (tick s).state.eng.lastTickErr = 0x01 ∧ (tick s).state.eng.lastTickTerr = kindCode k) ∧
    (tick s).state.host = s.host ∧
    ∀ t : State, s.eng.running = true → exec .etick s = .next t →
      (tick s).state = { t with host := s.host } ∧
      t.host.err = t.eng.lastTickErr ∧ t.host.terr = t.eng.lastTickTerr

/-- A release: a channel whose level goes from closed to open while Pressed or LongPressed emits one Release with its exact
elapsed time modulo 2^32, short when below the threshold and long at it or above, and is Released
(43_engine_tick.md rules R214, R215). -/
def Obligations.ReleaseIsClassified : Prop :=
  ∀ (thr now : Word) (snap : PinMask) (k : Fin 16) (c : Channel),
    c.prev = false → snap.getLsbD c.pin.toNat = true → c.life ≠ .released →
    channelEvent thr now snap k c = some {
      kind := .release, channelId := BitVec.ofNat 8 k.val
      cls := if (now.toNat + 2 ^ 32 - c.pressStart.toNat) % 2 ^ 32 < thr.toNat then .short else .long
      timestamp := now
      durationMs := BitVec.ofNat 32 ((now.toNat + 2 ^ 32 - c.pressStart.toNat) % 2 ^ 32), members := 0 } ∧
    storeLevel snap (channelStep thr now snap c) = ⟨c.pin, .released, c.pressStart, false, true⟩

/-- A press: a channel whose level goes from open to closed emits one Press and starts its timer, whatever its lifecycle
(43_engine_tick.md rules R216, R219). -/
def Obligations.PressStartsTheTimer : Prop :=
  ∀ (thr now : Word) (snap : PinMask) (k : Fin 16) (c : Channel),
    c.prev = true → snap.getLsbD c.pin.toNat = false →
    channelEvent thr now snap k c = some {
      kind := .press, channelId := BitVec.ofNat 8 k.val, cls := .none, timestamp := now, durationMs := 0, members := 0 } ∧
    storeLevel snap (channelStep thr now snap c) = ⟨c.pin, .pressed, now, false, false⟩

/-- A long press fires exactly when there is no transition, the channel is Pressed, its elapsed time has reached the threshold
and none was emitted for this press; in every remaining case the channel emits nothing and keeps its lifecycle, press start and
flag (43_engine_tick.md rules R217, R218, R219). -/
def Obligations.LongPressFiresOnce : Prop :=
  ∀ (thr now : Word) (snap : PinMask) (k : Fin 16) (c : Channel),
    let reached := thr.toNat ≤ (now.toNat + 2 ^ 32 - c.pressStart.toNat) % 2 ^ 32
    let fires := c.prev = snap.getLsbD c.pin.toNat ∧ c.life = .pressed ∧ reached ∧ c.longEmitted = false
    (fires →
      channelEvent thr now snap k c = some {
        kind := .longPress, channelId := BitVec.ofNat 8 k.val, cls := .none, timestamp := now, durationMs := 0,
        members := 0 } ∧
      storeLevel snap (channelStep thr now snap c) = ⟨c.pin, .longPressed, c.pressStart, true, c.prev⟩) ∧
    ((c.prev = snap.getLsbD c.pin.toNat ∧ ¬ fires) ∨
        (c.prev = false ∧ snap.getLsbD c.pin.toNat = true ∧ c.life = .released) →
      channelEvent thr now snap k c = none ∧
      storeLevel snap (channelStep thr now snap c) = { c with prev := snap.getLsbD c.pin.toNat })

/-- What a tick does to the engine: every defined channel takes its step on the snapshot, the others and every other
register but the queue and its overflow flag keep their values (43_engine_tick.md rules R210, R220, R223). -/
def Obligations.TickStepsTheDefinedChannels : Prop :=
  ∀ (now : Word) (snap : PinMask) (g : Engine),
    let t := tickEngine now snap g
    (∀ k : Fin 16, t.ch[k] =
      if k.val < g.chCount.val then storeLevel snap (channelStep (g.lpThr.setWidth 32) now snap g.ch[k])
      else g.ch[k]) ∧
    t.running = g.running ∧ t.chCount = g.chCount ∧ t.lpThr = g.lpThr ∧ t.pollMs = g.pollMs ∧
    t.lastTickErr = g.lastTickErr ∧ t.lastTickTerr = g.lastTickTerr ∧ t.tickPending = g.tickPending

/-- The queue after a tick: the tick's events, at most `CH_COUNT` + 1 of them, are appended in order as far as the 32 places go, the
newest dropped, and `EVQ_OVF` is set when one was dropped (43_engine_tick.md rule R226). -/
def Obligations.FullQueueDropsTheNewest : Prop :=
  ∀ (now : Word) (snap : PinMask) (g : Engine),
    (tickEvents now snap g).length ≤ g.chCount.val + 1 ∧
    (g.evq.length ≤ 32 →
      (tickEngine now snap g).evq = (g.evq ++ tickEvents now snap g).take 32 ∧
      (tickEngine now snap g).evqOvf = (g.evqOvf || decide (32 < g.evq.length + (tickEvents now snap g).length)))

/-- The order of a tick's events: those of the channels by strictly ascending channel id, each as its channel's step gives it,
then the Chord, if there is one; so at most `CH_COUNT` + 1 (43_engine_tick.md rules R222, R226). -/
def Obligations.EventsComeInChannelOrder : Prop :=
  ∀ (now : Word) (snap : PinMask) (g : Engine),
    let chord := (chordEvent now snap g).toList
    ∃ evs : List Event, tickEvents now snap g = evs ++ chord ∧
      (evs.map fun ev => ev.channelId.toNat).Pairwise (· < ·) ∧
      (∀ ev : Event, ev ∈ evs ↔ ∃ k : Fin 16, k.val < g.chCount.val ∧
        channelEvent (g.lpThr.setWidth 32) now snap k g.ch[k] = some ev) ∧
      (∀ ev ∈ chord, ev.kind = .chord) ∧ (∀ ev ∈ evs, ev.kind ≠ .chord ∧ ev.channelId.toNat < g.chCount.val) ∧
      chord.length ≤ 1 ∧ evs.length ≤ g.chCount.val

/-- A tick emits one Chord, after its other events, when two different channels are pressed in the snapshot, at every such tick;
bit j of its members is set exactly for each pressed channel j. It emits none otherwise (43_engine_tick.md rule R221). -/
def Obligations.ChordListsThePressedChannels : Prop :=
  ∀ (now : Word) (snap : PinMask) (g : Engine),
    let pressed (k : Fin 16) : Prop := k.val < g.chCount.val ∧ snap.getLsbD g.ch[k].pin.toNat = false
    ((∃ j k : Fin 16, j ≠ k ∧ pressed j ∧ pressed k) →
      ∃ (m : BitVec 16) (evs : List Event), (∀ k : Fin 16, m.getLsbD k.val = true ↔ pressed k) ∧
        (∀ ev ∈ evs, ev.kind ≠ .chord) ∧
        tickEvents now snap g = evs ++ [{
          kind := .chord, channelId := 0xFF, cls := .none, timestamp := now, durationMs := 0, members := m }]) ∧
    ((¬ ∃ j k : Fin 16, j ≠ k ∧ pressed j ∧ pressed k) → ∀ ev ∈ tickEvents now snap g, ev.kind ≠ .chord)

/-! ### What each command may change -/

/-- The Expander State Model never reads or writes the engine: replacing the engine's state replaces it in the outcome and
changes nothing else of it. INIT reads `RUNNING` alone (10_state.md rule R54; 60_exceptions.md rule R244). -/
def Obligations.ExpanderCommandsIgnoreTheEngine : Prop :=
  ∀ (i : Instr) (s : State) (g : Engine), isExpander i = true → (i = .init → g.running = s.eng.running) →
    exec i { s with eng := g } = outcomeWithEngine g (exec i s) ∧
    ∀ t : State, exec i s = .next t → t.eng = s.eng

/-- `LIFE`, `PRESS_START`, `LONG_EMITTED` and `PREV`: only ticks, ESTART and ECLR write them, among the commands and among the other
agents' moves (a reset apart); and no expander command reads or writes them: replacing the per-channel entries replaces them in
the outcome alone. Only ECLR and EADD write the channel table (10_state.md rule R54, and section 3, R42). -/
def Obligations.ChannelStateHasItsWriters : Prop :=
  let kept (s t : State) : Prop := ∀ k : Fin 16,
    t.eng.ch[k].life = s.eng.ch[k].life ∧ t.eng.ch[k].pressStart = s.eng.ch[k].pressStart ∧
    t.eng.ch[k].longEmitted = s.eng.ch[k].longEmitted ∧ t.eng.ch[k].prev = s.eng.ch[k].prev
  (∀ (i : Instr) (s t : State), exec i s = .next t →
    (i ≠ .etick → i ≠ .estart → i ≠ .eclr → kept s t) ∧
    ((∀ pin, i ≠ .eadd pin) → ∀ k : Fin 16, t.eng.ch[k].pin = s.eng.ch[k].pin) ∧
    (i ≠ .eclr → (∀ pin, i ≠ .eadd pin) → t.eng.chCount = s.eng.chCount)) ∧
  (∀ (r : HostReg) (s t : State), act (.hostRead r) s = .next t ∨ act .timerRequest s = .next t → kept s t) ∧
  (∀ (i : Instr) (s : State) (ch : Vector Channel 16), isExpander i = true →
    exec i { s with eng := { s.eng with ch := ch } } = outcomeWithEngine { s.eng with ch := ch } (exec i s))

/-- Each engine register has its writers and no others: `RUNNING` ESTART and ESTOP, `LP_THR` ETHR, `POLL_MS` EPER, `EVQ` ETICK and
EPOP, `EVQ_OVF` and the tick outcome ETICK and ESTART; `INIT_DONE` INIT (10_state.md rules R33, R40, R47 to R51). No command writes
the poll timer's pending bit, which is the model's own (60_exceptions.md section 3, log entry 8). -/
def Obligations.EngineRegistersHaveTheirWriters : Prop :=
  ∀ (i : Instr) (s t : State), exec i s = .next t →
    (i ≠ .estart → i ≠ .estop → t.eng.running = s.eng.running) ∧
    ((∀ ms, i ≠ .ethr ms) → t.eng.lpThr = s.eng.lpThr) ∧
    ((∀ ms, i ≠ .eper ms) → t.eng.pollMs = s.eng.pollMs) ∧
    (i ≠ .etick → i ≠ .epop → t.eng.evq = s.eng.evq) ∧
    (i ≠ .etick → i ≠ .estart → t.eng.evqOvf = s.eng.evqOvf ∧ t.eng.lastTickErr = s.eng.lastTickErr ∧
      t.eng.lastTickTerr = s.eng.lastTickTerr) ∧
    (i ≠ .init → t.exp.initDone = s.exp.initDone) ∧
    t.eng.tickPending = s.eng.tickPending

/-- Write-then-cache: a command leaves each cache register and its valid bit as they were, unless it wrote that chip register with
success; then the cache register holds the value last written so and is valid. A failed write changes neither
(10_state.md rule R34). -/
def Obligations.CacheFollowsSuccessfulWrites : Prop :=
  ∀ (i : Instr) (s t : State), configWf s.cfg = true → exec i s = .next t →
    ∃ evs : List BusEvent, t.env.busLog = s.env.busLog ++ evs ∧
      ∀ (l : Latch) (p : Port),
        (∀ v : Byte, lastStore s.cfg l p evs = some v → cached l p t = v ∧ cacheValid l p t = true) ∧
        (lastStore s.cfg l p evs = none → cached l p t = cached l p s ∧ cacheValid l p t = cacheValid l p s)

/-- No path but a successful write writes the cache: a command that writes no chip register leaves `CACHE_DIR`, `CACHE_OUT` and
their valid bits alone, and no command clears a valid bit (10_state.md section 2: rules R31, R34, and R35, which the spec derives). -/
def Obligations.ReadsNeverWriteTheCache : Prop :=
  ∀ (i : Instr) (s t : State), exec i s = .next t →
    (writesChip i = false → ∀ (l : Latch) (p : Port),
      cached l p t = cached l p s ∧ cacheValid l p t = cacheValid l p s) ∧
    (∀ (l : Latch) (p : Port), cacheValid l p s = true → cacheValid l p t = true)

/-- `LAST_IN` and its valid bits are written only by GETLVL, GETPLVL and ticks: not by INIT's probe, not by a read of an output
or direction register, and not by a command that failed (40_register_access.md rule R126). -/
def Obligations.LastInHasItsWriters : Prop :=
  ∀ (i : Instr) (s t : State), exec i s = .next t →
    ((∀ pin, i ≠ .getlvl pin) → i ≠ .getplvl → i ≠ .etick →
      t.exp.lastIn = s.exp.lastIn ∧ t.exp.lastInValid = s.exp.lastInValid) ∧
    (t.host.err ≠ 0x00 → t.exp.lastIn = s.exp.lastIn ∧ t.exp.lastInValid = s.exp.lastInValid)

/-- A command that ends OK issues exactly the transactions of its row of the spec's table; one that ends with BusError or
ChipNotFound stops at the failing transaction; one that ends with any other error issues none (70_reset_and_hazards.md
section 4, a table the spec derives; 60_exceptions.md rule R247). -/
def Obligations.TransactionsAreCounted : Prop :=
  ∀ (i : Instr) (s t : State), exec i s = .next t →
    ∃ evs : List BusEvent, t.env.busLog = s.env.busLog ++ evs ∧ evs.length ≤ transactionCount s.cfg i ∧
      (t.host.err = 0x00 → evs.length = transactionCount s.cfg i ∧ evs.all eventOk = true) ∧
      (t.host.err = 0x01 ∨ t.host.err = 0x02 → ∃ ev, evs.getLast? = some ev ∧ eventOk ev = false) ∧
      (3 ≤ t.host.err.toNat → evs = [])

/-! ### Invariants of every step -/

/-- The invariants hold right after reset, from any state, whatever the surroundings (70_reset_and_hazards.md rule R280). -/
def Obligations.InvariantsHoldAtReset : Prop :=
  ∀ s : State, LifeMatchesPrev (resetBlock s).eng ∧ LongMatchesLife (resetBlock s).eng ∧ WellKept (resetBlock s) ∧
    CacheMirrors (resetBlock s)

/-- Every step keeps: a channel is Released exactly when its previous level is open. The spec derives it for the defined channels
(10_state.md section 3, R52); here it is kept for all sixteen entries, which implies that. -/
def Obligations.EveryStepKeepsLifeMatchingPrev : Prop :=
  ∀ s t : State, LifeMatchesPrev s.eng → step s = .next t → LifeMatchesPrev t.eng

/-- Every step keeps: `LONG_EMITTED` is set exactly when the channel is LongPressed. The spec derives it (10_state.md
section 3, R53); here it is kept for all sixteen entries. -/
def Obligations.EveryStepKeepsLongMatchingLife : Prop :=
  ∀ s t : State, LongMatchesLife s.eng → step s = .next t → LongMatchesLife t.eng

/-- Every step keeps the registers legal: codes, the queue's bound, distinct channel pins, and a running engine initialised with
a channel (10_state.md sections 1 and 3; 60_exceptions.md section 1). -/
def Obligations.EveryStepKeepsTheRegistersLegal : Prop := ∀ s t : State, WellKept s → step s = .next t → WellKept t

/-- Every step keeps: a valid cache register holds the value its last successful write put on the bus (10_state.md rule R34). -/
def Obligations.EveryStepKeepsTheCacheMirroring : Prop :=
  ∀ s t : State, CacheMirrors s → step s = .next t → CacheMirrors t

/-- Every step, in every state: the configuration is unchanged, what was issued stays issued, and every new transaction goes to
`DEV_ADDR` and to one of the six sub-addresses, register writes never to an input port, reads of one or two bytes
(20_memory.md rules R60, R65, R70, R73, R80). -/
def Obligations.EveryTransactionIsLegal : Prop :=
  ∀ s t : State, step s = .next t →
    t.cfg = s.cfg ∧ ∃ evs : List BusEvent, t.env.busLog = s.env.busLog ++ evs ∧ evs.all (legalEvent s.cfg) = true

/-! ### The properties the source states, on the reference chip (20_memory.md rule R75) -/

/-- Round trip: with the reference chip answering and every transaction `Ok`, GETCFG, SETDIR p d, GETCFG reads back d at bit p and
the other fifteen bits as before, whatever the lines do; under `RMW_SOURCE` = Cache when the cached direction equals the chip's
(41_expander.md, R153, which the spec derives). -/
def Obligations.DirectionRoundTrip : Prop :=
  ∀ (s0 s1 s2 s3 : State) (pin : Byte) (d : Bool) (run : List (PinMask × BusEvent)) (x y : RefChip),
    configWf s0.cfg = true → pin.toNat < 16 →
    (s0.cfg.rmwSource = .cache →
      s0.exp.cacheDir.get (portOf pin.toNat) = x.chipCfg.get (portOf pin.toNat)) →
    exec .getcfg s0 = .next s1 → exec (.setdir pin d) s1 = .next s2 → exec .getcfg s2 = .next s3 →
    s3.env.busLog = s0.env.busLog ++ run.map Prod.snd → (run.all fun r => eventOk r.2) = true →
    y ∈ chipAfterAll s0.cfg x run →
    ∀ j : Nat, j < 16 → s3.host.res0.getLsbD j = if j = pin.toNat then d else s1.host.res0.getLsbD j

/-- Idempotence: with the reference chip answering and every transaction `Ok`, SETPLVL x, y issued twice leaves the chip's output
registers and `CACHE_OUT` equal to (x, y), as issuing it once does, whatever the lines do (41_expander.md, R154, which the spec
derives). -/
def Obligations.PortLevelIsIdempotent : Prop :=
  ∀ (s0 s1 s2 : State) (m0 m1 : Byte) (once twice : List (PinMask × BusEvent)) (x y z : RefChip),
    configWf s0.cfg = true →
    exec (.setplvl m0 m1) s0 = .next s1 → exec (.setplvl m0 m1) s1 = .next s2 →
    s1.env.busLog = s0.env.busLog ++ once.map Prod.snd → s2.env.busLog = s1.env.busLog ++ twice.map Prod.snd →
    ((once ++ twice).all fun r => eventOk r.2) = true → y ∈ chipAfterAll s0.cfg x once → z ∈ chipAfterAll s0.cfg y twice →
    y.chipOut = ⟨m0, m1⟩ ∧ s1.exp.cacheOut = ⟨m0, m1⟩ ∧ z.chipOut = y.chipOut ∧ s2.exp.cacheOut = s1.exp.cacheOut

/-- The levels the reference chip returns, with every transaction `Ok`: on an output pin the output latch, on an input pin the
line as it is when the pin's register is read. For one pin by GETLVL, for all sixteen by GETPLVL, whose pair read takes every line in
one transaction (20_memory.md section 7; that a line may change between any two transactions is read from it, log entry 15). -/
def Obligations.ReferenceChipLoopsOutputsBack : Prop :=
  ∀ (s t : State) (run : List (PinMask × BusEvent)) (x y : RefChip) (line : PinMask) (ev : BusEvent),
    configWf s.cfg = true → t.env.busLog = s.env.busLog ++ run.map Prod.snd → (run.all fun r => eventOk r.2) = true →
    y ∈ chipAfterAll s.cfg x run → run[1]? = some (line, ev) →
    let level (j : Nat) : Bool :=
      if (x.chipCfg.get (portOf j)).getLsbD (j % 8) then line.getLsbD j else (x.chipOut.get (portOf j)).getLsbD (j % 8)
    (∀ pin : Byte, pin.toNat < 16 → exec (.getlvl pin) s = .next t →
      t.host.res0 = if level pin.toNat then 1 else 0) ∧
    (s.cfg.bulkMode = .pair → exec .getplvl s = .next t →
      ∀ j : Nat, j < 32 → t.host.res0.getLsbD j = (decide (j < 16) && level j))
end

