-- ==== Sys2Proof/Laws/State.lean ====
section
/-! SUPPORT. The small lemmas of the state's updates: what each update leaves alone, and what it writes. -/
namespace Sys2Proof.Machine

/-! ### `transacted` -/

@[simp] theorem transacted_cfg (ev : BusEvent) (s : State) : (transacted ev s).cfg = s.cfg := rfl
@[simp] theorem transacted_host (ev : BusEvent) (s : State) : (transacted ev s).host = s.host := rfl
@[simp] theorem transacted_exp (ev : BusEvent) (s : State) : (transacted ev s).exp = s.exp := rfl
@[simp] theorem transacted_eng (ev : BusEvent) (s : State) : (transacted ev s).eng = s.eng := rfl

/-! ### `issued` -/

@[simp] theorem issued_cfg (evs : List BusEvent) (s : State) : (issued evs s).cfg = s.cfg := rfl
@[simp] theorem issued_host (evs : List BusEvent) (s : State) : (issued evs s).host = s.host := rfl
@[simp] theorem issued_exp (evs : List BusEvent) (s : State) : (issued evs s).exp = s.exp := rfl
@[simp] theorem issued_eng (evs : List BusEvent) (s : State) : (issued evs s).eng = s.eng := rfl

/-! ### `sampledNow` -/

@[simp] theorem sampledNow_cfg (s : State) : (sampledNow s).cfg = s.cfg := rfl
@[simp] theorem sampledNow_host (s : State) : (sampledNow s).host = s.host := rfl
@[simp] theorem sampledNow_exp (s : State) : (sampledNow s).exp = s.exp := rfl
@[simp] theorem sampledNow_eng (s : State) : (sampledNow s).eng = s.eng := rfl

/-! ### `observe` -/

@[simp] theorem observe_cfg (p : Port) (b : Byte) (s : State) : (observe p b s).cfg = s.cfg := rfl
@[simp] theorem observe_host (p : Port) (b : Byte) (s : State) : (observe p b s).host = s.host := rfl
@[simp] theorem observe_eng (p : Port) (b : Byte) (s : State) : (observe p b s).eng = s.eng := rfl
@[simp] theorem observe_env (p : Port) (b : Byte) (s : State) : (observe p b s).env = s.env := rfl

/-! ### `observeBoth` -/

@[simp] theorem observeBoth_cfg (b0 b1 : Byte) (s : State) : (observeBoth b0 b1 s).cfg = s.cfg := rfl
@[simp] theorem observeBoth_host (b0 b1 : Byte) (s : State) : (observeBoth b0 b1 s).host = s.host := rfl
@[simp] theorem observeBoth_eng (b0 b1 : Byte) (s : State) : (observeBoth b0 b1 s).eng = s.eng := rfl
@[simp] theorem observeBoth_env (b0 b1 : Byte) (s : State) : (observeBoth b0 b1 s).env = s.env := rfl

/-! ### `clearRes` -/

@[simp] theorem clearRes_cfg (s : State) : (clearRes s).cfg = s.cfg := rfl
@[simp] theorem clearRes_exp (s : State) : (clearRes s).exp = s.exp := rfl
@[simp] theorem clearRes_eng (s : State) : (clearRes s).eng = s.eng := rfl
@[simp] theorem clearRes_env (s : State) : (clearRes s).env = s.env := rfl

/-! ### `setRes` -/

@[simp] theorem setRes_cfg (r0 r1 r2 r3 : Word) (s : State) : (setRes r0 r1 r2 r3 s).cfg = s.cfg := rfl
@[simp] theorem setRes_exp (r0 r1 r2 r3 : Word) (s : State) : (setRes r0 r1 r2 r3 s).exp = s.exp := rfl
@[simp] theorem setRes_eng (r0 r1 r2 r3 : Word) (s : State) : (setRes r0 r1 r2 r3 s).eng = s.eng := rfl
@[simp] theorem setRes_env (r0 r1 r2 r3 : Word) (s : State) : (setRes r0 r1 r2 r3 s).env = s.env := rfl

/-! ### `setStatus` -/

@[simp] theorem setStatus_cfg (err terr : Byte) (s : State) : (setStatus err terr s).cfg = s.cfg := rfl
@[simp] theorem setStatus_exp (err terr : Byte) (s : State) : (setStatus err terr s).exp = s.exp := rfl
@[simp] theorem setStatus_eng (err terr : Byte) (s : State) : (setStatus err terr s).eng = s.eng := rfl
@[simp] theorem setStatus_env (err terr : Byte) (s : State) : (setStatus err terr s).env = s.env := rfl

/-! ### `setInitDone` -/

@[simp] theorem setInitDone_cfg (b : Bool) (s : State) : (setInitDone b s).cfg = s.cfg := rfl
@[simp] theorem setInitDone_host (b : Bool) (s : State) : (setInitDone b s).host = s.host := rfl
@[simp] theorem setInitDone_eng (b : Bool) (s : State) : (setInitDone b s).eng = s.eng := rfl
@[simp] theorem setInitDone_env (b : Bool) (s : State) : (setInitDone b s).env = s.env := rfl

/-! ### `withEngine` -/

@[simp] theorem withEngine_cfg (g : Engine) (s : State) : (withEngine g s).cfg = s.cfg := rfl
@[simp] theorem withEngine_host (g : Engine) (s : State) : (withEngine g s).host = s.host := rfl
@[simp] theorem withEngine_exp (g : Engine) (s : State) : (withEngine g s).exp = s.exp := rfl
@[simp] theorem withEngine_env (g : Engine) (s : State) : (withEngine g s).env = s.env := rfl

/-! ### `recordTick` -/

@[simp] theorem recordTick_cfg (err terr : Byte) (s : State) : (recordTick err terr s).cfg = s.cfg := rfl
@[simp] theorem recordTick_host (err terr : Byte) (s : State) : (recordTick err terr s).host = s.host := rfl
@[simp] theorem recordTick_exp (err terr : Byte) (s : State) : (recordTick err terr s).exp = s.exp := rfl
@[simp] theorem recordTick_env (err terr : Byte) (s : State) : (recordTick err terr s).env = s.env := rfl

/-! ### `takeMove` -/

@[simp] theorem takeMove_cfg (s : State) : (takeMove s).cfg = s.cfg := rfl
@[simp] theorem takeMove_host (s : State) : (takeMove s).host = s.host := rfl
@[simp] theorem takeMove_exp (s : State) : (takeMove s).exp = s.exp := rfl
@[simp] theorem takeMove_eng (s : State) : (takeMove s).eng = s.eng := rfl

/-! ### `hostReadReg` -/

@[simp] theorem hostReadReg_cfg (r : HostReg) (s : State) : (hostReadReg r s).cfg = s.cfg := rfl
@[simp] theorem hostReadReg_host (r : HostReg) (s : State) : (hostReadReg r s).host = s.host := rfl
@[simp] theorem hostReadReg_exp (r : HostReg) (s : State) : (hostReadReg r s).exp = s.exp := rfl
@[simp] theorem hostReadReg_eng (r : HostReg) (s : State) : (hostReadReg r s).eng = s.eng := rfl

/-! ### `resetBlock` -/

@[simp] theorem resetBlock_cfg (s : State) : (resetBlock s).cfg = s.cfg := rfl
@[simp] theorem resetBlock_env (s : State) : (resetBlock s).env = s.env := rfl

/-! ### `setCache` -/

@[simp] theorem setCache_cfg (l : Latch) (p : Port) (v : Byte) (s : State) : (setCache l p v s).cfg = s.cfg := by
  cases l <;> rfl
@[simp] theorem setCache_host (l : Latch) (p : Port) (v : Byte) (s : State) : (setCache l p v s).host = s.host := by
  cases l <;> rfl
@[simp] theorem setCache_eng (l : Latch) (p : Port) (v : Byte) (s : State) : (setCache l p v s).eng = s.eng := by
  cases l <;> rfl
@[simp] theorem setCache_env (l : Latch) (p : Port) (v : Byte) (s : State) : (setCache l p v s).env = s.env := by
  cases l <;> rfl

@[simp] theorem setCache_initDone (l : Latch) (p : Port) (v : Byte) (s : State) :
    (setCache l p v s).exp.initDone = s.exp.initDone := by cases l <;> rfl

@[simp] theorem setCache_lastIn (l : Latch) (p : Port) (v : Byte) (s : State) :
    (setCache l p v s).exp.lastIn = s.exp.lastIn := by cases l <;> rfl

@[simp] theorem setCache_lastInValid (l : Latch) (p : Port) (v : Byte) (s : State) :
    (setCache l p v s).exp.lastInValid = s.exp.lastInValid := by cases l <;> rfl

/-! ### What an update writes -/

@[simp] theorem withEngine_eng (g : Engine) (s : State) : (withEngine g s).eng = g := rfl

@[simp] theorem recordTick_eng (err terr : Byte) (s : State) :
    (recordTick err terr s).eng = { s.eng with lastTickErr := err, lastTickTerr := terr } := rfl

@[simp] theorem setStatus_host (err terr : Byte) (s : State) :
    (setStatus err terr s).host = { s.host with err := err, terr := terr } := rfl

@[simp] theorem clearRes_host (s : State) : (clearRes s).host = ⟨s.host.err, s.host.terr, 0, 0, 0, 0⟩ := rfl

@[simp] theorem setRes_host (r0 r1 r2 r3 : Word) (s : State) :
    (setRes r0 r1 r2 r3 s).host = ⟨s.host.err, s.host.terr, r0, r1, r2, r3⟩ := rfl

@[simp] theorem setInitDone_exp (b : Bool) (s : State) : (setInitDone b s).exp = { s.exp with initDone := b } := rfl

@[simp] theorem issued_env (evs : List BusEvent) (s : State) : (issued evs s).env = afterBus evs s := rfl

@[simp] theorem issued_busLog (evs : List BusEvent) (s : State) :
    (issued evs s).env.busLog = s.env.busLog ++ evs := rfl

@[simp] theorem sampledNow_busLog (s : State) : (sampledNow s).env.busLog = s.env.busLog := rfl

@[simp] theorem takeMove_busLog (s : State) : (takeMove s).env.busLog = s.env.busLog := rfl

@[simp] theorem hostReadReg_busLog (r : HostReg) (s : State) : (hostReadReg r s).env.busLog = s.env.busLog := rfl

@[simp] theorem resetBlock_host (s : State) : (resetBlock s).host = HostRegs.reset := rfl

@[simp] theorem resetBlock_exp (s : State) : (resetBlock s).exp = Expander.reset := rfl

@[simp] theorem resetBlock_eng (s : State) : (resetBlock s).eng = Engine.reset := rfl

@[simp] theorem resetAfter_cfg (n : Nat) (s t : State) : (resetAfter n s t).cfg = s.cfg := rfl

@[simp] theorem resetAfter_host (n : Nat) (s t : State) : (resetAfter n s t).host = HostRegs.reset := rfl

@[simp] theorem resetAfter_exp (n : Nat) (s t : State) : (resetAfter n s t).exp = Expander.reset := rfl

@[simp] theorem resetAfter_eng (n : Nat) (s t : State) : (resetAfter n s t).eng = Engine.reset := rfl

@[simp] theorem resetAfter_busLog (n : Nat) (s t : State) :
    (resetAfter n s t).env.busLog = t.env.busLog.take (s.env.busLog.length + n) := rfl

/-! ### Ports and the cache -/

@[simp] theorem Ports.get_set_same {α : Type} (v : Ports α) (p : Port) (x : α) : (v.set p x).get p = x := by
  cases p <;> rfl

theorem Ports.get_set_other {α : Type} (v : Ports α) (p q : Port) (x : α) (h : q ≠ p) :
    (v.set p x).get q = v.get q := by
  cases p <;> cases q <;> first | rfl | exact absurd rfl h

@[simp] theorem cached_setCache_same (l : Latch) (p : Port) (v : Byte) (s : State) :
    cached l p (setCache l p v s) = v := by cases l <;> simp [cached, setCache]

@[simp] theorem cacheValid_setCache_same (l : Latch) (p : Port) (v : Byte) (s : State) :
    cacheValid l p (setCache l p v s) = true := by cases l <;> simp [cacheValid, setCache]

theorem cached_setCache_other (l m : Latch) (p q : Port) (v : Byte) (s : State) (h : ¬ (m = l ∧ q = p)) :
    cached m q (setCache l p v s) = cached m q s := by
  cases l <;> cases m <;> cases p <;> cases q <;> first | rfl | exact absurd ⟨rfl, rfl⟩ h

theorem cacheValid_setCache_other (l m : Latch) (p q : Port) (v : Byte) (s : State) (h : ¬ (m = l ∧ q = p)) :
    cacheValid m q (setCache l p v s) = cacheValid m q s := by
  cases l <;> cases m <;> cases p <;> cases q <;> first | rfl | exact absurd ⟨rfl, rfl⟩ h

/-- The cache depends on the expander's fields alone. -/
theorem cached_of_exp {s t : State} (l : Latch) (p : Port) (h : t.exp = s.exp) : cached l p t = cached l p s := by
  cases l <;> simp [cached, h]

theorem cacheValid_of_exp {s t : State} (l : Latch) (p : Port) (h : t.exp = s.exp) :
    cacheValid l p t = cacheValid l p s := by
  cases l <;> simp [cacheValid, h]

end Sys2Proof.Machine
end

