-- ==== Sys2Proof/Laws/Bus.lean ====
section
/-! SUPPORT. Everything a bus transaction, a Register Access Layer operation and a shared micro-operation can do, each said once. -/
namespace Sys2Proof.Machine

/-! ### Sequencing -/

@[simp] theorem Ran.andThen_done {ε α β : Type} (a : α) (s : State) (f : α → State → Ran ε β) :
    (Ran.done a s).andThen f = f a s := rfl

@[simp] theorem Ran.andThen_raised {ε α β : Type} (e : ε) (s : State) (f : α → State → Ran ε β) :
    (Ran.raised e s : Ran ε α).andThen f = .raised e s := rfl

@[simp] theorem Ran.wrap_done {ε ε' α : Type} (g : ε → ε') (a : α) (s : State) :
    (Ran.done a s : Ran ε α).wrap g = .done a s := rfl

@[simp] theorem Ran.wrap_raised {ε ε' α : Type} (g : ε → ε') (e : ε) (s : State) :
    (Ran.raised e s : Ran ε α).wrap g = .raised (g e) s := rfl

@[simp] theorem Ran.state_done {ε α : Type} (a : α) (s : State) : (Ran.done a s : Ran ε α).state = s := rfl

@[simp] theorem Ran.state_raised {ε α : Type} (e : ε) (s : State) : (Ran.raised e s : Ran ε α).state = s := rfl

@[simp] theorem finish_done (a : Unit) (s : State) : finish (.done a s) = setStatus errOk 0 s := rfl

@[simp] theorem finish_raised (e : Raise) (s : State) :
    finish (.raised e s) = setStatus (errCode e) (terrCode e) s := rfl

/-! ### Draws and the log -/

theorem transacted_eq_issued (ev : BusEvent) (s : State) : transacted ev s = issued [ev] s := by
  unfold transacted issued afterBus
  cases h : s.env.busIn <;> simp

@[simp] theorem issued_issued (as bs : List BusEvent) (s : State) : issued bs (issued as s) = issued (as ++ bs) s := by
  simp only [issued, afterBus, List.drop_drop, List.length_append, List.length_drop, List.append_assoc]
  have h : s.env.busDraws + (as.length - s.env.busIn.length) + (bs.length - (s.env.busIn.length - as.length)) =
      s.env.busDraws + (as.length + bs.length - s.env.busIn.length) := by omega
  rw [h]

@[simp] theorem upcoming_issued (evs : List BusEvent) (s : State) (n : Nat) :
    upcoming (issued evs s) n = upcoming s (evs.length + n) := by
  simp only [upcoming, issued, afterBus, List.getElem?_drop, List.length_drop]
  cases h : s.env.busIn[evs.length + n]? with
  | some r => rfl
  | none =>
    have : s.env.busDraws + (evs.length - s.env.busIn.length) + (n - (s.env.busIn.length - evs.length)) =
        s.env.busDraws + (evs.length + n - s.env.busIn.length) := by
      have := List.getElem?_eq_none_iff.mp h
      omega
    simp [this]

/-- The answers depend on the surroundings alone. -/
theorem upcoming_of_env {s t : State} (n : Nat) (h : t.env = s.env) : upcoming t n = upcoming s n := by
  simp [upcoming, h]

@[simp] theorem upcoming_clearRes (s : State) (n : Nat) : upcoming (clearRes s) n = upcoming s n := rfl

@[simp] theorem upcoming_setInitDone (b : Bool) (s : State) (n : Nat) :
    upcoming (setInitDone b s) n = upcoming s n := rfl

@[simp] theorem upcoming_setCache (l : Latch) (p : Port) (v : Byte) (s : State) (n : Nat) :
    upcoming (setCache l p v s) n = upcoming s n := by cases l <;> rfl

@[simp] theorem upcoming_sampledNow (s : State) (n : Nat) : upcoming (sampledNow s) n = upcoming s n := rfl

@[simp] theorem upcoming_withEngine (g : Engine) (s : State) (n : Nat) :
    upcoming (withEngine g s) n = upcoming s n := rfl

/-- Issuing moves out past every update of the block's own registers. -/
@[simp] theorem issued_clearRes (evs : List BusEvent) (s : State) :
    issued evs (clearRes s) = clearRes (issued evs s) := rfl

@[simp] theorem issued_setInitDone (evs : List BusEvent) (b : Bool) (s : State) :
    issued evs (setInitDone b s) = setInitDone b (issued evs s) := rfl

@[simp] theorem issued_setCache (evs : List BusEvent) (l : Latch) (p : Port) (v : Byte) (s : State) :
    issued evs (setCache l p v s) = setCache l p v (issued evs s) := by cases l <;> rfl

theorem allOk_iff (n : Nat) (s : State) :
    allOk n s = true ↔ ∀ j, j < n → ∃ a b, upcoming s j = .ok a b := by
  simp only [allOk, List.all_eq_true, List.mem_range]
  refine forall_congr' fun j => forall_congr' fun _ => ?_
  cases upcoming s j <;> simp [replyOk]

theorem failsAt_iff (j : Nat) (k : TransportErrorKind) (s : State) :
    failsAt j k s = true ↔ (∀ i, i < j → ∃ a b, upcoming s i = .ok a b) ∧ upcoming s j = .err k := by
  simp [failsAt, allOk_iff]

theorem issued_nil (s : State) : issued [] s = s := by
  simp [issued, afterBus]

/-! ### Bus Transport -/

theorem busWrite_eq (bytes : List Byte) (s : State) :
    busWrite bytes s = match upcoming s 0 with
      | .ok _ _ => .done () (issued [.write s.cfg.devAddr bytes none] s)
      | .err k => .raised k (issued [.write s.cfg.devAddr bytes (some k)] s) := by
  unfold busWrite
  cases upcoming s 0 <;> simp [transacted_eq_issued]

theorem busRead1_eq (s : State) :
    busRead1 s = match upcoming s 0 with
      | .ok b0 _ => .done b0 (issued [.read s.cfg.devAddr 1 [b0] none] s)
      | .err k => .raised k (issued [.read s.cfg.devAddr 1 [] (some k)] s) := by
  unfold busRead1
  cases upcoming s 0 <;> simp [transacted_eq_issued]

theorem busRead2_eq (s : State) :
    busRead2 s = match upcoming s 0 with
      | .ok b0 b1 => .done (b0, b1) (issued [.read s.cfg.devAddr 2 [b0, b1] none] s)
      | .err k => .raised k (issued [.read s.cfg.devAddr 2 [] (some k)] s) := by
  unfold busRead2
  cases upcoming s 0 <;> simp [transacted_eq_issued]

/-! ### Register Access Layer -/

/-- Everything `ReadReg` can do (40_register_access.md rule R120). -/
theorem readReg_eq (k : RegKind) (p : Port) (s : State) :
    readReg k p s = match upcoming s 0 with
      | .err e => .raised e (issued [.write s.cfg.devAddr [subOf s.cfg k p] (some e)] s)
      | .ok _ _ => match upcoming s 1 with
        | .err e => .raised e (issued [evPoint s.cfg k p, .read s.cfg.devAddr 1 [] (some e)] s)
        | .ok b _ => .done b (issued [evPoint s.cfg k p, evRead1 s.cfg b] s) := by
  unfold readReg
  rw [busWrite_eq]
  cases upcoming s 0 with
  | err e => rfl
  | ok a b =>
    simp only [Ran.andThen_done, busRead1_eq, upcoming_issued, List.length_singleton, Nat.add_zero, issued_cfg]
    cases upcoming s 1 <;> simp [evPoint, evRead1]

/-- Everything `WriteReg` can do (rule R121). -/
theorem writeReg_eq (l : Latch) (p : Port) (v : Byte) (s : State) :
    writeReg l p v s = match upcoming s 0 with
      | .err e => .raised e (issued [.write s.cfg.devAddr [subOf s.cfg l.reg p, v] (some e)] s)
      | .ok _ _ => .done () (issued [evStore s.cfg l p v] s) := by
  unfold writeReg
  rw [busWrite_eq]
  cases upcoming s 0 <;> rfl

/-- Everything a cached write can do (10_state.md rule R34). -/
theorem writeCached_eq (l : Latch) (p : Port) (v : Byte) (s : State) :
    writeCached l p v s = match upcoming s 0 with
      | .err e => .raised (.busError e) (issued [.write s.cfg.devAddr [subOf s.cfg l.reg p, v] (some e)] s)
      | .ok _ _ => .done () (setCache l p v (issued [evStore s.cfg l p v] s)) := by
  unfold writeCached
  rw [writeReg_eq]
  cases upcoming s 0 <;> rfl

/-- A successful `BulkRead` in either mode (rules R122, R123). -/
theorem bulkRead_ok (k : RegKind) (s : State) (h : allOk (bulkCount s.cfg) s = true) :
    bulkRead k s = .done (bulkData s) (issued (bulkEvents k s) s) := by
  unfold bulkRead
  cases hm : s.cfg.bulkMode with
  | pair =>
    simp only [bulkCount, hm, allOk, List.range_succ, List.range_zero, List.nil_append, List.all_append, List.all_cons,
      List.all_nil, Bool.and_true, Bool.and_eq_true] at h
    simp only [busWrite_eq, busRead2_eq, bulkData, bulkEvents, hm]
    cases h0 : upcoming s 0 with
    | err e => simp [h0, replyOk] at h
    | ok a b =>
      cases h1 : upcoming s 1 with
      | err e => simp [h1, replyOk] at h
      | ok c d => simp [h1, evPoint, evRead2, byte0, byte1]
  | split =>
    simp only [bulkCount, hm, allOk, List.range_succ, List.range_zero, List.nil_append, List.all_cons,
      List.all_nil, Bool.and_true, Bool.and_eq_true, List.cons_append] at h
    simp only [readReg_eq, bulkData, bulkEvents, hm]
    cases h0 : upcoming s 0 with
    | err e => simp [h0, replyOk] at h
    | ok a b =>
      cases h1 : upcoming s 1 with
      | err e => simp [h1, replyOk] at h
      | ok c d =>
        cases h2 : upcoming s 2 with
        | err e => simp [h2, replyOk] at h
        | ok a' b' =>
          cases h3 : upcoming s 3 with
          | err e => simp [h3, replyOk] at h
          | ok c' d' => simp [h2, h3, evPoint, evRead1, byte0]

/-- A `BulkRead` whose transaction j is the first to fail: it stops there (rules R122, R123, R125). -/
theorem bulkRead_fails (k : RegKind) (s : State) (j : Nat) (e : TransportErrorKind) (hj : j < bulkCount s.cfg)
    (h : failsAt j e s = true) : bulkRead k s = .raised e (issued (cutAt j e (bulkEvents k s)) s) := by
  obtain ⟨hok, he⟩ := (failsAt_iff j e s).mp h
  unfold bulkRead
  cases hm : s.cfg.bulkMode with
  | pair =>
    simp only [bulkCount, hm] at hj
    simp only [busWrite_eq, busRead2_eq, bulkEvents, bulkData, hm]
    interval_cases j
    · simp [he, cutAt, failedWith, evPoint]
    · obtain ⟨a, b, h0⟩ := hok 0 (by omega)
      simp [he, h0, cutAt, failedWith, evPoint, evRead2]
  | split =>
    simp only [bulkCount, hm] at hj
    simp only [readReg_eq, bulkEvents, bulkData, hm]
    interval_cases j
    · simp [he, cutAt, failedWith, evPoint]
    · obtain ⟨a, b, h0⟩ := hok 0 (by omega)
      simp [he, h0, cutAt, failedWith, evPoint, evRead1]
    · obtain ⟨a, b, h0⟩ := hok 0 (by omega)
      obtain ⟨c, d, h1⟩ := hok 1 (by omega)
      simp [he, h0, h1, cutAt, failedWith, evPoint, evRead1, byte0]
    · obtain ⟨a, b, h0⟩ := hok 0 (by omega)
      obtain ⟨c, d, h1⟩ := hok 1 (by omega)
      obtain ⟨a', b', h2⟩ := hok 2 (by omega)
      simp [he, h0, h1, h2, cutAt, failedWith, evPoint, evRead1, byte0]

end Sys2Proof.Machine
end

