-- ==== Sys2Proof/Laws/Engine.lean ====
section
/-! SUPPORT. The channel table, the event queue and one channel's step, each said once. -/
namespace Sys2Proof.Machine

/-! ### The channel table -/

@[simp] theorem mem_channels (g : Engine) (k : Fin 16) : k ∈ channels g ↔ k.val < g.chCount.val := by
  simp [channels]

theorem channels_sorted (g : Engine) : (channels g).Pairwise (· < ·) := (List.pairwise_lt_finRange 16).filter _

theorem channels_length (g : Engine) : (channels g).length = g.chCount.val := by
  have : ∀ n : Fin 17, ((List.finRange 16).filter fun k => decide (k.val < n.val)).length = n.val := by decide
  exact this _

@[simp] theorem mapChannels_get (f : Fin 16 → Channel → Channel) (g : Engine) (k : Fin 16) :
    (mapChannels f g).ch[k] = f k g.ch[k] := by simp [mapChannels]

@[simp] theorem mapChannels_evq (f : Fin 16 → Channel → Channel) (g : Engine) : (mapChannels f g).evq = g.evq := rfl

@[simp] theorem mapChannels_running (f : Fin 16 → Channel → Channel) (g : Engine) :
    (mapChannels f g).running = g.running := rfl

@[simp] theorem mapChannels_chCount (f : Fin 16 → Channel → Channel) (g : Engine) :
    (mapChannels f g).chCount = g.chCount := rfl

@[simp] theorem tickChannels_evq (now : Word) (snap : PinMask) (g : Engine) :
    (tickChannels now snap g).evq = g.evq := rfl

@[simp] theorem tickChannels_evqOvf (now : Word) (snap : PinMask) (g : Engine) :
    (tickChannels now snap g).evqOvf = g.evqOvf := rfl

/-! ### The event queue (43_engine_tick.md rule R226) -/

/-- Everything emitting events does outside the queue: nothing. -/
theorem emitAll_keeps (evs : List Event) (g : Engine) :
    (emitAll g evs).ch = g.ch ∧ (emitAll g evs).running = g.running ∧ (emitAll g evs).chCount = g.chCount ∧
      (emitAll g evs).lpThr = g.lpThr ∧ (emitAll g evs).pollMs = g.pollMs ∧
      (emitAll g evs).lastTickErr = g.lastTickErr ∧ (emitAll g evs).lastTickTerr = g.lastTickTerr ∧
      (emitAll g evs).tickPending = g.tickPending := by
  induction evs generalizing g with
  | nil => simp [emitAll]
  | cons e evs ih =>
    have h := ih (emit g e)
    simp only [emitAll, List.foldl_cons] at h ⊢
    have he : (emit g e).ch = g.ch ∧ (emit g e).running = g.running ∧ (emit g e).chCount = g.chCount ∧
        (emit g e).lpThr = g.lpThr ∧ (emit g e).pollMs = g.pollMs ∧ (emit g e).lastTickErr = g.lastTickErr ∧
        (emit g e).lastTickTerr = g.lastTickTerr ∧ (emit g e).tickPending = g.tickPending := by
      unfold emit; split <;> simp
    simp_all

/-- Everything it does to a queue that fits. -/
theorem emitAll_queue (evs : List Event) (g : Engine) (h : g.evq.length ≤ 32) :
    (emitAll g evs).evq = (g.evq ++ evs).take 32 ∧
      (emitAll g evs).evqOvf = (g.evqOvf || decide (32 < g.evq.length + evs.length)) := by
  induction evs generalizing g with
  | nil => simp [emitAll, h]
  | cons e evs ih =>
    simp only [emitAll, List.foldl_cons] at ih ⊢
    by_cases hl : g.evq.length < 32
    · have he : emit g e = { g with evq := g.evq ++ [e] } := by simp [emit, Config.evqDepth, hl]
      obtain ⟨a, b⟩ := ih { g with evq := g.evq ++ [e] } (by simp; omega)
      rw [he, a, b]
      simp
      congr 1
      simp
      omega
    · have he : emit g e = { g with evqOvf := true } := by simp [emit, Config.evqDepth, hl]
      obtain ⟨a, b⟩ := ih { g with evqOvf := true } h
      rw [he, a, b]
      have : g.evq.length = 32 := by omega
      simp [this]

/-! ### One channel (43_engine_tick.md rules R214 to R222) -/

theorem toNat_elapsed (now : Word) (c : Channel) :
    (elapsed now c).toNat = (now.toNat + 2 ^ 32 - c.pressStart.toNat) % 2 ^ 32 := by
  simp only [elapsed, BitVec.toNat_sub]
  have := c.pressStart.isLt
  congr 1
  omega

@[simp] theorem channelStep_pin (thr now : Word) (snap : PinMask) (c : Channel) :
    (channelStep thr now snap c).pin = c.pin := by
  simp only [channelStep]
  split
  · rfl
  · split
    · rfl
    · split <;> rfl

/-- A channel's event carries its id and is no Chord. -/
theorem channelEvent_id {thr now : Word} {snap : PinMask} {k : Fin 16} {c : Channel} {ev : Event}
    (h : channelEvent thr now snap k c = some ev) : ev.channelId.toNat = k.val ∧ ev.kind ≠ .chord := by
  have hk : (BitVec.ofNat 8 k.val).toNat = k.val := by
    have := k.isLt
    simp
    omega
  simp only [channelEvent] at h
  split at h
  · cases h; exact ⟨hk, by simp [releaseEvent]⟩
  · split at h
    · cases h; exact ⟨hk, by simp [plainEvent]⟩
    · split at h
      · cases h; exact ⟨hk, by simp [plainEvent]⟩
      · cases h

/-- The bits of an accumulated member mask. -/
theorem memberMask_fold (ks : List (Fin 16)) (m : BitVec 16) (i : Nat) :
    (ks.foldl (fun m k => m ||| (1#16 <<< k.val)) m).getLsbD i = (m.getLsbD i || ks.any fun k => decide (k.val = i)) := by
  induction ks generalizing m with
  | nil => simp
  | cons a l ih =>
    have h : (1#16 <<< a.val).getLsbD i = decide (a.val = i) := by
      have := a.isLt
      simp
      grind
    rw [List.foldl_cons, ih, BitVec.getLsbD_or, h, List.any_cons, Bool.or_assoc]

end Sys2Proof.Machine
end

