-- ==== Sys2Proof/Laws/Traffic.lean ====
section
/-! SUPPORT. What a micro-operation puts on the bus, said once: legal transactions, as many as its rule gives when it succeeds, and none past the one that fails (20_memory.md rule R73, 60_exceptions.md rule R249). -/
namespace Sys2Proof.Machine

/-- `r`, started in `s`, kept the configuration, the host registers and the engine, and issued legal transactions: exactly
`n`, all `Ok`, when it succeeded; at most `n`, the last of them failed, when it raised, and then its error meets `bus`. -/
def Issues {ε α : Type} (bus : ε → Prop) (n : Nat) (s : State) (r : Ran ε α) : Prop :=
  r.state.cfg = s.cfg ∧ r.state.host = s.host ∧ r.state.eng = s.eng ∧
  ∃ evs : List BusEvent, r.state.env.busLog = s.env.busLog ++ evs ∧ evs.all (legalEvent s.cfg) = true ∧
    evs.length ≤ n ∧
    match r with
    | .done _ _ => evs.length = n ∧ evs.all eventOk = true
    | .raised e _ => bus e ∧ ∃ ev, evs.getLast? = some ev ∧ eventOk ev = false

/-! ### Each kind of transaction is legal -/

theorem legal_point (c : Config) (k : RegKind) (p : Port) (f : Option TransportErrorKind) :
    legalEvent c (.write c.devAddr [subOf c k p] f) = true := by
  cases k <;> cases p <;> simp [legalEvent, subAddresses, subOf]

theorem legal_store (c : Config) (l : Latch) (p : Port) (v : Byte) (f : Option TransportErrorKind) :
    legalEvent c (.write c.devAddr [subOf c l.reg p, v] f) = true := by
  cases l <;> cases p <;> simp [legalEvent, writableSubs, subOf, Latch.reg]

theorem legal_read1 (c : Config) (d : List Byte) (f : Option TransportErrorKind) :
    legalEvent c (.read c.devAddr 1 d f) = true := by simp [legalEvent]

theorem legal_read2 (c : Config) (d : List Byte) (f : Option TransportErrorKind) :
    legalEvent c (.read c.devAddr 2 d f) = true := by simp [legalEvent]

/-! ### Sequencing -/

theorem issues_done {ε α : Type} (bus : ε → Prop) (a : α) (s : State) : Issues bus 0 s (.done a s : Ran ε α) :=
  ⟨rfl, rfl, rfl, [], by simp, by simp, by simp, by simp⟩

theorem issues_andThen {ε α β : Type} {bus : ε → Prop} {n m : Nat} {s : State} {r : Ran ε α}
    {f : α → State → Ran ε β} (h : Issues bus n s r) (hf : ∀ a t, r = .done a t → Issues bus m t (f a t)) :
    Issues bus (n + m) s (r.andThen f) := by
  cases r with
  | raised e t =>
    obtain ⟨h1, h2, h3, evs, h4, h5, h6, h7⟩ := h
    exact ⟨h1, h2, h3, evs, h4, h5, by omega, h7⟩
  | done a t =>
    obtain ⟨h1, h2, h3, evs, h4, h5, h6, h7, h8⟩ := h
    obtain ⟨g1, g2, g3, evs', g4, g5, g6, g7⟩ := hf a t rfl
    simp only [Ran.state_done] at h1 h2 h3 h4
    simp only [Ran.andThen_done]
    refine ⟨g1.trans h1, g2.trans h2, g3.trans h3, evs ++ evs', by rw [g4, h4, List.append_assoc], ?_, by simp; omega, ?_⟩
    · rw [h1] at g5
      rw [List.all_append, h5, g5, Bool.and_self]
    · cases hc : f a t with
      | done b u =>
        rw [hc] at g7
        simp [g7.1, h7, h8, g7.2]
      | raised e u =>
        rw [hc] at g7
        obtain ⟨p, ev, q, r⟩ := g7
        exact ⟨p, ev, by simp [q], r⟩

theorem issues_wrap {ε ε' α : Type} {bus : ε → Prop} {bus' : ε' → Prop} {n : Nat} {s : State} {r : Ran ε α}
    (g : ε → ε') (h : Issues bus n s r) (hb : ∀ e, bus e → bus' (g e)) : Issues bus' n s (r.wrap g) := by
  cases r with
  | done a t => exact h
  | raised e t =>
    obtain ⟨h1, h2, h3, evs, h4, h5, h6, h7, h8⟩ := h
    exact ⟨h1, h2, h3, evs, h4, h5, h6, hb _ h7, h8⟩

/-! ### The micro-operations -/

theorem pointer_issues (k : RegKind) (p : Port) (s : State) :
    Issues (fun _ => True) 1 s (busWrite [subOf s.cfg k p] s) := by
  rw [busWrite_eq]
  cases upcoming s 0 with
  | err e => exact ⟨rfl, rfl, rfl, _, rfl, by simp [legal_point], by simp, by simp [eventOk]⟩
  | ok a b => exact ⟨rfl, rfl, rfl, _, rfl, by simp [legal_point], by simp, by simp [eventOk]⟩

theorem busRead2_issues (s : State) : Issues (fun _ => True) 1 s (busRead2 s) := by
  rw [busRead2_eq]
  cases upcoming s 0 with
  | err e => exact ⟨rfl, rfl, rfl, _, rfl, by simp [legal_read2], by simp, by simp [eventOk]⟩
  | ok a b => exact ⟨rfl, rfl, rfl, _, rfl, by simp [legal_read2], by simp, by simp [eventOk]⟩

theorem readReg_issues (k : RegKind) (p : Port) (s : State) : Issues (fun _ => True) 2 s (readReg k p s) := by
  rw [readReg_eq]
  cases upcoming s 0 with
  | err e => exact ⟨rfl, rfl, rfl, _, rfl, by simp [legal_point], by simp, by simp [eventOk]⟩
  | ok a b =>
    cases upcoming s 1 with
    | err e => exact ⟨rfl, rfl, rfl, _, rfl, by simp [legal_point, evPoint, legal_read1], by simp, by simp [eventOk]⟩
    | ok c d =>
      exact ⟨rfl, rfl, rfl, _, rfl, by simp [legal_point, evPoint, legal_read1, evRead1], by simp,
        by simp [evPoint, evRead1, eventOk]⟩

theorem bulkRead_issues (k : RegKind) (s : State) : Issues (fun _ => True) (bulkCount s.cfg) s (bulkRead k s) := by
  unfold bulkRead bulkCount
  cases h : s.cfg.bulkMode with
  | pair => exact issues_andThen (pointer_issues k .p0 s) fun _ t _ => busRead2_issues t
  | split =>
    exact issues_andThen (m := 2) (readReg_issues k .p0 s) fun _ t _ =>
      issues_andThen (m := 0) (readReg_issues k .p1 t) fun _ _ _ => issues_done _ _ _

theorem writeCached_issues (l : Latch) (p : Port) (v : Byte) (s : State) :
    Issues (fun e => ∃ k, e = Raise.busError k) 1 s (writeCached l p v s) := by
  rw [writeCached_eq]
  cases upcoming s 0 with
  | err e => exact ⟨rfl, rfl, rfl, _, rfl, by simp [legal_store], by simp, by simp [eventOk]⟩
  | ok a b =>
    exact ⟨by simp, by simp [issued], by simp, [evStore s.cfg l p v], by simp [afterBus], by simp [evStore, legal_store], by simp,
      by simp [eventOk, evStore]⟩

theorem rmw_issues (l : Latch) (p : Port) (f : Byte → Byte) (s : State) :
    Issues (fun e => ∃ k, e = Raise.busError k)
      (match s.cfg.rmwSource with
        | .hardware => 3
        | .cache => 1) s (rmw l p f s) := by
  unfold rmw rmwOld
  cases s.cfg.rmwSource with
  | hardware =>
    exact issues_andThen (issues_wrap (bus' := fun e => ∃ k, e = Raise.busError k) .busError
      (readReg_issues l.reg p s) fun e _ => ⟨e, rfl⟩) fun a t _ => writeCached_issues l p (f a) t
  | cache => exact writeCached_issues l p _ s

theorem writePair_issues (l : Latch) (m0 m1 : Byte) (s : State) :
    Issues (fun e => ∃ k, e = Raise.busError k) 2 s (writePair l m0 m1 s) :=
  issues_andThen (writeCached_issues l .p0 m0 s) fun _ t _ => writeCached_issues l .p1 m1 t

end Sys2Proof.Machine
end

