-- ==== Sys2Proof/Laws/Commands.lean ====
section
/-! SUPPORT. What exec and step can do, each said once: a command is its body inside the frame, and a step is one agent's move. -/
namespace Sys2Proof.Machine

/-! ### exec is the frame around a body -/

/-- The body of a pin command. -/
def pinBody (l : Latch) (pin : Byte) (f : Nat → Byte → Byte) (s : State) : Ran Raise Unit :=
  if pinOk pin then rmw l (portOf pin.toNat) (f (bitOf pin.toNat)) s else .raised .invalidPin s

/-- The body of each command. -/
def commandBody (i : Instr) : State → Ran Raise Unit :=
  match i with
  | .init => initBody
  | .setdir pin dir => pinBody .cfg pin fun j => putb j dir
  | .setpdir m0 m1 => writePair .cfg m0 m1
  | .setlvl pin level => pinBody .out pin fun j => putb j level
  | .setplvl m0 m1 => writePair .out m0 m1
  | .getlvl pin => getlvlBody pin
  | .getplvl => bulkToRes .input observeBoth
  | .getout => bulkToRes .output fun _ _ s => s
  | .getcfg => bulkToRes .config fun _ _ s => s
  | .toggle pin => pinBody .out pin flipb
  | .rdcache => rdcacheBody
  | .eclr => eclrBody
  | .eadd pin => eaddBody pin
  | .ethr ms => ethrBody ms
  | .eper ms => eperBody ms
  | .estart => estartBody
  | .estop => estopBody
  | .etick => etickBody
  | .epop => epopBody
  | .estat => estatBody

/-- The model fault of a command (60_exceptions.md rule R253): only the three pin commands have one. -/
def commandFaults (i : Instr) (s : State) : Bool :=
  match i with
  | .setdir pin _ => pinOk pin && rmwFaults .cfg (portOf pin.toNat) s
  | .setlvl pin _ | .toggle pin => pinOk pin && rmwFaults .out (portOf pin.toNat) s
  | .init | .setpdir _ _ | .setplvl _ _ | .getlvl _ | .getplvl | .getout | .getcfg | .rdcache => false
  | .eclr | .eadd _ | .ethr _ | .eper _ | .estart | .estop | .etick | .epop | .estat => false

/-- Everything exec can do. -/
theorem exec_eq (i : Instr) (s : State) :
    exec i s = if commandFaults i s then .fault .cacheUnwritten else runCommand (commandBody i) s := by
  cases i <;> rfl

/-- exec answers a next state exactly when the command has no model fault, and then it is the framed body's. -/
theorem exec_next_iff (i : Instr) (s t : State) :
    exec i s = .next t ↔ commandFaults i s = false ∧ t = finish (commandBody i (clearRes s)) := by
  rw [exec_eq]
  cases h : commandFaults i s
  · simp [runCommand, eq_comm]
  · simp

/-! ### What a body puts on the bus -/

/-- A body kept the configuration and issued legal transactions: exactly `n`, all `Ok`, when it succeeded; when it raised a bus
error at most `n`, the last of them failed; when it raised any other error, none. -/
def BodyIssues (n : Nat) (s : State) (r : Ran Raise Unit) : Prop :=
  r.state.cfg = s.cfg ∧ ∃ evs : List BusEvent, r.state.env.busLog = s.env.busLog ++ evs ∧
    evs.all (legalEvent s.cfg) = true ∧ evs.length ≤ n ∧
    match r with
    | .done _ _ => evs.length = n ∧ evs.all eventOk = true
    | .raised e _ =>
      ((errCode e = 0x01 ∨ errCode e = 0x02) ∧ ∃ ev, evs.getLast? = some ev ∧ eventOk ev = false) ∨
        (3 ≤ (errCode e).toNat ∧ evs = [])

theorem Ran.andThen_assoc {ε α β γ : Type} (r : Ran ε α) (f : α → State → Ran ε β) (g : β → State → Ran ε γ) :
    (r.andThen f).andThen g = r.andThen fun a s => (f a s).andThen g := by cases r <;> rfl

/-- The errors a failed transaction raises (40_register_access.md rule R125). -/
def IsBusError (e : Raise) : Prop := ∃ k, e = .busError k ∨ e = .chipNotFound k

theorem bodyIssues_of_issues {n : Nat} {s : State} {r : Ran Raise Unit} (h : Issues IsBusError n s r) :
    BodyIssues n s r := by
  obtain ⟨h1, _, _, evs, h4, h5, h6, h7⟩ := h
  refine ⟨h1, evs, h4, h5, h6, ?_⟩
  cases r with
  | done a t => exact h7
  | raised e t =>
    obtain ⟨⟨k, h | h⟩, g⟩ := h7 <;> subst h <;> exact Or.inl ⟨by simp [errCode], g⟩

theorem bodyIssues_raised (n : Nat) (s : State) (e : Raise) (h : 3 ≤ (errCode e).toNat) :
    BodyIssues n s (.raised e s) := ⟨rfl, [], by simp, by simp, by simp, Or.inr ⟨h, rfl⟩⟩

theorem bodyIssues_done (s t : State) (h : t.cfg = s.cfg) (h' : t.env = s.env) : BodyIssues 0 s (.done () t) :=
  ⟨h, [], by simp [h'], by simp, by simp, by simp⟩

/-- Writing the block's own registers after the last transaction issues nothing. -/
theorem bodyIssues_update {α : Type} {n : Nat} {s : State} {r : Ran Raise α} (u : α → State → State)
    (hu : ∀ a t, (u a t).cfg = t.cfg ∧ (u a t).env = t.env) (h : Issues IsBusError n s r) :
    BodyIssues n s (r.andThen fun a t => .done () (u a t)) := by
  cases r with
  | raised e t => exact bodyIssues_of_issues (r := .raised e t) h
  | done a t =>
    obtain ⟨h1, _, _, evs, h4, h5, h6, h7⟩ := h
    exact ⟨(hu a t).1.trans h1, evs, by simpa [(hu a t).2] using h4, h5, h6, h7⟩

theorem issues_busError {α : Type} {n : Nat} {s : State} {r : Ran TransportErrorKind α}
    (h : Issues (fun _ => True) n s r) : Issues IsBusError n s (r.wrap .busError) :=
  issues_wrap _ h fun e _ => ⟨e, Or.inl rfl⟩

theorem issues_isBusError {α : Type} {n : Nat} {s : State} {r : Ran Raise α}
    (h : Issues (fun e => ∃ k, e = Raise.busError k) n s r) : Issues IsBusError n s r := by
  obtain ⟨h1, h2, h3, evs, h4, h5, h6, h7⟩ := h
  refine ⟨h1, h2, h3, evs, h4, h5, h6, ?_⟩
  cases r with
  | done a t => exact h7
  | raised e t => obtain ⟨⟨k, h⟩, g⟩ := h7; exact ⟨⟨k, Or.inl h⟩, g⟩

theorem initBody_issues (s : State) : BodyIssues 6 s (initBody s) := by
  unfold initBody
  split
  · exact bodyIssues_raised _ _ _ (by decide)
  · have h : Issues IsBusError 6 (setInitDone false s) ((probe (setInitDone false s)).andThen fun _ s =>
        (writePair .cfg 0xFF 0xFF s).andThen fun _ s => writePair .out 0x00 0x00 s) := by
      refine issues_andThen (n := 2) (m := 4) ?_ fun _ t _ => issues_andThen (n := 2) (m := 2)
        (issues_isBusError (writePair_issues _ _ _ t)) fun _ u _ => issues_isBusError (writePair_issues _ _ _ u)
      exact issues_andThen (n := 2) (m := 0) (issues_wrap _ (readReg_issues _ _ _) fun e _ => ⟨e, Or.inr rfl⟩)
        fun _ t _ => issues_done _ _ _
    have h' : BodyIssues 6 s _ := bodyIssues_update (fun (_ : Unit) s => setInitDone true s) (fun _ _ => ⟨rfl, rfl⟩) h
    simp only [Ran.andThen_assoc] at h'
    exact h'

theorem tick_issues (s : State) : BodyIssues (bulkCount s.cfg) s (tick s) := by
  obtain ⟨h1, _, _, evs, h4, h5, h6, h7⟩ := bulkRead_issues .input (sampledNow s)
  unfold tick
  cases hb : bulkRead .input (sampledNow s) with
  | done b t =>
    rw [hb] at h1 h4 h7
    exact ⟨h1, evs, h4, h5, h6, h7⟩
  | raised k t =>
    rw [hb] at h1 h4 h7
    exact ⟨h1, evs, h4, h5, h6, Or.inl ⟨by simp [errCode], h7.2⟩⟩

theorem pinBody_issues (l : Latch) (pin : Byte) (f : Nat → Byte → Byte) (s : State) :
    BodyIssues (match s.cfg.rmwSource with
      | .hardware => 3
      | .cache => 1) s (pinBody l pin f s) := by
  unfold pinBody
  cases hp : pinOk pin
  · exact bodyIssues_raised _ _ .invalidPin (by decide)
  · exact bodyIssues_of_issues (issues_isBusError (rmw_issues l _ _ s))

theorem bulkToRes_issues (k : RegKind) (seen : Byte → Byte → State → State)
    (hs : ∀ a b t, (seen a b t).cfg = t.cfg ∧ (seen a b t).env = t.env) (s : State) :
    BodyIssues (bulkCount s.cfg) s (bulkToRes k seen s) :=
  bodyIssues_update (fun (b : Byte × Byte) s => setRes ((packPorts b.1 b.2).setWidth 32) 0 0 0 (seen b.1 b.2 s))
    (fun b t => hs b.1 b.2 t) (issues_busError (bulkRead_issues k s))

theorem getlvlBody_issues (pin : Byte) (s : State) : BodyIssues 2 s (getlvlBody pin s) := by
  unfold getlvlBody
  split
  · exact bodyIssues_update _ (fun _ _ => ⟨rfl, rfl⟩) (issues_busError (readReg_issues _ _ _))
  · exact bodyIssues_raised _ _ _ (by decide)

theorem eaddBody_issues (pin : Byte) (s : State) : BodyIssues 0 s (eaddBody pin s) := by
  have hr := fun e h => bodyIssues_raised 0 s e h
  have hd := bodyIssues_done s (withEngine (addChannel (pin.setWidth 4) s.eng) s) rfl rfl
  unfold eaddBody
  generalize withEngine (addChannel (pin.setWidth 4) s.eng) s = t at hd ⊢
  generalize hasPin s.eng (pin.setWidth 4) = h
  cases s.eng.running
  · cases pinOk pin
    · exact hr .invalidPin (by decide)
    · by_cases hc : s.eng.chCount.val = Config.nChMax
      · simp only [hc, Bool.not_true, Bool.false_eq_true, if_true, if_false]
        exact hr .invalidChannelConfig (by decide)
      · simp only [hc, Bool.not_true, Bool.false_eq_true, if_false]
        cases h
        · exact hd
        · exact hr .invalidChannelConfig (by decide)
  · exact hr .engineRunning (by decide)

theorem estartBody_issues (s : State) : BodyIssues 0 s (estartBody s) := by
  have hr := fun e h => bodyIssues_raised 0 s e h
  have hd := bodyIssues_done s (withEngine (started s.eng) s) rfl rfl
  unfold estartBody
  generalize withEngine (started s.eng) s = t at hd ⊢
  generalize ((channels s.eng).all fun k => cachedInput s.exp s.eng.ch[k].pin) = h
  cases s.eng.running
  · cases s.exp.initDone
    · exact hr .invalidChannelConfig (by decide)
    · by_cases hc : s.eng.chCount.val = 0
      · simp only [hc, Bool.not_true, Bool.false_eq_true, if_true, if_false]
        exact hr .invalidChannelConfig (by decide)
      · simp only [hc, Bool.not_true, Bool.false_eq_true, if_false]
        cases h
        · exact hr .invalidChannelConfig (by decide)
        · exact hd
  · exact hr .engineRunning (by decide)

/-- Every command's body issues what its row of the table says (70_reset_and_hazards.md rule R302). -/
theorem commandBody_issues (i : Instr) (s : State) : BodyIssues (transactionCount s.cfg i) s (commandBody i s) := by
  cases i with
  | init => exact initBody_issues s
  | setdir pin b => exact pinBody_issues .cfg pin (fun j => putb j b) s
  | setlvl pin b => exact pinBody_issues .out pin (fun j => putb j b) s
  | toggle pin => exact pinBody_issues .out pin flipb s
  | setpdir a b => exact bodyIssues_of_issues (issues_isBusError (writePair_issues .cfg a b s))
  | setplvl a b => exact bodyIssues_of_issues (issues_isBusError (writePair_issues .out a b s))
  | getlvl pin => exact getlvlBody_issues pin s
  | getplvl => exact bulkToRes_issues .input observeBoth (fun _ _ _ => ⟨rfl, rfl⟩) s
  | getout => exact bulkToRes_issues .output (fun _ _ s => s) (fun _ _ _ => ⟨rfl, rfl⟩) s
  | getcfg => exact bulkToRes_issues .config (fun _ _ s => s) (fun _ _ _ => ⟨rfl, rfl⟩) s
  | rdcache => exact bodyIssues_done s _ rfl rfl
  | etick =>
    show BodyIssues _ s (if s.eng.running then tick s else _)
    cases s.eng.running
    · exact bodyIssues_raised _ _ .engineNotRunning (by decide)
    · exact tick_issues s
  | eclr =>
    show BodyIssues _ s (if s.eng.running then _ else _)
    cases s.eng.running
    · exact bodyIssues_done s _ rfl rfl
    · exact bodyIssues_raised _ _ .engineRunning (by decide)
  | eadd pin => exact eaddBody_issues pin s
  | ethr ms =>
    show BodyIssues _ s (if s.eng.running then _ else _)
    cases s.eng.running
    · exact bodyIssues_done s _ rfl rfl
    · exact bodyIssues_raised _ _ .engineRunning (by decide)
  | eper ms => exact bodyIssues_done s _ rfl rfl
  | estart => exact estartBody_issues s
  | estop => exact bodyIssues_done s _ rfl rfl
  | epop =>
    show BodyIssues 0 s (epopBody s)
    unfold epopBody
    cases h : s.eng.evq with
    | nil => exact bodyIssues_raised _ _ .queueEmpty (by decide)
    | cons ev rest => exact bodyIssues_done s _ rfl rfl
  | estat => exact bodyIssues_done s _ rfl rfl

/-! ### step is one agent's move -/

/-- Everything a step that answers can have done: nothing, with no move to take, or one agent's move. -/
theorem step_next {s t : State} (h : step s = .next t) :
    configWf s.cfg = true ∧
      ((s.env.agenda = [] ∧ t = s) ∨ ∃ a rest, s.env.agenda = a :: rest ∧ act a (takeMove s) = .next t) := by
  unfold step at h
  split at h
  · rename_i hc
    refine ⟨hc, ?_⟩
    unfold nextMove at h
    split at h
    · rename_i ha
      cases h
      exact Or.inl ⟨ha, rfl⟩
    · rename_i a rest ha
      exact Or.inr ⟨a, rest, ha, h⟩
  · cases h

/-- A reset during an operation, when it answers, leaves what a reset after some of some operation's transactions leaves. -/
theorem resetDuring_next {op : Operation} {n : Nat} {s t : State} (h : resetDuring op n s = .next t) :
    ∃ (u : State) (m : Nat), t = resetAfter m s u := by
  unfold resetDuring at h
  split at h
  · cases h; exact ⟨_, _, rfl⟩
  · split at h
    · cases h; exact ⟨_, _, rfl⟩
    · cases h
  · split at h
    · cases h; exact ⟨_, _, rfl⟩
    · cases h

/-- An invariant of the block that holds at its reset, does not depend on the surroundings' inputs, and that every command's
body and every tick keep, is kept by every step: the one induction on moves each invariant needs. -/
theorem step_keeps {P : State → Prop}
    (hcmd : ∀ i s t, configWf s.cfg = true → P s → exec i s = .next t → P t)
    (hillegal : ∀ s, P s → P (finish (.raised .illegalCommand (clearRes s))))
    (htick : ∀ s, configWf s.cfg = true → P s → P (tick s).state)
    (hpend : ∀ (b : Bool) s, P s → P (withEngine { s.eng with tickPending := b } s))
    (htake : ∀ s, P s → P (takeMove s))
    (hread : ∀ r s, P s → P (hostReadReg r s))
    (hreset : ∀ s, P (resetBlock s))
    (hafter : ∀ n s t, P (resetAfter n s t))
    {s t : State} (hs : P s) (h : step s = .next t) : P t := by
  obtain ⟨hc, ⟨_, rfl⟩ | ⟨a, rest, _, ha⟩⟩ := step_next h
  · exact hs
  · have hp := htake s hs
    have hc' : configWf (takeMove s).cfg = true := hc
    cases a with
    | cmdWrite w =>
      simp only [act, runWord] at ha
      split at ha
      · exact hcmd _ _ _ hc' hp ha
      · cases ha
        exact hillegal _ hp
    | cmdPartialWrite b => cases ha
    | hostRead r => cases ha; exact hread r _ hp
    | timerRequest =>
      cases ha
      unfold timerRequest
      split
      · exact hpend true _ hp
      · exact hp
    | timerTurn =>
      cases ha
      unfold timerTurn
      split
      · split
        · exact htick _ hc' (hpend false _ hp)
        · exact hpend false _ hp
      · exact hp
    | reset => cases ha; exact hreset _
    | resetDuring op n =>
      obtain ⟨u, m, rfl⟩ := resetDuring_next ha
      exact hafter m _ u

end Sys2Proof.Machine
end

