-- ==== Sys2Proof/Laws/Cache.lean ====
section
/-! SUPPORT. Write-then-cache (10_state.md rule R34), said once for each micro-operation and for every command's body: the cache follows the successful writes and nothing else. -/
namespace Sys2Proof.Machine

/-- From s to t the cache followed the successful writes logged between. -/
def Follows (s t : State) : Prop :=
  t.cfg = s.cfg ∧ ∃ evs : List BusEvent, t.env.busLog = s.env.busLog ++ evs ∧ ∀ (l : Latch) (p : Port),
    match lastStore s.cfg l p evs with
    | some v => cached l p t = v ∧ cacheValid l p t = true
    | none => cached l p t = cached l p s ∧ cacheValid l p t = cacheValid l p s

theorem lastStore_append (c : Config) (l : Latch) (p : Port) (xs ys : List BusEvent) :
    lastStore c l p (xs ++ ys) = (lastStore c l p ys).or (lastStore c l p xs) := by
  simp [lastStore, List.findSome?_append]

theorem Follows.trans {s t u : State} (h : Follows s t) (g : Follows t u) : Follows s u := by
  obtain ⟨h1, e1, h2, h3⟩ := h
  obtain ⟨g1, e2, g2, g3⟩ := g
  refine ⟨g1.trans h1, e1 ++ e2, by rw [g2, h2, List.append_assoc], fun l p => ?_⟩
  have a := h3 l p; have b := g3 l p
  rw [h1] at b
  rw [lastStore_append]
  revert a b
  cases lastStore s.cfg l p e2 <;> cases lastStore s.cfg l p e1 <;> simp <;> grind

theorem follows_same {s t : State} (h : t.cfg = s.cfg) (hb : t.env.busLog = s.env.busLog)
    (hc : ∀ l p, cached l p t = cached l p s ∧ cacheValid l p t = cacheValid l p s) : Follows s t :=
  ⟨h, [], by simp [hb], fun l p => by simpa [lastStore] using hc l p⟩

theorem follows_exp {s t : State} (h : t.cfg = s.cfg) (hb : t.env.busLog = s.env.busLog)
    (h1 : t.exp.cacheDir = s.exp.cacheDir) (h2 : t.exp.cacheOut = s.exp.cacheOut)
    (h3 : t.exp.dirValid = s.exp.dirValid) (h4 : t.exp.outValid = s.exp.outValid) : Follows s t :=
  follows_same h hb fun l p => by cases l <;> simp [cached, cacheValid, h1, h2, h3, h4]

theorem follows_issue {s : State} (evs : List BusEvent) (h : ∀ l p, lastStore s.cfg l p evs = none) :
    Follows s (issued evs s) := ⟨rfl, evs, rfl, fun l p => by rw [h]; exact ⟨cached_of_exp _ _ rfl, cacheValid_of_exp _ _ rfl⟩⟩

theorem subOf_inj {c : Config} (h : configWf c = true) {l m : Latch} {p q : Port}
    (e : subOf c l.reg p = subOf c m.reg q) : l = m ∧ p = q := by
  simp only [configWf, subsDistinct, Bool.and_eq_true, decide_eq_true_eq] at h
  have := h.1
  simp only [List.nodup_cons, List.mem_cons, not_or] at this
  cases l <;> cases m <;> cases p <;> cases q <;> simp_all [subOf, Latch.reg]

theorem readReg_follows (k p) (s : State) : Follows s (readReg k p s).state := by
  rw [readReg_eq]
  cases upcoming s 0 with
  | err e => exact follows_issue _ fun l p => rfl
  | ok a b =>
    cases upcoming s 1 with
    | err e => exact follows_issue _ fun l p => rfl
    | ok a b => exact follows_issue _ fun l p => rfl

theorem writeCached_follows (l p v) (s : State) (hw : configWf s.cfg = true) : Follows s (writeCached l p v s).state := by
  rw [writeCached_eq]
  cases upcoming s 0 with
  | err e => exact follows_issue _ fun l p => rfl
  | ok a b =>
    refine ⟨by simp, [evStore s.cfg l p v], by simp [afterBus], fun m q => ?_⟩
    by_cases hm : m = l ∧ q = p
    · obtain ⟨rfl, rfl⟩ := hm
      simp [lastStore, storedValue, evStore]
    · have : subOf s.cfg l.reg p ≠ subOf s.cfg m.reg q := fun e => hm ((subOf_inj hw e).imp Eq.symm Eq.symm)
      simp only [lastStore, storedValue, evStore, List.reverse_singleton, List.findSome?_cons, List.findSome?_nil, if_neg this, Ran.state_done,
        cached_setCache_other _ _ _ _ _ _ hm, cacheValid_setCache_other _ _ _ _ _ _ hm]
      exact ⟨cached_of_exp _ _ rfl, cacheValid_of_exp _ _ rfl⟩

theorem follows_andThen {ε α β} {s : State} {r : Ran ε α} {f : α → State → Ran ε β} (hw : configWf s.cfg = true) (h : Follows s r.state)
    (hf : ∀ a t, configWf t.cfg = true → Follows t (f a t).state) : Follows s (r.andThen f).state := by
  cases r with
  | raised e t => exact h
  | done a t => exact h.trans (hf a t (by rw [show t.cfg = s.cfg from h.1]; exact hw))

/-- Wrapping a failure keeps the state it left. -/
theorem wrap_state {ε ε' α} (g : ε → ε') (r : Ran ε α) : (r.wrap g).state = r.state := by cases r <;> rfl

theorem bulkRead_follows (k) (s : State) (hw : configWf s.cfg = true) : Follows s (bulkRead k s).state := by
  unfold bulkRead
  split
  · refine follows_andThen hw ?_ fun _ t _ => ?_
    · rw [busWrite_eq]; cases upcoming s 0 <;> exact follows_issue _ fun l p => rfl
    · rw [busRead2_eq]; cases upcoming t 0 <;> exact follows_issue _ fun l p => rfl
  · refine follows_andThen hw (readReg_follows _ _ _) fun _ _ ht => follows_andThen ht (readReg_follows _ _ _) fun _ _ _ => ?_
    exact follows_exp rfl rfl rfl rfl rfl rfl

theorem rmw_follows (l p f) (s : State) (hw : configWf s.cfg = true) : Follows s (rmw l p f s).state := by
  unfold rmw
  refine follows_andThen hw ?_ fun a t ht => writeCached_follows _ _ _ _ ht
  unfold rmwOld
  split
  · rw [wrap_state]; exact readReg_follows _ _ _
  · exact follows_exp rfl rfl rfl rfl rfl rfl

theorem writePair_follows (l a b) (s : State) (hw : configWf s.cfg = true) : Follows s (writePair l a b s).state :=
  follows_andThen hw (writeCached_follows _ _ _ _ hw) fun _ _ ht => writeCached_follows _ _ _ _ ht

theorem follows_rfl (s : State) : Follows s s := follows_exp rfl rfl rfl rfl rfl rfl

/-- Every command's body. -/
theorem body_follows (i : Instr) (s : State) (hw : configWf s.cfg = true) : Follows s (commandBody i s).state := by
  have pin : ∀ l q f, Follows s (pinBody l q f s).state := by
    intro l q f; unfold pinBody; split
    · exact rmw_follows _ _ _ _ hw
    · exact follows_rfl s
  have bulk : ∀ k seen, (∀ a b t, Follows t (seen a b t)) → Follows s (bulkToRes k seen s).state := by
    intro k seen hs
    refine follows_andThen hw (by rw [wrap_state]; exact bulkRead_follows k s hw) fun b t _ => (hs b.1 b.2 t).trans ?_
    exact follows_exp rfl rfl rfl rfl rfl rfl
  cases i with
  | init =>
    show Follows s (initBody s).state
    unfold initBody
    split
    · exact follows_rfl s
    · refine Follows.trans (t := setInitDone false s) (follows_exp rfl rfl rfl rfl rfl rfl) ?_
      refine follows_andThen hw ?_ fun _ t ht => follows_andThen ht (writePair_follows _ _ _ _ ht) fun _ u hu =>
        follows_andThen hu (writePair_follows _ _ _ _ hu) fun _ v _ => follows_exp rfl rfl rfl rfl rfl rfl
      unfold probe
      refine follows_andThen hw (by rw [wrap_state]; exact readReg_follows _ _ _) fun _ t _ => follows_rfl t
  | setdir q b => exact pin .cfg q fun j => putb j b
  | setlvl q b => exact pin .out q fun j => putb j b
  | toggle q => exact pin .out q flipb
  | setpdir a b => exact writePair_follows _ _ _ _ hw
  | setplvl a b => exact writePair_follows _ _ _ _ hw
  | getlvl q =>
    show Follows s (getlvlBody q s).state
    unfold getlvlBody; split
    · refine follows_andThen hw (by rw [wrap_state]; exact readReg_follows _ _ _) fun _ t _ => follows_exp rfl rfl rfl rfl rfl rfl
    · exact follows_rfl s
  | getplvl => exact bulk _ _ fun a b t => follows_exp rfl rfl rfl rfl rfl rfl
  | getout => exact bulk _ _ fun a b t => follows_rfl t
  | getcfg => exact bulk _ _ fun a b t => follows_rfl t
  | etick =>
    show Follows s (etickBody s).state
    unfold etickBody
    split
    · have h : Follows s (sampledNow s) := follows_exp rfl rfl rfl rfl rfl rfl
      have g := bulkRead_follows .input (sampledNow s) hw
      unfold tick
      cases hb : bulkRead .input (sampledNow s) with
      | done b t => rw [hb] at g; exact (h.trans g).trans (follows_exp rfl rfl rfl rfl rfl rfl)
      | raised e t => rw [hb] at g; exact (h.trans g).trans (follows_exp rfl rfl rfl rfl rfl rfl)
    · exact follows_rfl s
  | rdcache => exact follows_exp rfl rfl rfl rfl rfl rfl
  | eclr =>
    show Follows s (eclrBody s).state
    unfold eclrBody; split <;> exact follows_exp rfl rfl rfl rfl rfl rfl
  | eadd q =>
    show Follows s (eaddBody q s).state
    unfold eaddBody; repeat' split
    all_goals exact follows_exp rfl rfl rfl rfl rfl rfl
  | ethr q =>
    show Follows s (ethrBody q s).state
    unfold ethrBody; split <;> exact follows_exp rfl rfl rfl rfl rfl rfl
  | eper q => exact follows_exp rfl rfl rfl rfl rfl rfl
  | estart =>
    show Follows s (estartBody s).state
    unfold estartBody; repeat' split
    all_goals exact follows_exp rfl rfl rfl rfl rfl rfl
  | estop => exact follows_exp rfl rfl rfl rfl rfl rfl
  | epop =>
    show Follows s (epopBody s).state
    unfold epopBody; split <;> exact follows_exp rfl rfl rfl rfl rfl rfl
  | estat => exact follows_exp rfl rfl rfl rfl rfl rfl

end Sys2Proof.Machine
end

