-- ==== Sys2Proof/Laws/Encoding.lean ====
section
/-! SUPPORT. The fields of a word of each format, and that its must-be-zero bits are zero (30_encoding.md rules R90, R92). -/
namespace Sys2Proof

theorem wordZ_fields (m : Mnemonic) : fieldOpc (wordZ m) = opcodeOf m ∧ mbzSet .z (wordZ m) = false := by
  cases m <;> decide

theorem wordP_fields (m : Mnemonic) (pin : Byte) :
    fieldOpc (wordP m pin) = opcodeOf m ∧ fieldA (wordP m pin) = pin ∧ mbzSet .p (wordP m pin) = false := by
  refine ⟨?_, ?_, ?_⟩
  · apply BitVec.eq_of_getLsbD_eq; intro i hi; simp [fieldOpc, wordP]; grind
  · apply BitVec.eq_of_getLsbD_eq; intro i hi; simp [fieldA, wordP]; grind
  · simp only [mbzSet, bne_eq_false_iff_eq, maskFree, wordP]
    rw [show (~~~(0x00FF0000 : Word)) = ((0xFF#8 ++ 0x00#8) ++ 0xFFFF#16) from by decide,
      show (0x00FFFFFF : Word) = ((0x00#8 ++ 0xFF#8) ++ 0xFFFF#16) from by decide]
    rw [BitVec.and_append, BitVec.and_append, BitVec.and_append, BitVec.and_append]
    simp

theorem wordPB_fields (m : Mnemonic) (pin : Byte) (b : Bool) :
    fieldOpc (wordPB m pin b) = opcodeOf m ∧ fieldA (wordPB m pin b) = pin ∧ fieldVal (wordPB m pin b) = b ∧
      mbzSet .pb (wordPB m pin b) = false := by
  refine ⟨?_, ?_, ?_, ?_⟩
  · apply BitVec.eq_of_getLsbD_eq; intro i hi; simp [fieldOpc, wordPB]; grind
  · apply BitVec.eq_of_getLsbD_eq; intro i hi; simp [fieldA, wordPB]; grind
  · simp only [fieldVal, fieldB, wordPB, BitVec.getLsbD_extractLsb']
    rw [BitVec.getLsbD_append, BitVec.getLsbD_append]
    simp
  · simp only [mbzSet, bne_eq_false_iff_eq, maskFree, wordPB]
    rw [show (~~~(0x00FF0100 : Word)) = (((0xFF#8 ++ 0x00#8) ++ 0x7F#7) ++ 0x0#1) ++ 0xFF#8 from by decide,
      show (0x00FFFFFF : Word) = (((0x00#8 ++ 0xFF#8) ++ 0x7F#7) ++ 0x1#1) ++ 0xFF#8 from by decide]
    iterate 8 rw [BitVec.and_append]
    simp

theorem wordMM_fields (m : Mnemonic) (m0 m1 : Byte) :
    fieldOpc (wordMM m m0 m1) = opcodeOf m ∧ fieldA (wordMM m m0 m1) = m0 ∧ fieldB (wordMM m m0 m1) = m1 ∧
      mbzSet .mm (wordMM m m0 m1) = false := by
  refine ⟨?_, ?_, ?_, ?_⟩
  · apply BitVec.eq_of_getLsbD_eq; intro i hi; simp [fieldOpc, wordMM]; grind
  · apply BitVec.eq_of_getLsbD_eq; intro i hi; simp [fieldA, wordMM]; grind
  · apply BitVec.eq_of_getLsbD_eq; intro i hi; simp [fieldB, wordMM]; grind
  · simp only [mbzSet, bne_eq_false_iff_eq, maskFree, wordMM]
    rw [show (~~~(0x00FFFF00 : Word)) = ((0xFF#8 ++ 0x00#8) ++ 0x00#8) ++ 0xFF#8 from by decide,
      show (0x00FFFFFF : Word) = ((0x00#8 ++ 0xFF#8) ++ 0xFF#8) ++ 0xFF#8 from by decide]
    iterate 6 rw [BitVec.and_append]
    simp

theorem wordI24_fields (m : Mnemonic) (imm : Millis24) :
    fieldOpc (wordI24 m imm) = opcodeOf m ∧ fieldImm24 (wordI24 m imm) = imm ∧ mbzSet .i24 (wordI24 m imm) = false := by
  refine ⟨?_, ?_, ?_⟩
  · apply BitVec.eq_of_getLsbD_eq; intro i hi; simp [fieldOpc, wordI24]; grind
  · apply BitVec.eq_of_getLsbD_eq; intro i hi; simp [fieldImm24, wordI24]; grind
  · simp only [mbzSet, bne_eq_false_iff_eq, maskFree, wordI24]
    rw [show (~~~(0x00FFFFFF : Word)) = (0xFF#8 ++ 0x000000#24) from by decide,
      show (0x00FFFFFF : Word) = (0x00#8 ++ 0xFFFFFF#24) from by decide]
    iterate 2 rw [BitVec.and_append]
    simp

/-- The opcode map read backwards is the opcode map (rule R94). -/
theorem mnemonicOf_opcodeOf (m : Mnemonic) : mnemonicOf (opcodeOf m) = some m := by
  cases m <;> rfl

/-- An opcode that reads as a mnemonic is that mnemonic's (rule R94). -/
theorem opcodeOf_of_mnemonicOf (b : Byte) (m : Mnemonic) (h : mnemonicOf b = some m) : opcodeOf m = b := by
  revert b; cases m <;> decide

end Sys2Proof
end

