-- ==== Sys2Proof/Laws/PerInstr.lean ====
section
/-! SUPPORT. Per instruction: its word matches its row of spec/opcode_table.json. -/
namespace Sys2Proof

/-- The word mask of a format: the opcode and the must-be-zero bits (30_encoding.md rule R92). -/
def rowMask (f : Format) : Word := 0xFF000000 ||| (~~~(maskFree f) &&& 0x00FFFFFF)

theorem rowMask_of_fields (f : Format) (w : Word) (o : Byte) (h : fieldOpc w = o) (hz : mbzSet f w = false) :
    w &&& rowMask f = o ++ (0 : BitVec 24) := by
  have hz' : w &&& ~~~(maskFree f) &&& 0x00FFFFFF = 0 := by simpa [mbzSet] using hz
  have e : w &&& rowMask f = (w &&& 0xFF000000) ||| (w &&& ~~~(maskFree f) &&& 0x00FFFFFF) := by
    rw [rowMask, BitVec.and_assoc w (~~~(maskFree f)) 0x00FFFFFF]
    apply BitVec.eq_of_getLsbD_eq
    intro i hi
    simp only [BitVec.getLsbD_and, BitVec.getLsbD_or]
    cases w.getLsbD i <;> simp
  rw [e, hz', ← h, fieldOpc]
  apply BitVec.eq_of_getLsbD_eq
  intro i hi
  rw [show (0xFF000000 : Word) = 0xFF#8 ++ 0x000000#24 from by decide]
  simp only [BitVec.getLsbD_or, BitVec.getLsbD_and, BitVec.getLsbD_append, BitVec.getLsbD_extractLsb']
  by_cases h24 : i < 24
  · simp [h24]
  · have : (0xFF#8).getLsbD (i - 24) = true := by
      have : i - 24 < 8 := by omega
      interval_cases i - 24 <;> rfl
    simp [h24, this, show 24 + (i - 24) = i by omega, show i - 24 < 8 by omega]

namespace Laws.TableRow

/-- The command's word, under its row's mask, is its row's match (30_encoding.md rule R92). -/
def Statement (i : Instr) : Prop :=
  encode i &&& rowMask (mnemonicOfInstr i).format = opcodeOf (mnemonicOfInstr i) ++ (0 : BitVec 24)

theorem init : Statement .init := rowMask_of_fields _ _ _ (wordZ_fields .init).1 (wordZ_fields .init).2
theorem setdir (pin : Byte) (dir : Bool) : Statement (.setdir pin dir) :=
  rowMask_of_fields _ _ _ (wordPB_fields .setdir pin dir).1 (wordPB_fields .setdir pin dir).2.2.2
theorem setpdir (m0 m1 : Byte) : Statement (.setpdir m0 m1) :=
  rowMask_of_fields _ _ _ (wordMM_fields .setpdir m0 m1).1 (wordMM_fields .setpdir m0 m1).2.2.2
theorem setlvl (pin : Byte) (level : Bool) : Statement (.setlvl pin level) :=
  rowMask_of_fields _ _ _ (wordPB_fields .setlvl pin level).1 (wordPB_fields .setlvl pin level).2.2.2
theorem setplvl (m0 m1 : Byte) : Statement (.setplvl m0 m1) :=
  rowMask_of_fields _ _ _ (wordMM_fields .setplvl m0 m1).1 (wordMM_fields .setplvl m0 m1).2.2.2
theorem getlvl (pin : Byte) : Statement (.getlvl pin) :=
  rowMask_of_fields _ _ _ (wordP_fields .getlvl pin).1 (wordP_fields .getlvl pin).2.2
theorem getplvl : Statement .getplvl := rowMask_of_fields _ _ _ (wordZ_fields .getplvl).1 (wordZ_fields .getplvl).2
theorem getout : Statement .getout := rowMask_of_fields _ _ _ (wordZ_fields .getout).1 (wordZ_fields .getout).2
theorem getcfg : Statement .getcfg := rowMask_of_fields _ _ _ (wordZ_fields .getcfg).1 (wordZ_fields .getcfg).2
theorem toggle (pin : Byte) : Statement (.toggle pin) :=
  rowMask_of_fields _ _ _ (wordP_fields .toggle pin).1 (wordP_fields .toggle pin).2.2
theorem rdcache : Statement .rdcache := rowMask_of_fields _ _ _ (wordZ_fields .rdcache).1 (wordZ_fields .rdcache).2
theorem eclr : Statement .eclr := rowMask_of_fields _ _ _ (wordZ_fields .eclr).1 (wordZ_fields .eclr).2
theorem eadd (pin : Byte) : Statement (.eadd pin) :=
  rowMask_of_fields _ _ _ (wordP_fields .eadd pin).1 (wordP_fields .eadd pin).2.2
theorem ethr (ms : Millis24) : Statement (.ethr ms) :=
  rowMask_of_fields _ _ _ (wordI24_fields .ethr ms).1 (wordI24_fields .ethr ms).2.2
theorem eper (ms : Millis24) : Statement (.eper ms) :=
  rowMask_of_fields _ _ _ (wordI24_fields .eper ms).1 (wordI24_fields .eper ms).2.2
theorem estart : Statement .estart := rowMask_of_fields _ _ _ (wordZ_fields .estart).1 (wordZ_fields .estart).2
theorem estop : Statement .estop := rowMask_of_fields _ _ _ (wordZ_fields .estop).1 (wordZ_fields .estop).2
theorem etick : Statement .etick := rowMask_of_fields _ _ _ (wordZ_fields .etick).1 (wordZ_fields .etick).2
theorem epop : Statement .epop := rowMask_of_fields _ _ _ (wordZ_fields .epop).1 (wordZ_fields .epop).2
theorem estat : Statement .estat := rowMask_of_fields _ _ _ (wordZ_fields .estat).1 (wordZ_fields .estat).2

end Laws.TableRow
end Sys2Proof
end

