-- ==== Sys2Proof/Tests/Slice0.lean ====
section
/-! SUPPORT. Tests against the spec's own words and vectors (30_encoding.md, 95_test_vectors.md), and for each statement with hypotheses a witness that meets them. -/
namespace Sys2Proof.Tests
open Sys2Proof.Machine

/-! ### Ill-formed lines and configurations are refused (30_encoding.md rule R97, 20_memory.md rule R67) -/

theorem test_line_operands_must_fit :
    assembleLine ⟨.getlvl, [.num 256]⟩ = none ∧ assembleLine ⟨.toggle, [.num 256]⟩ = none ∧
    assembleLine ⟨.setdir, [.num 256, .kwIn]⟩ = none ∧ assembleLine ⟨.setdir, [.num 3, .num 2]⟩ = none ∧
    assembleLine ⟨.setpdir, [.num 256, .num 0]⟩ = none ∧ assembleLine ⟨.setplvl, [.num 0, .num 256]⟩ = none ∧
    assembleLine ⟨.ethr, [.num 16777216]⟩ = none := by decide

theorem test_line_operands_must_be_the_formats :
    assembleLine ⟨.init, [.num 0]⟩ = none ∧ assembleLine ⟨.getlvl, []⟩ = none ∧
    assembleLine ⟨.setdir, [.num 3, .kwHi]⟩ = none ∧ assembleLine ⟨.setlvl, [.num 3, .kwIn]⟩ = none ∧
    assembleLine ⟨.setdir, [.kwIn, .num 1]⟩ = none ∧ assembleLine ⟨.setlvl, [.num 3]⟩ = none ∧
    assembleLine ⟨.eadd, [.kwIn]⟩ = none ∧ assembleLine ⟨.setpdir, [.num 1]⟩ = none ∧
    assembleLine ⟨.eper, [.num 1, .num 2]⟩ = none := by decide

/-- A pin from 16 to 255 does assemble (rule R97). -/
theorem test_line_at_its_bounds :
    assembleLine ⟨.setdir, [.num 16, .kwIn]⟩ = some (.setdir 16 true) ∧
    assembleLine ⟨.getlvl, [.num 255]⟩ = some (.getlvl 255) ∧
    assembleLine ⟨.ethr, [.num 16777215]⟩ = some (.ethr 0xFFFFFF) := by decide

theorem test_watch_takes_one_to_sixteen_pins :
    assembleStatement (.watch []) = none ∧
    assembleStatement (.watch (List.replicate 17 (.num 1))) = none ∧
    assembleStatement (.watch [.num 0, .num 9]) = some [.eclr, .eadd 0, .eadd 9, .estart] := by decide

/-- A configuration with its bulk reads done as two reads. -/
def splitConfig : Config := { Config.default with bulkMode := .split }

theorem test_config_pairs_must_be_consecutive :
    configWf Config.default = true ∧
    configWf { Config.default with subIn1 := 0x10 } = false ∧
    configWf { Config.default with subOut1 := 0x10 } = false ∧
    configWf { Config.default with subCfg1 := 0x10 } = false ∧
    configWf { Config.default with subIn0 := 0xFF, subIn1 := 0x00 } = false ∧
    configWf { splitConfig with subIn1 := 0x10 } = true := by decide

theorem test_config_subs_must_differ :
    configWf { splitConfig with subIn1 := 0x02 } = false ∧ configWf { splitConfig with subCfg0 := 0x07 } = false := by
  decide

/-! ### Words written out bit by bit from 30_encoding.md rules R90 to R94 -/

/-- Formats Z, PB, MM and P of the expander's commands, OPC in the first eight bits. -/
theorem test_decode_expander :
    decode 0b00000001_00000000_00000000_00000000 = some .init ∧
    decode 0b00000010_00000011_00000000_00000000 = some (.setdir 3 false) ∧
    decode 0b00000010_00001001_00000001_00000000 = some (.setdir 9 true) ∧
    decode 0b00000011_11111111_00001111_00000000 = some (.setpdir 0xFF 0x0F) ∧
    decode 0b00000100_00000011_00000001_00000000 = some (.setlvl 3 true) ∧
    decode 0b00000101_00000000_10000000_00000000 = some (.setplvl 0x00 0x80) ∧
    decode 0b00000110_00001100_00000000_00000000 = some (.getlvl 12) ∧
    decode 0b00000111_00000000_00000000_00000000 = some .getplvl ∧
    decode 0b00001000_00000000_00000000_00000000 = some .getout ∧
    decode 0b00001001_00000000_00000000_00000000 = some .getcfg ∧
    decode 0b00001010_00001111_00000000_00000000 = some (.toggle 15) ∧
    decode 0b00001011_00000000_00000000_00000000 = some .rdcache := by decide

/-- Formats Z, P and I24 of the engine's commands. -/
theorem test_decode_engine :
    decode 0b00100000_00000000_00000000_00000000 = some .eclr ∧
    decode 0b00100001_00001001_00000000_00000000 = some (.eadd 9) ∧
    decode 0b00100010_00000000_00000011_11101000 = some (.ethr 1000) ∧
    decode 0b00100011_00000000_00000000_00110010 = some (.eper 50) ∧
    decode 0b00100100_00000000_00000000_00000000 = some .estart ∧
    decode 0b00100101_00000000_00000000_00000000 = some .estop ∧
    decode 0b00100110_00000000_00000000_00000000 = some .etick ∧
    decode 0b00100111_00000000_00000000_00000000 = some .epop ∧
    decode 0b00101000_00000000_00000000_00000000 = some .estat := by decide

/-- Vectors V-D4 to V-D12: reserved opcodes and set must-be-zero bits. -/
theorem test_decode_rejects :
    decode 0x00000000 = none ∧ decode 0x0C000000 = none ∧ decode 0x1F000000 = none ∧ decode 0x29000000 = none ∧
    decode 0xFF000000 = none ∧ decode 0x01000001 = none ∧ decode 0x02030200 = none ∧ decode 0x06030001 = none ∧
    decode 0x03FF0F01 = none := by decide

/-- The table numbers a word's bits from its least significant end. -/
theorem test_decode_table_word : decodeTableWord 32 0x21090000 = some (.eadd 9) ∧ decodeTableWord 32 0 = none := by decide

/-! ### Small states -/

/-- The next state, if there is one. -/
def after (o : Host.Outcome State Fault Refusal) : Option State :=
  match o with
  | .next t => some t
  | .fault _ => none
  | .refused _ => none

/-- The bus will answer so. -/
def withBus (rs : List BusReply) (s : State) : State := { s with env := { s.env with busIn := rs } }

/-- The agents will move so. -/
def withAgenda (as : List Action) (s : State) : State := { s with env := { s.env with agenda := as } }

/-- A transaction that returns `Ok` with no data to take. -/
def ok : BusReply := .ok 0 0

/-- The same state under another source of read-modify-write. -/
def underCache (s : State) : State := { s with cfg := { s.cfg with rmwSource := .cache } }

/-- The same state with bulk reads split. -/
def underSplit (s : State) : State := { s with cfg := splitConfig }

/-- The state vector V-X1 leaves after INIT, with the four register writes that made its cache in the log. -/
def afterInit : State :=
  { State.reset with
    exp := ⟨⟨0xFF, 0xFF⟩, ⟨0x00, 0x00⟩, ⟨true, true⟩, ⟨true, true⟩, ⟨0, 0⟩, ⟨false, false⟩, true⟩
    env := { Env.quiet with busLog :=
      [evStore Config.default .cfg .p0 0xFF, evStore Config.default .cfg .p1 0xFF,
       evStore Config.default .out .p0 0x00, evStore Config.default .out .p1 0x00] } }

/-- A channel table with these pins. -/
def withPins (pins : List (BitVec 4)) (s : State) : State :=
  { s with eng := { s.eng with
      chCount := Fin.ofNat 17 pins.length
      ch := Vector.ofFn fun k => { Channel.reset with pin := pins[k.val]?.getD 0 } } }

/-- The engine running on these pins, every channel released. -/
def running (pins : List (BitVec 4)) : State :=
  let s := withPins pins afterInit
  { s with eng := { s.eng with running := true } }

/-- Some events in the queue. -/
def withEvents (evs : List Event) (s : State) : State := { s with eng := { s.eng with evq := evs } }

/-- A snapshot at `now`: the pair read's two transactions and one sample. -/
def snapshot (now : Word) (b0 b1 : Byte) (s : State) : State :=
  { s with env := { s.env with busIn := [ok, .ok b0 b1], nowIn := [now] } }

/-- Channel k pressed since `t`. -/
def pressedSince (t : Word) (s : State) : State :=
  { s with eng := { s.eng with ch := Vector.ofFn fun k => { s.eng.ch[k] with life := .pressed, pressStart := t, prev := false } } }

/-- What a vector gives of a command's end: `STATUS` and `RES0`..`RES3`. -/
def report (t : State) : BitVec 16 × Word × Word × Word × Word :=
  (statusWord t.host, t.host.res0, t.host.res1, t.host.res2, t.host.res3)

/-- A release event, as vectors write it. -/
def released (k : Byte) (cls : ReleaseClass) (t d : Word) : Event := ⟨.release, k, cls, t, d, 0⟩

/-! ### Vectors of the expander's commands (95_test_vectors.md sections 1, 2.2, 2.3) -/

/-- V-X1. -/
theorem test_init_transactions :
    (after (exec .init (withBus [ok, ok, ok, ok, ok, ok] State.reset))).map (fun t => (report t, t.exp.initDone, t.env.busLog)) =
      some ((0x0000, 0, 0, 0, 0), true,
        [.write 0x20 [0x00] none, .read 0x20 1 [0x00] none, .write 0x20 [0x06, 0xFF] none, .write 0x20 [0x07, 0xFF] none,
         .write 0x20 [0x02, 0x00] none, .write 0x20 [0x03, 0x00] none]) := by decide

/-- V-X4: the second direction write fails. -/
theorem test_init_stops_at_a_failed_write :
    (after (exec .init (withBus [ok, ok, ok, .err .arbitrationLost] State.reset))).map (fun t =>
        (statusWord t.host, t.exp.cacheDir, t.exp.dirValid, t.exp.initDone, t.env.busLog.length)) =
      some (0x0301, ⟨0xFF, 0x00⟩, ⟨true, false⟩, false, 4) := by decide

/-- E1: SETDIR 12, out after INIT. -/
theorem test_setdir_reads_then_writes :
    (after (exec (.setdir 12 false) (withBus [ok, .ok 0xFF 0, ok] afterInit))).map (fun t =>
        (statusWord t.host, t.exp.cacheDir, t.env.busLog.drop 4)) =
      some (0x0000, ⟨0xFF, 0xEF⟩,
        [.write 0x20 [0x07] none, .read 0x20 1 [0xFF] none, .write 0x20 [0x07, 0xEF] none]) := by decide

/-- V-R9: the write fails, and the cache stays. -/
theorem test_setdir_failed_write_keeps_the_cache :
    (after (exec (.setdir 3 false) (withBus [ok, .ok 0xFF 0, .err .nack] afterInit))).map (fun t =>
        (statusWord t.host, t.exp.cacheDir, t.env.busLog.length)) = some (0x0101, ⟨0xFF, 0xFF⟩, 7) := by decide

/-- V-R13: port 1's write fails. -/
theorem test_setpdir_keeps_port0_written :
    (after (exec (.setpdir 0x0F 0xF0) (withBus [ok, .err .nack] afterInit))).map (fun t =>
        (statusWord t.host, t.exp.cacheDir)) = some (0x0101, ⟨0x0F, 0xFF⟩) := by decide

/-- V-X7. -/
theorem test_setlvl_high :
    (after (exec (.setlvl 10 true) (withBus [ok, .ok 0x00 0, ok] afterInit))).map (fun t =>
        (statusWord t.host, t.exp.cacheOut)) = some (0x0000, ⟨0x00, 0x04⟩) := by decide

/-- E2. -/
theorem test_setplvl_both_ports :
    (after (exec (.setplvl 0xAA 0x55) (withBus [ok, ok] afterInit))).map (fun t =>
        (statusWord t.host, t.exp.cacheOut, t.env.busLog.drop 4)) =
      some (0x0000, ⟨0xAA, 0x55⟩, [.write 0x20 [0x02, 0xAA] none, .write 0x20 [0x03, 0x55] none]) := by decide

/-- V-X10. -/
theorem test_getlvl_reads_port1 :
    (after (exec (.getlvl 12) (withBus [ok, .ok 0xEF 0] afterInit))).map (fun t =>
        (statusWord t.host, t.host.res0, t.exp.lastIn, t.exp.lastInValid)) =
      some (0x0000, 0, ⟨0x00, 0xEF⟩, ⟨false, true⟩) := by decide

/-- V-X11. -/
theorem test_getplvl_packs_port0_low :
    (after (exec .getplvl (withBus [ok, .ok 0xFE 0xFD] afterInit))).map (fun t => (report t, t.exp.lastIn)) =
      some ((0x0000, 0x0000FDFE, 0, 0, 0), ⟨0xFE, 0xFD⟩) := by decide

/-- V-R6, V-R7: in Split mode the second read fails, and the first byte is discarded. -/
theorem test_getplvl_split_discards_the_first_byte :
    (after (exec .getplvl (withBus [ok, .ok 0xFE 0, ok, .err .other] (underSplit afterInit)))).map (fun t =>
        (report t, t.exp.lastInValid)) = some ((0x0401, 0, 0, 0, 0), ⟨false, false⟩) := by decide

/-- V-X17. -/
theorem test_getout_failed_read :
    (after (exec .getout (withBus [ok, .err .nack] afterInit))).map (fun t => (report t, t.exp == afterInit.exp)) =
      some ((0x0101, 0, 0, 0, 0), true) := by decide

/-- V-X14, its second command. -/
theorem test_getcfg_reads_the_chip :
    (after (exec .getcfg (withBus [ok, .ok 0xFF 0x0F] afterInit))).map (fun t => (report t, t.exp == afterInit.exp)) =
      some ((0x0000, 0x00000FFF, 0, 0, 0), true) := by decide

/-- V-X12, its second TOGGLE. -/
theorem test_toggle_flips_back :
    (after (exec (.toggle 15) (withBus [ok, .ok 0x80 0, ok] afterInit))).map (fun t => t.exp.cacheOut) =
      some ⟨0x00, 0x00⟩ := by decide

/-- P1, its last command. -/
theorem test_rdcache_fields :
    (after (exec .rdcache { afterInit with exp := { afterInit.exp with
        cacheDir := ⟨0xF7, 0xFF⟩, lastIn := ⟨0xF7, 0⟩, lastInValid := ⟨true, false⟩ } })).map report =
      some (0x0000, 0x0000FFF7, 0x0000001F, 0x000000F7, 0x00000001) := by decide

/-! ### Vectors of the engine's commands (95_test_vectors.md sections 1, 2.4, 2.5) -/

/-- V-C16: the queue is not touched. -/
theorem test_eclr_keeps_the_queue :
    (after (exec .eclr (withEvents [released 0 .short 1 1, released 1 .short 1 1] (withPins [0, 9] afterInit)))).map (fun t =>
        (statusWord t.host, t.eng.chCount, t.eng.evq.length)) = some (0x0000, 0, 2) := by decide

/-- V-C7 and the pin before it. -/
theorem test_eadd_refuses_a_duplicate :
    (after (exec (.eadd 9) afterInit)).map (fun t => (statusWord t.host, t.eng.chCount, t.eng.ch[0].pin)) =
      some (0x0000, 1, 9) ∧
    (after (exec (.eadd 9) (withPins [9] afterInit))).map (fun t => (statusWord t.host, t.eng.chCount)) =
      some (0x0004, 1) := by decide

/-- V-C9: EngineRunning comes before InvalidPin. -/
theorem test_eadd_priority :
    (after (exec (.eadd 16) (running [0]))).map (fun t => statusWord t.host) = some 0x0006 ∧
    (after (exec (.eadd 16) afterInit)).map (fun t => statusWord t.host) = some 0x0003 := by decide

/-- V-D13. -/
theorem test_ethr_takes_24_bits :
    (after (exec (.ethr 0xFFFFFF) afterInit)).map (fun t => (statusWord t.host, t.eng.lpThr)) = some (0x0000, 0xFFFFFF) := by
  decide

/-- V-C11. -/
theorem test_eper_while_running :
    (after (exec (.eper 100) (running [0]))).map (fun t => (statusWord t.host, t.eng.pollMs)) = some (0x0000, 100) := by decide

/-- V-C4 and V-C5. -/
theorem test_estart_checks_the_cached_direction :
    (after (exec .estart { withPins [9] afterInit with exp := { afterInit.exp with cacheDir := ⟨0xFF, 0xFD⟩ } })).map (fun t =>
        (statusWord t.host, t.eng.running)) = some (0x0004, false) ∧
    (after (exec .estart (withPins [0] afterInit))).map (fun t => (statusWord t.host, t.eng.running)) =
      some (0x0000, true) := by decide

/-- V-C13, its first command. -/
theorem test_estop_clears_running :
    (after (exec .estop (running [0]))).map (fun t => (statusWord t.host, t.eng.running)) = some (0x0000, false) := by decide

/-- E5, tick 2: two presses by channel id, then the chord. -/
theorem test_etick_presses_then_chord :
    (after (exec .etick (snapshot 50 0xFE 0xFD (running [0, 9])))).map (fun t =>
        (statusWord t.host, t.eng.evq, t.eng.ch[1].life, t.eng.ch[1].pressStart)) =
      some (0x0000, [⟨.press, 0, .none, 50, 0, 0⟩, ⟨.press, 1, .none, 50, 0, 0⟩, ⟨.chord, 0xFF, .none, 50, 0, 0x0003⟩],
        .pressed, 50) := by decide

/-- E6, tick 3': the read fails with Timeout. -/
theorem test_etick_failed_read_keeps_the_channels :
    (after (exec .etick { pressedSince 50 (running [0, 9]) with
        env := { Env.quiet with busIn := [ok, .err .timeout], nowIn := [100] } })).map (fun t =>
        (statusWord t.host, t.eng.lastTickErr, t.eng.lastTickTerr, t.eng.ch[0].life, t.eng.evq.length)) =
      some (0x0201, 0x01, 0x02, .pressed, 0) := by decide

/-- V-T15: a timer tick reports in `LAST_TICK_ERR` alone. -/
theorem test_timer_tick_keeps_status :
    (after (act .timerTurn { running [0] with
        eng := { (running [0]).eng with tickPending := true }
        host := errRegs 0x05 0x00
        env := { Env.quiet with busIn := [ok, .err .timeout], nowIn := [100] } })).map (fun t =>
        (statusWord t.host, t.eng.lastTickErr, t.eng.lastTickTerr, t.eng.tickPending)) =
      some (0x0005, 0x01, 0x02, false) := by decide

/-- V-T1: the elapsed time wraps modulo 2^32. -/
theorem test_tick_elapsed_wraps :
    (tickEngine 0x20 0xFFFF (pressedSince 0xFFFFFFF0 (running [0])).eng).evq = [released 0 .short 0x20 48] := by decide

/-- E4, tick 21 and E4b: at the threshold a held press is long, and a release is classified long. -/
theorem test_tick_at_the_threshold :
    (tickEngine 1000 0xFFFE (pressedSince 0 (running [0])).eng).evq = [⟨.longPress, 0, .none, 1000, 0, 0⟩] ∧
    (tickEngine 1000 0xFFFF (pressedSince 0 (running [0])).eng).evq = [released 0 .long 1000 1000] ∧
    (tickEngine 999 0xFFFF (pressedSince 0 (running [0])).eng).evq = [released 0 .short 999 999] := by decide

/-- V-T11 and V-C15. -/
theorem test_epop_fields :
    (after (exec .epop (withEvents [released 14 .short 50 50] afterInit))).map report = some (0x0000, 0x020E0100, 50, 50, 0) ∧
    (after (exec .epop afterInit)).map report = some (0x0008, 0, 0, 0, 0) := by decide

/-- V-T14: after tick 2 of E5, with the period 0 its set-up gives. -/
theorem test_estat_fields :
    (after (exec .estat (withEvents (List.replicate 3 (released 0 .short 0 0))
        { pressedSince 50 (running [0, 9]) with
          eng := { (pressedSince 50 (running [0, 9])).eng with pollMs := 0 } }))).map report =
      some (0x0000, 0x00030201, 0x000003E8, 0, 0x00000005) := by decide

/-- V-C1. -/
theorem test_estat_at_reset : (after (exec .estat State.reset)).map report = some (0x0000, 0, 0x000003E8, 0x00000032, 0) := by
  decide

/-! ### Steps, and how the host places a command -/

/-- The command placed by withFetchWord is the one the next step runs, as the first after reset. -/
theorem test_step_runs_the_placed_command :
    (after (step (State.reset.withFetchWord 32 0x21090000))).map (fun t => (statusWord t.host, t.eng.chCount, t.env.agenda)) =
      some (0x0000, 1, []) ∧
    (after (step (State.reset.withFetchWord 32 0))).map (fun t => statusWord t.host) = some 0x0005 := by decide

/-- An expansion: the poll timer asks for a tick after the first command (rule R260), the second stops it (rule R261). -/
theorem test_expansion_with_the_poll_timer_between :
    (after (runExpansion [(.eper 50, [.request]), (.estop, [.turn]), (.epop, []), (.estat, [])] (running [0]))).map (fun t =>
        (statusWord t.host, t.eng.running, t.eng.tickPending, t.env.busLog.length)) =
      some (0x0008, false, false, 4) := by decide

/-- A reset after two of INIT's transactions. -/
theorem test_reset_during_init :
    (after (step (withAgenda [.resetDuring (.command 0x01000000) 2]
        (withBus [ok, ok, ok, ok, ok, ok] State.reset)))).map (fun t =>
        (t.exp.initDone, t.env.busLog.length, t.env.busIn.length, t.env.agenda)) = some (false, 2, 4, []) := by decide

/-- V-R11 cut short by a reset: before its cache read it leaves the reset values, after it the model fault stays (rule R253). -/
theorem test_reset_during_a_faulting_command :
    (after (step (withAgenda [.resetDuring (.command 0x02030000) 0] (underCache State.reset)))).map (fun t =>
        (t.exp == Expander.reset, t.env.busLog)) = some (true, []) ∧
    step (withAgenda [.resetDuring (.command 0x02030000) 1] (underCache State.reset)) = .fault .cacheUnwritten := by
  refine ⟨by decide, rfl⟩

/-! ### Witnesses: states and operands that meet the hypotheses of the statements -/

theorem witness_RejectedWords : decode 0x01000001 = none ∧ decode 0x1F000000 = none ∧ decode 0x0C000000 = none := by decide

theorem witness_PseudoCommandsExpand :
    (∃ t, exec .estop State.reset = .next t ∧ t.host.err = 0x00) ∧
    (∃ t, exec .estart State.reset = .next t ∧ t.host.err ≠ 0x00) :=
  ⟨⟨_, rfl, by decide⟩, ⟨_, rfl, by decide⟩⟩

theorem witness_StepRunsTheDecodedCommand :
    configWf State.reset.cfg = true ∧
    (withAgenda [.cmdWrite 0x28000000, .reset] State.reset).env.agenda = .cmdWrite 0x28000000 :: [.reset] ∧
    decode 0x28000000 = some .estat ∧ decode 0x29000000 = none := by decide

theorem witness_ModelStopsExactlyAsListed :
    (underCache State.reset).cfg.rmwSource = .cache ∧
    cacheValid .cfg (portOf (0x0F : Byte).toNat) (underCache State.reset) = false ∧
    cacheValid .out (portOf (0x00 : Byte).toNat) (underCache State.reset) = false ∧
    (withAgenda [.cmdPartialWrite [0x01]] State.reset).env.agenda = .cmdPartialWrite [0x01] :: [] ∧
    ¬ [(0x02 : Byte), 0x01, 0x02, 0x03, 0x06, 0x07].Nodup ∧
    ¬ ((0x00 : Byte).toNat = (0xFF : Byte).toNat + 1) := by decide

/-- Under Cache with `CACHE_OUT` unwritten: TOGGLE 3 reads it, INIT and SETDIR 3 do not. -/
theorem witness_ReadsUnwrittenCache :
    let s := underCache { afterInit with exp := { afterInit.exp with outValid := ⟨false, false⟩ } }
    ReadsUnwrittenCache (.toggle 3) s ∧ ¬ ReadsUnwrittenCache .init s ∧ ¬ ReadsUnwrittenCache (.setdir 3 true) s := by
  refine ⟨⟨rfl, 3, by decide, Or.inr ⟨Or.inr rfl, rfl⟩⟩, ?_, ?_⟩
  · rintro ⟨_, _, _, ⟨⟨_, h⟩, _⟩ | ⟨⟨_, h⟩ | h, _⟩⟩ <;> cases h
  · rintro ⟨_, _, _, ⟨⟨_, h⟩, hv⟩ | ⟨⟨_, h⟩ | h, _⟩⟩ <;> cases h
    cases hv

theorem witness_StepFaults :
    let s := withAgenda [.resetDuring (.command 0x02030000) 1] (underCache State.reset)
    configWf s.cfg = true ∧ decode 0x02030000 = some (.setdir 3 false) ∧ ReadsUnwrittenCache (.setdir 3 false) s ∧
    s.env.agenda = .resetDuring (.command 0x02030000) 1 :: [] :=
  ⟨by decide, by decide, ⟨rfl, 3, by decide, Or.inl ⟨⟨_, rfl⟩, rfl⟩⟩, rfl⟩

theorem witness_ResetDuring :
    ∃ u, operationOutcome .tick (snapshot 50 0xFE 0xFF (running [0])) = .next u ∧ u.env.busLog.length = 6 :=
  ⟨_, rfl, by decide⟩

theorem witness_ModelAnswersOtherwise :
    let s := withAgenda [.cmdWrite 0x02030000] (underCache afterInit)
    configWf s.cfg = true ∧ (∀ bytes rest, s.env.agenda ≠ .cmdPartialWrite bytes :: rest) ∧
    ∀ w n rest i, s.env.agenda = .cmdWrite w :: rest ∨ (s.env.agenda = .resetDuring (.command w) n :: rest ∧ n ≠ 0) →
      decode w = some i → ¬ ReadsUnwrittenCache i s := by
  refine ⟨by decide, fun _ _ h => (by cases h), fun w _ _ i _ _ => ?_⟩
  rintro ⟨_, p, _, ⟨_, hv⟩ | ⟨_, hv⟩⟩ <;> cases hp : portOf p.toNat <;> rw [hp] at hv <;> cases hv

theorem witness_agendas :
    (withAgenda [.reset] (running [0])).env.agenda = .reset :: [] ∧
    (withAgenda [.resetDuring .tick 1, .timerTurn] (running [0])).env.agenda = .resetDuring .tick 1 :: [.timerTurn] ∧
    (withAgenda [.hostRead .status] (running [0])).env.agenda = .hostRead .status :: [] ∧
    (running [0]).env.agenda = [] ∧ configWf (running [0]).cfg = true := by decide

theorem witness_PollTimer :
    (running [0]).eng.running = true ∧ (running [0]).eng.pollMs ≠ 0 ∧ State.reset.eng.running = false ∧
    State.reset.eng.tickPending = false ∧
    (withEngine { (running [0]).eng with tickPending := true } (running [0])).eng.tickPending = true ∧
    (withEngine { (running [0]).eng with tickPending := true, pollMs := 0 } (running [0])).eng.pollMs = 0 := by decide

theorem witness_InvalidPin : 16 ≤ (0x10 : Byte).toNat ∧ 16 ≤ (0xFF : Byte).toNat ∧ afterInit.eng.running = false := by decide

theorem witness_EngineRunning :
    (running [0]).eng.running = true ∧ ∃ t, exec .estart (running [0]) = .next t ∧ t.host.err = 0x06 :=
  ⟨by decide, _, rfl, by decide⟩

theorem witness_NotRunningAndQueueEmpty : afterInit.eng.running = false ∧ afterInit.eng.evq = [] := by decide

theorem witness_CommandReport :
    (∃ t, exec .getout (withBus [.err .nack] afterInit) = .next t ∧ t.host.err = 0x01) ∧
    (∃ t, exec .estat afterInit = .next t ∧ t.host.err = 0x00) :=
  ⟨⟨_, rfl, by decide⟩, ⟨_, rfl, by decide⟩⟩

theorem witness_InitCompletes :
    State.reset.eng.running = false ∧ allOk 6 (withBus [ok, ok, ok, ok, ok, ok] State.reset) = true := by decide

theorem witness_ChipNotFound :
    failsAt 0 .nack (withBus [.err .nack] State.reset) = true ∧
    failsAt 1 .timeout (withBus [ok, .err .timeout] State.reset) = true ∧
    ∃ t, exec .init (withBus [ok, .err .timeout] State.reset) = .next t ∧ t.host.err = 0x02 :=
  ⟨by decide, by decide, _, rfl, by decide⟩

theorem witness_InitInEveryCase :
    failsAt 2 .other (withBus [ok, ok, .err .other] State.reset) = true ∧
    failsAt 3 .other (withBus [ok, ok, ok, .err .other] State.reset) = true ∧
    failsAt 4 .other (withBus [ok, ok, ok, ok, .err .other] State.reset) = true ∧
    failsAt 5 .other (withBus [ok, ok, ok, ok, ok, .err .other] State.reset) = true := by decide

theorem witness_PinWritesThroughTheChip :
    afterInit.cfg.rmwSource = .hardware ∧ (0 : Byte).toNat < 16 ∧ (7 : Byte).toNat < 16 ∧ (8 : Byte).toNat < 16 ∧
    (15 : Byte).toNat < 16 ∧ allOk 3 (withBus [ok, .ok 0xFF 0, ok] afterInit) = true := by decide

theorem witness_PinWritesThroughTheCache :
    (underCache afterInit).cfg.rmwSource = .cache ∧ allOk 1 (withBus [ok] (underCache afterInit)) = true ∧
    cacheValid .cfg (portOf (15 : Byte).toNat) (underCache afterInit) = true ∧
    cacheValid .out (portOf (0 : Byte).toNat) (underCache afterInit) = true := by decide

theorem witness_PinWriteFailure :
    failsAt 0 .nack (withBus [.err .nack] afterInit) = true ∧
    failsAt 2 .nack (withBus [ok, ok, .err .nack] afterInit) = true ∧
    (underCache afterInit).cfg.rmwSource = .cache ∧
    failsAt 0 .other (withBus [.err .other] (underCache afterInit)) = true ∧
    cacheValid .out (portOf (3 : Byte).toNat) (underCache afterInit) = true := by decide

theorem witness_PortWrites :
    allOk 4 (withBus [ok, ok, ok, ok] afterInit) = true ∧
    allOk 2 (withBus [ok, ok] afterInit) = true ∧ failsAt 0 .timeout (withBus [.err .timeout] afterInit) = true ∧
    failsAt 1 .timeout (withBus [ok, .err .timeout] afterInit) = true := by decide

theorem witness_GetlvlReadsThePin :
    (15 : Byte).toNat < 16 ∧ allOk 2 (withBus [ok, .ok 0x80 0] afterInit) = true ∧
    failsAt 1 .nack (withBus [ok, .err .nack] afterInit) = true := by decide

theorem witness_BulkReads :
    allOk (bulkCount afterInit.cfg) (withBus [ok, ok] afterInit) = true ∧
    allOk (bulkCount splitConfig) (withBus [ok, ok, ok, ok] (underSplit afterInit)) = true ∧
    failsAt 1 .nack (withBus [ok, .err .nack] afterInit) = true ∧ 1 < bulkCount afterInit.cfg ∧
    failsAt 3 .nack (withBus [ok, ok, ok, .err .nack] (underSplit afterInit)) = true ∧ 3 < bulkCount splitConfig := by decide

/-- All sixteen pins as channels. -/
def allPins : List (BitVec 4) := (List.range 16).map (BitVec.ofNat 4)

theorem witness_EaddAppendsAChannel :
    (withPins allPins afterInit).eng.chCount.val = 16 ∧ (withPins [9] afterInit).eng.ch[(0 : Fin 16)].pin.toNat = 9 ∧
    (withPins (allPins.take 15) afterInit).eng.chCount.val < 16 ∧
    (∀ k : Fin 16, k.val < (withPins (allPins.take 15) afterInit).eng.chCount.val →
      (withPins (allPins.take 15) afterInit).eng.ch[k].pin.toNat ≠ (15 : Byte).toNat) ∧
    (withPins allPins afterInit).eng.running = false := by decide

theorem witness_EstartReady :
    (withPins [0, 9] afterInit).exp.initDone = true ∧ 0 < (withPins [0, 9] afterInit).eng.chCount.val ∧
    ∀ k : Fin 16, k.val < (withPins [0, 9] afterInit).eng.chCount.val →
      (withPins [0, 9] afterInit).exp.dirValid.get (portOf (withPins [0, 9] afterInit).eng.ch[k].pin.toNat) = true ∧
      ((withPins [0, 9] afterInit).exp.cacheDir.get (portOf (withPins [0, 9] afterInit).eng.ch[k].pin.toNat)).getLsbD
        ((withPins [0, 9] afterInit).eng.ch[k].pin.toNat % 8) = true := by decide

theorem witness_EstartNotReady :
    State.reset.exp.initDone = false ∧ afterInit.eng.chCount.val = 0 ∧ afterInit.exp.initDone = true := by decide

theorem witness_queues :
    (withEvents (List.replicate 32 (released 0 .short 0 0)) afterInit).eng.evq.length ≤ 32 ∧
    (withEvents [released 0 .short 0 0] afterInit).eng.evq = released 0 .short 0 0 :: [] := by decide

theorem witness_EtickRunsOneTick :
    (running [0]).eng.running = true ∧ allOk (bulkCount (running [0]).cfg) (snapshot 0 0xFF 0xFF (running [0])) = true ∧
    allOk (bulkCount splitConfig) (withBus [ok, ok, ok, ok] (underSplit (running [0]))) = true := by decide

theorem witness_TickOutcome :
    failsAt 0 .nack (withBus [.err .nack] (running [0])) = true ∧ 0 < bulkCount (running [0]).cfg ∧
    failsAt 3 .nack (withBus [ok, ok, ok, .err .nack] (underSplit (running [0]))) = true := by decide

theorem witness_TimerTick : ∃ t, exec .etick (snapshot 7 0xFE 0xFF (running [0])) = .next t ∧ t.eng.evq ≠ [] :=
  ⟨_, rfl, by decide⟩

theorem witness_InvalidChannelConfig :
    (∃ t, exec (.eadd 9) (withPins [9] afterInit) = .next t ∧ t.host.err = 0x04) ∧
    (∃ t, exec .estart afterInit = .next t ∧ t.host.err = 0x04) ∧
    (∃ t, exec .estart (withPins [3] afterInit) = .next t ∧ t.host.err = 0x00) :=
  ⟨⟨_, rfl, by decide⟩, ⟨_, rfl, by decide⟩, ⟨_, rfl, by decide⟩⟩

/-- Two TOGGLEs of pin 15, through the cache and through a chip that returns what was written. -/
theorem witness_ToggleTwice :
    (∃ t u, exec (.toggle 15) (withBus [ok, ok] (underCache afterInit)) = .next t ∧ exec (.toggle 15) t = .next u ∧
      t.host.err = 0x00 ∧ u.host.err = 0x00 ∧ u.exp.cacheOut.p1 = 0x00) ∧
    (∃ t u, exec (.toggle 15) (withBus [ok, ok, ok, ok, .ok 0x80 0, ok] afterInit) = .next t ∧ exec (.toggle 15) t = .next u ∧
      t.host.err = 0x00 ∧ u.host.err = 0x00 ∧
      byte0 (upcoming (withBus [ok, ok, ok, ok, .ok 0x80 0, ok] afterInit) 4) = t.exp.cacheOut.get (portOf (15 : Byte).toNat)) :=
  ⟨⟨_, _, rfl, rfl, by decide, by decide, by decide⟩, ⟨_, _, rfl, rfl, by decide, by decide, by decide⟩⟩

/-- SETPDIR whose second write fails: one register follows, the other keeps its value. -/
theorem witness_CacheFollows :
    ∃ t, exec (.setpdir 0x0F 0xF0) (withBus [ok, .err .nack] State.reset) = .next t ∧ configWf State.reset.cfg = true ∧
      lastStore State.reset.cfg .cfg .p0 t.env.busLog = some 0x0F ∧ lastStore State.reset.cfg .cfg .p1 t.env.busLog = none :=
  ⟨_, rfl, by decide, by decide, by decide⟩

theorem witness_ChannelStateHasItsWriters :
    (∃ t, act .timerRequest (running [0]) = .next t) ∧ (∃ t, act (.hostRead .res0) (running [0]) = .next t) ∧
    isExpander (.toggle 3) = true := ⟨⟨_, rfl⟩, ⟨_, rfl⟩, rfl⟩

/-- A channel on pin 3. -/
def chan (life : Life) (long prev : Bool) : Channel := ⟨3, life, 0, long, prev⟩

theorem witness_edges :
    (chan .longPressed true false).prev = false ∧ (0xFFFF : PinMask).getLsbD (chan .longPressed true false).pin.toNat = true ∧
    (chan .longPressed true false).life ≠ .released ∧ (chan .released false true).prev = true ∧
    (0xFFF7 : PinMask).getLsbD (chan .released false true).pin.toNat = false := by decide

theorem witness_LongPressFiresOnce :
    ((chan .pressed false false).prev = (0xFFF7 : PinMask).getLsbD 3 ∧ (1000 : Word).toNat ≤ (1000 + 2 ^ 32 - 0) % 2 ^ 32) ∧
    (chan .longPressed true false).life ≠ .pressed ∧ (chan .longPressed true false).prev = (0xFFF7 : PinMask).getLsbD 3 ∧
    (chan .released false false).prev = false ∧ (0xFFFF : PinMask).getLsbD 3 = true := by decide

theorem witness_chord :
    (0 : Fin 16) ≠ 1 ∧ (0 : Fin 16).val < (running [0, 9]).eng.chCount.val ∧ (1 : Fin 16).val < (running [0, 9]).eng.chCount.val ∧
    (0xFDFE : PinMask).getLsbD (running [0, 9]).eng.ch[(0 : Fin 16)].pin.toNat = false ∧
    (0xFDFE : PinMask).getLsbD (running [0, 9]).eng.ch[(1 : Fin 16)].pin.toNat = false ∧
    (tickEvents 0 0xFFFE (running [0, 9]).eng).all (fun ev => decide (ev.kind ≠ .chord)) = true ∧
    (tickEvents 0 0xFDFE (running [0, 9]).eng).length = 3 := by decide

theorem witness_ExpanderCommands :
    isExpander .init = true ∧ isExpander .getcfg = true ∧ (running [0]).eng.running = (running [1]).eng.running ∧
    ∃ t, exec .getcfg (withBus [ok, ok] (running [0])) = .next t := ⟨rfl, rfl, rfl, _, rfl⟩

theorem witness_writers :
    (∃ t, exec (.setdir 3 false) (withBus [ok, ok, ok] afterInit) = .next t ∧ t.host.err = 0x00) ∧
    (∃ t, exec .epop afterInit = .next t ∧ 3 ≤ t.host.err.toNat) ∧
    (∃ t, exec .getplvl (withBus [ok, .err .nack] afterInit) = .next t ∧ t.host.err ≠ 0x00) ∧
    writesChip .getcfg = false ∧ cacheValid .cfg .p0 afterInit = true :=
  ⟨⟨_, rfl, by decide⟩, ⟨_, rfl, by decide⟩, ⟨_, rfl, by decide⟩, rfl, rfl⟩

/-- A running engine whose next move is a host's ETICK, with one channel pressed. -/
def busy : State := withAgenda [.cmdWrite 0x26000000] (snapshot 50 0xFE 0xFF (running [0]))

theorem witness_busy_steps : ∃ t, step busy = .next t ∧ t.eng.evq ≠ [] ∧ t.env.busLog.length = 6 :=
  ⟨_, rfl, by decide, by decide⟩

theorem witness_LifeMatchesPrev : LifeMatchesPrev busy.eng := by
  unfold LifeMatchesPrev
  decide

theorem witness_LongMatchesLife : LongMatchesLife busy.eng := by
  unfold LongMatchesLife
  decide

theorem witness_WellKept : WellKept busy where
  err_code := by decide
  terr_fits := by unfold TerrFits; decide
  tick_err := by decide
  tick_terr := by unfold TerrFits; decide
  queue_fits := by decide
  pins_distinct := by decide
  running_init := by decide
  running_channels := by decide
  init_valid := fun _ l p => by cases l <;> cases p <;> rfl

theorem witness_CacheMirrors : CacheMirrors busy := fun l p _ => by cases l <;> cases p <;> decide

/-- The reference chip after INIT, all lines open. -/
def chip : RefChip := ⟨⟨0xFF, 0xFF⟩, ⟨0x00, 0x00⟩, 0x00, 0xFFFF⟩

/-- The answers the reference chip gives E1's GETCFG, SETDIR 3 out, GETCFG. -/
def roundTrip : State :=
  withBus [ok, .ok 0xFF 0xFF, ok, .ok 0xFF 0, ok, ok, .ok 0xF7 0xFF] { State.reset with exp := afterInit.exp }

/-- Transactions, each with every line open. -/
def allOpen (evs : List BusEvent) : List (PinMask × BusEvent) := evs.map fun ev => (0xFFFF, ev)

/-- The transactions of that run, line 0 closing on the way. -/
def roundTripLog : List (PinMask × BusEvent) :=
  allOpen [.write 0x20 [0x06] none, .read 0x20 2 [0xFF, 0xFF] none, .write 0x20 [0x06] none, .read 0x20 1 [0xFF] none] ++
  [(0xFFFE, .write 0x20 [0x06, 0xF7] none), (0xFFFE, .write 0x20 [0x06] none), (0xFFFE, .read 0x20 2 [0xF7, 0xFF] none)]

theorem witness_DirectionRoundTrip :
    ∃ s1 s2 s3 y, exec .getcfg roundTrip = .next s1 ∧ exec (.setdir 3 false) s1 = .next s2 ∧ exec .getcfg s2 = .next s3 ∧
      s3.env.busLog = roundTrip.env.busLog ++ roundTripLog.map Prod.snd ∧ (roundTripLog.all fun r => eventOk r.2) = true ∧
      y ∈ chipAfterAll roundTrip.cfg chip roundTripLog ∧ configWf roundTrip.cfg = true ∧ s3.host.res0 = 0x0000FFF7 :=
  ⟨_, _, _, ⟨⟨0xF7, 0xFF⟩, ⟨0x00, 0x00⟩, 0x06, 0xFFFE⟩, rfl, rfl, rfl, by decide, by decide, by decide, by decide, by decide⟩

theorem witness_DirectionRoundTrip_cache :
    (underCache roundTrip).cfg.rmwSource = .cache ∧
    (underCache roundTrip).exp.cacheDir.get (portOf (3 : Byte).toNat) = chip.chipCfg.get (portOf (3 : Byte).toNat) := by decide

/-- The transactions of one SETPLVL 0xAA, 0x55. -/
def setplvlLog : List (PinMask × BusEvent) :=
  allOpen [.write 0x20 [0x02, 0xAA] none, .write 0x20 [0x03, 0x55] none]

theorem witness_PortLevelIsIdempotent :
    ∃ s1 s2 y z, exec (.setplvl 0xAA 0x55) (withBus [ok, ok, ok, ok] State.reset) = .next s1 ∧
      exec (.setplvl 0xAA 0x55) s1 = .next s2 ∧ s1.env.busLog = [] ++ setplvlLog.map Prod.snd ∧
      s2.env.busLog = s1.env.busLog ++ setplvlLog.map Prod.snd ∧
      ((setplvlLog ++ setplvlLog).all fun r => eventOk r.2) = true ∧ y ∈ chipAfterAll State.reset.cfg chip setplvlLog ∧
      z ∈ chipAfterAll State.reset.cfg y setplvlLog :=
  ⟨_, _, ⟨⟨0xFF, 0xFF⟩, ⟨0xAA, 0x55⟩, 0x00, 0xFFFF⟩, ⟨⟨0xFF, 0xFF⟩, ⟨0xAA, 0x55⟩, 0x00, 0xFFFF⟩, rfl, rfl, by decide,
    by decide, by decide, by decide, by decide⟩

/-- E3, ticks 1 and 2: LINE0 closes between the two snapshots, and the reference chip answers both; with the line held it
would not have answered the second so (20_memory.md rule R75). -/
theorem test_reference_chip_line_changes :
    let tick1 : List BusEvent := [.write 0x20 [0x00] none, .read 0x20 2 [0xFF, 0xFF] none]
    let tick2 : List BusEvent := [.write 0x20 [0x00] none, .read 0x20 2 [0xFE, 0xFF] none]
    chipAfterAll Config.default chip (allOpen tick1 ++ tick2.map fun ev => (0xFFFE, ev)) =
      [⟨⟨0xFF, 0xFF⟩, ⟨0x00, 0x00⟩, 0x00, 0xFFFE⟩] ∧
    chipAfterAll Config.default chip (allOpen (tick1 ++ tick2)) = [] := by decide

/-- V-X9: GETLVL of an output pin reads the latch; V-X11: GETPLVL of inputs reads the lines. -/
theorem witness_ReferenceChipLoopsOutputsBack :
    (∃ t y, exec (.getlvl 3) (withBus [ok, .ok 0xF7 0] State.reset) = .next t ∧
      t.env.busLog = [] ++ (allOpen [.write 0x20 [0x00] none, .read 0x20 1 [0xF7] none]).map Prod.snd ∧
      y ∈ chipAfterAll State.reset.cfg { chip with chipCfg := ⟨0xF7, 0xFF⟩ }
        (allOpen [.write 0x20 [0x00] none, .read 0x20 1 [0xF7] none]) ∧ t.host.res0 = 0) ∧
    (∃ t y, exec .getplvl (withBus [ok, .ok 0xFE 0xFD] State.reset) = .next t ∧ State.reset.cfg.bulkMode = .pair ∧
      t.env.busLog = [] ++ [(0xFFFF, .write 0x20 [0x00] none), ((0xFDFE : PinMask), .read 0x20 2 [0xFE, 0xFD] none)].map Prod.snd ∧
      y ∈ chipAfterAll State.reset.cfg chip
        [(0xFFFF, .write 0x20 [0x00] none), (0xFDFE, .read 0x20 2 [0xFE, 0xFD] none)] ∧ t.host.res0 = 0x0000FDFE) :=
  ⟨⟨_, ⟨⟨0xF7, 0xFF⟩, ⟨0x00, 0x00⟩, 0x00, 0xFFFF⟩, rfl, by decide, by decide, by decide⟩,
    ⟨_, ⟨⟨0xFF, 0xFF⟩, ⟨0x00, 0x00⟩, 0x00, 0xFDFE⟩, rfl, rfl, by decide, by decide, by decide⟩⟩

end Sys2Proof.Tests
end

section
/-! SUPPORT. Who writes the cache and the per-channel state (10_state.md rules R34, R54): two frames, each said once for every command. -/
namespace Sys2Proof.Machine

/-! ### A command that answers is its body inside the frame -/

@[simp] theorem finish_cfg (r : Ran Raise Unit) : (finish r).cfg = r.state.cfg := by cases r <;> rfl
@[simp] theorem finish_exp (r : Ran Raise Unit) : (finish r).exp = r.state.exp := by cases r <;> rfl
@[simp] theorem finish_eng (r : Ran Raise Unit) : (finish r).eng = r.state.eng := by cases r <;> rfl
@[simp] theorem finish_env (r : Ran Raise Unit) : (finish r).env = r.state.env := by cases r <;> rfl

/-- The frame writes nothing of the engine. -/
theorem exec_eng {i : Instr} {s t : State} (h : exec i s = .next t) :
    t.eng = (commandBody i (clearRes s)).state.eng := by
  obtain ⟨-, rfl⟩ := (exec_next_iff i s t).mp h
  exact finish_eng _

/-! ### Write-then-cache (10_state.md rule R34) -/

/-- The frame writes neither the cache nor the bus log. -/
theorem exec_follows {i : Instr} {s t : State} (hw : configWf s.cfg = true) (h : exec i s = .next t) : Follows s t := by
  obtain ⟨-, rfl⟩ := (exec_next_iff i s t).mp h
  have hclear : Follows s (clearRes s) := follows_exp rfl rfl rfl rfl rfl rfl
  have hfinish (r : Ran Raise Unit) : Follows r.state (finish r) := by
    apply follows_exp <;> simp
  exact (hclear.trans (body_follows i (clearRes s) hw)).trans (hfinish _)

/-! ### Operations that ignore the engine (10_state.md rule R54) -/

/-- The same end of an operation, with the state it left changed. -/
def Ran.mapState {ε α : Type} (u : State → State) : Ran ε α → Ran ε α
  | .done a s => .done a (u s)
  | .raised e s => .raised e (u s)

@[simp] theorem Ran.mapState_done {ε α : Type} (u : State → State) (a : α) (s : State) :
    (Ran.done a s : Ran ε α).mapState u = .done a (u s) := rfl

@[simp] theorem Ran.mapState_raised {ε α : Type} (u : State → State) (e : ε) (s : State) :
    (Ran.raised e s : Ran ε α).mapState u = .raised e (u s) := rfl

@[simp] theorem Ran.state_mapState {ε α : Type} (u : State → State) (r : Ran ε α) :
    (r.mapState u).state = u r.state := by cases r <;> rfl

/-- The operation neither reads nor writes the engine: replacing the engine's state replaces it in the end, and changes
nothing else of it. -/
def IgnoresEngine {ε α : Type} (f : State → Ran ε α) : Prop :=
  ∀ (g : Engine) (s : State), f (withEngine g s) = (f s).mapState (withEngine g)

/-- What runs the same with any engine leaves the engine it was given. -/
theorem eng_of_mapState {ε α : Type} {f : State → Ran ε α} {s : State}
    (h : f (withEngine s.eng s) = (f s).mapState (withEngine s.eng)) : (f s).state.eng = s.eng := by
  have hs : (f s).state = ((f s).mapState (withEngine s.eng)).state := congrArg Ran.state h
  rw [hs, Ran.state_mapState, withEngine_eng]

theorem ignoresEngine_done {ε α : Type} (a : α) (u : State → State)
    (hu : ∀ g s, u (withEngine g s) = withEngine g (u s)) : IgnoresEngine fun s => (.done a (u s) : Ran ε α) := by
  intro g s
  simp [hu]

theorem ignoresEngine_raised {ε α : Type} (e : ε) : IgnoresEngine fun s => (.raised e s : Ran ε α) := fun _ _ => rfl

theorem IgnoresEngine.andThen {ε α β : Type} {f : State → Ran ε α} {h : α → State → Ran ε β} (hf : IgnoresEngine f)
    (hh : ∀ a, IgnoresEngine (h a)) : IgnoresEngine fun s => (f s).andThen h := by
  intro g s
  simp only [hf g s]
  cases f s with
  | done a t => exact hh a g t
  | raised e t => rfl

theorem IgnoresEngine.wrap {ε ε' α : Type} {f : State → Ran ε α} (w : ε → ε') (hf : IgnoresEngine f) :
    IgnoresEngine fun s => (f s).wrap w := by
  intro g s
  simp only [hf g s]
  cases f s <;> rfl

theorem issued_withEngine (g : Engine) (evs : List BusEvent) (s : State) :
    issued evs (withEngine g s) = withEngine g (issued evs s) := rfl

theorem setCache_withEngine (l : Latch) (p : Port) (v : Byte) (g : Engine) (s : State) :
    setCache l p v (withEngine g s) = withEngine g (setCache l p v s) := by cases l <;> rfl

theorem busRead2_ignoresEngine : IgnoresEngine busRead2 := by
  intro g s
  simp only [busRead2_eq, upcoming_withEngine]
  cases upcoming s 0 <;> rfl

theorem pointer_ignoresEngine (k : RegKind) (p : Port) : IgnoresEngine fun s => busWrite [subOf s.cfg k p] s := by
  intro g s
  simp only [busWrite_eq, upcoming_withEngine]
  cases upcoming s 0 <;> rfl

theorem readReg_ignoresEngine (k : RegKind) (p : Port) : IgnoresEngine (readReg k p) := by
  intro g s
  simp only [readReg_eq, upcoming_withEngine]
  cases upcoming s 0 with
  | err e => rfl
  | ok a b => cases upcoming s 1 <;> rfl

theorem writeCached_ignoresEngine (l : Latch) (p : Port) (v : Byte) : IgnoresEngine (writeCached l p v) := by
  intro g s
  simp only [writeCached_eq, upcoming_withEngine]
  cases upcoming s 0 with
  | err e => rfl
  | ok a b => simp [issued_withEngine, setCache_withEngine]

theorem bulkRead_ignoresEngine (k : RegKind) : IgnoresEngine (bulkRead k) := by
  intro g s
  unfold bulkRead
  rw [withEngine_cfg]
  cases s.cfg.bulkMode with
  | pair => exact (pointer_ignoresEngine k .p0).andThen (fun _ => busRead2_ignoresEngine) g s
  | split =>
    exact (readReg_ignoresEngine k .p0).andThen (fun b0 => (readReg_ignoresEngine k .p1).andThen fun b1 =>
      ignoresEngine_done (b0, b1) id fun _ _ => rfl) g s

theorem rmw_ignoresEngine (l : Latch) (p : Port) (f : Byte → Byte) : IgnoresEngine (rmw l p f) := by
  refine IgnoresEngine.andThen (f := rmwOld l p) (fun g s => ?_) fun old => writeCached_ignoresEngine l p (f old)
  unfold rmwOld
  rw [withEngine_cfg]
  cases s.cfg.rmwSource with
  | hardware => exact (readReg_ignoresEngine l.reg p).wrap Raise.busError g s
  | cache => rw [cached_of_exp l p (withEngine_exp g s)]; rfl

theorem writePair_ignoresEngine (l : Latch) (m0 m1 : Byte) : IgnoresEngine (writePair l m0 m1) :=
  (writeCached_ignoresEngine l .p0 m0).andThen fun _ => writeCached_ignoresEngine l .p1 m1

theorem pinBody_ignoresEngine (l : Latch) (pin : Byte) (f : Nat → Byte → Byte) : IgnoresEngine (pinBody l pin f) := by
  unfold pinBody
  split
  · exact rmw_ignoresEngine _ _ _
  · exact ignoresEngine_raised _

theorem getlvlBody_ignoresEngine (pin : Byte) : IgnoresEngine (getlvlBody pin) := by
  unfold getlvlBody
  split
  · exact ((readReg_ignoresEngine _ _).wrap _).andThen fun b => ignoresEngine_done () _ fun _ _ => rfl
  · exact ignoresEngine_raised _

theorem bulkToRes_ignoresEngine (k : RegKind) (seen : Byte → Byte → State → State)
    (h : ∀ a b g s, seen a b (withEngine g s) = withEngine g (seen a b s)) : IgnoresEngine (bulkToRes k seen) := by
  unfold bulkToRes
  exact ((bulkRead_ignoresEngine k).wrap _).andThen fun b => ignoresEngine_done () _ fun g s => by rw [h]; rfl

/-- INIT reads `RUNNING` and nothing else of the engine (60_exceptions.md rule R244). -/
theorem initBody_withEngine (g : Engine) (s : State) (h : g.running = s.eng.running) :
    initBody (withEngine g s) = (initBody s).mapState (withEngine g) := by
  unfold initBody
  rw [withEngine_eng, h]
  split
  · rfl
  · have hprobe : IgnoresEngine probe := ((readReg_ignoresEngine .input .p0).wrap _).andThen fun _ =>
      ignoresEngine_done () id fun _ _ => rfl
    exact (hprobe.andThen fun _ => (writePair_ignoresEngine .cfg 0xFF 0xFF).andThen fun _ =>
      (writePair_ignoresEngine .out 0x00 0x00).andThen fun _ =>
        ignoresEngine_done () (setInitDone true) fun _ _ => rfl) g (setInitDone false s)

/-- An expander command's body runs the same with any engine, INIT with any of the same `RUNNING`. -/
theorem commandBody_withEngine {i : Instr} {g : Engine} {s : State} (hi : isExpander i = true)
    (hr : i = .init → g.running = s.eng.running) :
    commandBody i (withEngine g s) = (commandBody i s).mapState (withEngine g) := by
  cases i with
  | init => exact initBody_withEngine g s (hr rfl)
  | setdir pin dir => exact pinBody_ignoresEngine .cfg pin (fun j => putb j dir) g s
  | setpdir m0 m1 => exact writePair_ignoresEngine .cfg m0 m1 g s
  | setlvl pin level => exact pinBody_ignoresEngine .out pin (fun j => putb j level) g s
  | setplvl m0 m1 => exact writePair_ignoresEngine .out m0 m1 g s
  | getlvl pin => exact getlvlBody_ignoresEngine pin g s
  | getplvl => exact bulkToRes_ignoresEngine .input observeBoth (fun _ _ _ _ => rfl) g s
  | getout => exact bulkToRes_ignoresEngine .output (fun _ _ s => s) (fun _ _ _ _ => rfl) g s
  | getcfg => exact bulkToRes_ignoresEngine .config (fun _ _ s => s) (fun _ _ _ _ => rfl) g s
  | toggle pin => exact pinBody_ignoresEngine .out pin flipb g s
  | rdcache => rfl
  | eclr | eadd | ethr | eper | estart | estop | etick | epop | estat => cases hi

/-- A command's model fault does not depend on the engine. -/
theorem commandFaults_withEngine (i : Instr) (g : Engine) (s : State) :
    commandFaults i (withEngine g s) = commandFaults i s := by cases i <;> rfl

/-- Replacing the engine's state under an expander command replaces it in the outcome alone. -/
theorem exec_withEngine {i : Instr} {g : Engine} {s : State} (hi : isExpander i = true)
    (hr : i = .init → g.running = s.eng.running) : exec i (withEngine g s) = outcomeWithEngine g (exec i s) := by
  have hbody : commandBody i (clearRes (withEngine g s)) = (commandBody i (clearRes s)).mapState (withEngine g) :=
    commandBody_withEngine (s := clearRes s) hi hr
  rw [exec_eq, exec_eq, commandFaults_withEngine]
  split
  · rfl
  · unfold runCommand
    rw [hbody]
    cases commandBody i (clearRes s) <;> rfl

/-- An expander command leaves the engine as it was. -/
theorem commandBody_eng {i : Instr} (s : State) (hi : isExpander i = true) : (commandBody i s).state.eng = s.eng :=
  eng_of_mapState (commandBody_withEngine hi fun _ => rfl)

/-! ### What the engine's commands write of the channels (10_state.md rules R42 to R46, R54) -/

/-- From one entry to the other `LIFE`, `PRESS_START`, `LONG_EMITTED` and `PREV` are unchanged; the pin may differ. -/
def SameButton (c d : Channel) : Prop :=
  d.life = c.life ∧ d.pressStart = c.pressStart ∧ d.longEmitted = c.longEmitted ∧ d.prev = c.prev

theorem SameButton.rfl {c : Channel} : SameButton c c := ⟨Eq.refl _, Eq.refl _, Eq.refl _, Eq.refl _⟩

@[simp] theorem Channel.idle_pin (c : Channel) : c.idle.pin = c.pin := rfl

@[simp] theorem storeLevel_pin (snap : PinMask) (c : Channel) : (storeLevel snap c).pin = c.pin := rfl

/-- Every command but ECLR, EADD, ESTART and ETICK leaves the whole channel table. -/
theorem commandBody_channels (i : Instr) (s : State) (hclr : i ≠ .eclr) (hadd : ∀ pin, i ≠ .eadd pin)
    (hstart : i ≠ .estart) (htick : i ≠ .etick) :
    (commandBody i s).state.eng.ch = s.eng.ch ∧ (commandBody i s).state.eng.chCount = s.eng.chCount := by
  cases i with
  | eclr => exact absurd rfl hclr
  | eadd pin => exact absurd rfl (hadd pin)
  | estart => exact absurd rfl hstart
  | etick => exact absurd rfl htick
  | ethr ms =>
    simp only [commandBody, ethrBody]
    split <;> exact ⟨rfl, rfl⟩
  | epop =>
    simp only [commandBody, epopBody]
    split <;> exact ⟨rfl, rfl⟩
  | eper | estop | estat => exact ⟨rfl, rfl⟩
  | init | setdir | setpdir | setlvl | setplvl | getlvl | getplvl | getout | getcfg | toggle | rdcache =>
    rw [commandBody_eng s rfl]
    exact ⟨rfl, rfl⟩

/-- EADD either adds a channel or leaves the engine. -/
theorem eaddBody_eng (pin : Byte) (s : State) :
    (eaddBody pin s).state.eng = s.eng ∨ (eaddBody pin s).state.eng = addChannel (pin.setWidth 4) s.eng := by
  unfold eaddBody
  repeat' split
  case isFalse.isFalse.isFalse.isFalse => exact Or.inr rfl
  all_goals exact Or.inl rfl

/-- ECLR either clears the table or leaves the engine. -/
theorem eclrBody_eng (s : State) :
    (eclrBody s).state.eng = s.eng ∨
      (eclrBody s).state.eng = { mapChannels (fun _ c => c.idle) s.eng with chCount := 0 } := by
  unfold eclrBody
  split
  · exact Or.inl rfl
  · exact Or.inr rfl

/-- ESTART either starts the engine or leaves it. -/
theorem estartBody_eng (s : State) :
    (estartBody s).state.eng = s.eng ∨ (estartBody s).state.eng = started s.eng := by
  unfold estartBody
  repeat' split
  case isFalse.isFalse.isFalse.isTrue => exact Or.inr rfl
  all_goals exact Or.inl rfl

/-- An update of the entries that keeps each pin. -/
theorem mapChannels_pin {f : Fin 16 → Channel → Channel} (hf : ∀ k c, (f k c).pin = c.pin) (g : Engine) (k : Fin 16) :
    (mapChannels f g).ch[k].pin = g.ch[k].pin := by rw [mapChannels_get, hf]

/-- The channel table of R42 is unchanged: every pin, and `CH_COUNT`. -/
def SameTable (g h : Engine) : Prop := (∀ k : Fin 16, h.ch[k].pin = g.ch[k].pin) ∧ h.chCount = g.chCount

theorem started_sameTable (g : Engine) : SameTable g (started g) :=
  ⟨mapChannels_pin (f := fun _ c => c.idle) (fun _ c => c.idle_pin) g, rfl⟩

theorem tickEngine_sameTable (now : Word) (snap : PinMask) (g : Engine) : SameTable g (tickEngine now snap g) := by
  obtain ⟨hch, -, hcount, -⟩ := emitAll_keeps (tickEvents now snap g) (tickChannels now snap g)
  refine ⟨fun k => ?_, hcount⟩
  rw [tickEngine, hch]
  refine mapChannels_pin (fun j c => ?_) g k
  split <;> simp

/-- A tick leaves the table, whether or not its snapshot is read. -/
theorem tick_sameTable (s : State) : SameTable s.eng (tick s).state.eng := by
  have heng : (bulkRead .input (sampledNow s)).state.eng = s.eng :=
    eng_of_mapState (bulkRead_ignoresEngine .input s.eng (sampledNow s))
  unfold tick
  cases hread : bulkRead .input (sampledNow s) with
  | raised e t =>
    rw [hread, Ran.state_raised] at heng
    rw [← heng]
    exact ⟨fun _ => rfl, rfl⟩
  | done b t =>
    rw [hread, Ran.state_done] at heng
    rw [← heng]
    exact tickEngine_sameTable _ _ t.eng

/-- A command other than ECLR and EADD leaves the table. -/
theorem commandBody_sameTable (i : Instr) (s : State) (hclr : i ≠ .eclr) (hadd : ∀ pin, i ≠ .eadd pin) :
    SameTable s.eng (commandBody i s).state.eng := by
  by_cases hstart : i = .estart
  · subst hstart
    rcases estartBody_eng s with h | h <;> rw [commandBody, h]
    · exact ⟨fun _ => rfl, rfl⟩
    · exact started_sameTable s.eng
  by_cases htick : i = .etick
  · subst htick
    rw [commandBody, etickBody]
    split
    · exact tick_sameTable s
    · exact ⟨fun _ => rfl, rfl⟩
  obtain ⟨hch, hcount⟩ := commandBody_channels i s hclr hadd hstart htick
  exact ⟨fun k => by rw [hch], hcount⟩

/-- A command other than EADD leaves every entry's pin: ECLR writes the count alone of the table. -/
theorem commandBody_pin (i : Instr) (s : State) (hadd : ∀ pin, i ≠ .eadd pin) (k : Fin 16) :
    (commandBody i s).state.eng.ch[k].pin = s.eng.ch[k].pin := by
  by_cases hclr : i = .eclr
  · subst hclr
    rcases eclrBody_eng s with h | h <;> rw [commandBody, h]
    exact mapChannels_pin (f := fun _ c => c.idle) (fun _ c => c.idle_pin) s.eng k
  · exact (commandBody_sameTable i s hclr hadd).1 k

/-- Adding a channel writes a pin and the count. -/
theorem addChannel_sameButton (pin : BitVec 4) (g : Engine) (k : Fin 16) :
    SameButton g.ch[k] (addChannel pin g).ch[k] := by
  have h : (addChannel pin g).ch[k] = if k.val = g.chCount.val then { g.ch[k] with pin := pin } else g.ch[k] :=
    mapChannels_get _ g k
  rw [h]
  split <;> exact SameButton.rfl

/-- A command other than ETICK, ESTART and ECLR leaves the four fields of every entry. -/
theorem commandBody_sameButton (i : Instr) (s : State) (htick : i ≠ .etick) (hstart : i ≠ .estart) (hclr : i ≠ .eclr)
    (k : Fin 16) : SameButton s.eng.ch[k] (commandBody i s).state.eng.ch[k] := by
  by_cases hadd : ∃ pin, i = .eadd pin
  · obtain ⟨pin, rfl⟩ := hadd
    rcases eaddBody_eng pin s with h | h <;> rw [commandBody, h]
    · exact SameButton.rfl
    · exact addChannel_sameButton _ s.eng k
  · obtain ⟨hch, -⟩ := commandBody_channels i s hclr (not_exists.mp hadd) hstart htick
    rw [hch]
    exact SameButton.rfl

/-- A timer request writes the pending bit alone. -/
theorem timerRequest_ch (s : State) : (timerRequest s).eng.ch = s.eng.ch := by
  unfold timerRequest
  split <;> rfl

end Sys2Proof.Machine

namespace Sys2Proof.Proofs
open Sys2Proof.Machine

/-- Settles O48: `Follows` carried through the frame. -/
theorem cacheFollowsSuccessfulWrites : Obligations.CacheFollowsSuccessfulWrites := by
  unfold Obligations.CacheFollowsSuccessfulWrites
  intro i s t hw h
  obtain ⟨-, evs, hlog, hcache⟩ := exec_follows hw h
  refine ⟨evs, hlog, fun l p => ⟨fun v hv => ?_, fun hn => ?_⟩⟩
  · simpa only [hv] using hcache l p
  · simpa only [hn] using hcache l p

/-- Settles O46: each command's body by its writers, the two other moves by the frame of their updates, and the expander
commands by their independence of the engine. -/
theorem channelStateHasItsWriters : Obligations.ChannelStateHasItsWriters := by
  unfold Obligations.ChannelStateHasItsWriters
  refine ⟨fun i s t h => ?_, fun r s t h k => ?_, fun i s ch hi => exec_withEngine hi fun _ => rfl⟩
  · have heng := exec_eng h
    refine ⟨fun htick hstart hclr k => ?_, fun hadd k => ?_, fun hclr hadd => ?_⟩ <;> rw [heng]
    · exact commandBody_sameButton i (clearRes s) htick hstart hclr k
    · exact commandBody_pin i (clearRes s) hadd k
    · exact (commandBody_sameTable i (clearRes s) hclr hadd).2
  · rcases h with h | h <;> cases h
    · exact SameButton.rfl
    · rw [timerRequest_ch]
      exact SameButton.rfl

end Sys2Proof.Proofs
end

section
/-! SUPPORT. What an agent's move puts on the bus (20_memory.md rules R60, R65, R70, R73, R80), built from what each command's body and a tick put there. -/
namespace Sys2Proof.Machine

/-- From s to t the configuration stayed, what was issued stayed issued, and every new transaction is legal. -/
def IssuesLegally (s t : State) : Prop :=
  t.cfg = s.cfg ∧ ∃ evs : List BusEvent, t.env.busLog = s.env.busLog ++ evs ∧ evs.all (legalEvent s.cfg) = true

theorem issuesLegally_of_silent {s t : State} (hcfg : t.cfg = s.cfg) (hlog : t.env.busLog = s.env.busLog) :
    IssuesLegally s t := ⟨hcfg, [], by rw [hlog, List.append_nil], rfl⟩

theorem issuesLegally_rfl (s : State) : IssuesLegally s s := issuesLegally_of_silent rfl rfl

theorem IssuesLegally.trans {s t u : State} (h : IssuesLegally s t) (g : IssuesLegally t u) : IssuesLegally s u := by
  obtain ⟨hcfg, xs, hlog, hlegal⟩ := h
  obtain ⟨gcfg, ys, glog, glegal⟩ := g
  rw [hcfg] at glegal
  exact ⟨gcfg.trans hcfg, xs ++ ys, by rw [glog, hlog, List.append_assoc], by rw [List.all_append, hlegal, glegal]; rfl⟩

theorem BodyIssues.issuesLegally {n : Nat} {s : State} {r : Ran Raise Unit} (h : BodyIssues n s r) :
    IssuesLegally s r.state := by
  obtain ⟨hcfg, evs, hlog, hlegal, -⟩ := h
  exact ⟨hcfg, evs, hlog, hlegal⟩

/-! ### Operations that run to their end -/

/-- The frame itself issues nothing (60_exceptions.md rule R246). -/
theorem frame_issuesLegally {n : Nat} {s : State} {r : Ran Raise Unit} (h : BodyIssues n (clearRes s) r) :
    IssuesLegally s (finish r) := by
  have hclear : IssuesLegally s (clearRes s) := issuesLegally_of_silent rfl rfl
  have hfinish : IssuesLegally r.state (finish r) := issuesLegally_of_silent (finish_cfg r) (by rw [finish_env])
  exact (hclear.trans h.issuesLegally).trans hfinish

theorem runWord_issuesLegally {w : Word} {s t : State} (h : runWord w s = .next t) : IssuesLegally s t := by
  unfold runWord at h
  split at h
  · obtain ⟨-, rfl⟩ := (exec_next_iff _ s t).mp h
    exact frame_issuesLegally (commandBody_issues _ _)
  · cases h
    exact frame_issuesLegally (bodyIssues_raised 0 _ .illegalCommand (by decide))

theorem tick_issuesLegally (s : State) : IssuesLegally s (tick s).state := (tick_issues s).issuesLegally

theorem operationOutcome_issuesLegally {op : Operation} {s t : State} (h : operationOutcome op s = .next t) :
    IssuesLegally s t := by
  cases op with
  | command w => exact runWord_issuesLegally h
  | tick =>
    cases h
    split
    · exact tick_issuesLegally s
    · exact issuesLegally_rfl s

/-! ### The poll timer (60_exceptions.md rule R261) -/

theorem timerRequest_issuesLegally (s : State) : IssuesLegally s (timerRequest s) := by
  unfold timerRequest
  split <;> exact issuesLegally_of_silent rfl rfl

theorem timerTurn_issuesLegally (s : State) : IssuesLegally s (timerTurn s) := by
  have hdrop : IssuesLegally s (withEngine { s.eng with tickPending := false } s) := issuesLegally_of_silent rfl rfl
  unfold timerTurn
  split
  · split
    · exact hdrop.trans (tick_issuesLegally _)
    · exact hdrop
  · exact issuesLegally_rfl s

/-! ### A reset during an operation (70_reset_and_hazards.md rule R282) -/

/-- The log that a reset cuts short is what was issued before the operation, and a first part of what the operation issued. -/
theorem resetAfter_issuesLegally {s u : State} (n : Nat) (h : IssuesLegally s u) :
    IssuesLegally s (resetAfter n s u) := by
  obtain ⟨-, evs, hlog, hlegal⟩ := h
  refine ⟨rfl, evs.take n, by rw [resetAfter_busLog, hlog, List.take_length_add_append], ?_⟩
  rw [List.all_eq_true] at hlegal ⊢
  exact fun ev hev => hlegal ev (List.mem_of_mem_take hev)

theorem resetDuring_issuesLegally {op : Operation} {n : Nat} {s t : State} (h : resetDuring op n s = .next t) :
    IssuesLegally s t := by
  have hstopped : IssuesLegally s (resetAfter 0 s s) := resetAfter_issuesLegally 0 (issuesLegally_rfl s)
  unfold resetDuring at h
  split at h
  case h_1 hop =>
    cases h
    exact resetAfter_issuesLegally n (operationOutcome_issuesLegally hop)
  all_goals
    split at h <;> cases h
    exact hstopped

/-! ### One agent's move -/

theorem act_issuesLegally {a : Action} {s t : State} (h : act a s = .next t) : IssuesLegally s t := by
  cases a with
  | cmdWrite w => exact runWord_issuesLegally h
  | cmdPartialWrite b => cases h
  | hostRead r => cases h; exact issuesLegally_of_silent rfl rfl
  | timerRequest => cases h; exact timerRequest_issuesLegally s
  | timerTurn => cases h; exact timerTurn_issuesLegally s
  | reset => cases h; exact issuesLegally_of_silent rfl rfl
  | resetDuring op n => exact resetDuring_issuesLegally h

end Sys2Proof.Machine

namespace Sys2Proof.Proofs
open Sys2Proof.Machine

/-- Settles O57: a step is idle or one agent's move, and taking the move off the agenda issues nothing. -/
theorem everyTransactionIsLegal : Obligations.EveryTransactionIsLegal := by
  unfold Obligations.EveryTransactionIsLegal
  intro s t h
  obtain ⟨-, ⟨-, rfl⟩ | ⟨a, rest, -, hact⟩⟩ := step_next h
  · exact issuesLegally_rfl t
  · have htake : IssuesLegally s (takeMove s) := issuesLegally_of_silent rfl rfl
    exact htake.trans (act_issuesLegally hact)

end Sys2Proof.Proofs
end

section
/-! SUPPORT. The commands of 41_expander.md in every case, from what each micro-operation does when its transactions all
return `Ok` and when transaction j is the first to fail. -/
namespace Sys2Proof.Machine

/-! ### Answers and transactions, split between two operations in a row -/

/-- The next `n` transactions all return `Ok`, or one of them is the first to fail. -/
theorem allOk_or_failsAt (n : Nat) (s : State) :
    allOk n s = true ∨ ∃ j k, j < n ∧ failsAt j k s = true := by
  induction n with
  | zero => exact Or.inl rfl
  | succ n ih =>
    obtain hok | ⟨j, k, hj, hfail⟩ := ih
    · cases hn : upcoming s n with
      | err k => exact Or.inr ⟨n, k, n.lt_succ_self, by simp [failsAt, hok, hn]⟩
      | ok a b =>
        rw [allOk_iff] at hok
        refine Or.inl ((allOk_iff _ s).mpr fun i hi => ?_)
        obtain hi | rfl := Nat.lt_succ_iff_lt_or_eq.mp hi
        · exact hok i hi
        · exact ⟨a, b, hn⟩
    · exact Or.inr ⟨j, k, by omega, hfail⟩

theorem allOk_of_le {m n : Nat} {s : State} (hmn : m ≤ n) (h : allOk n s = true) : allOk m s = true := by
  rw [allOk_iff] at h ⊢
  exact fun j hj => h j (by omega)

theorem allOk_of_failsAt {m j : Nat} {k : TransportErrorKind} {s : State} (hmj : m ≤ j) (h : failsAt j k s = true) :
    allOk m s = true := by
  rw [failsAt, Bool.and_eq_true] at h
  exact allOk_of_le hmj h.1

/-- After `evs` have been issued, the answers still to come are those past them. -/
theorem allOk_issued {evs : List BusEvent} {n : Nat} {s : State} (h : allOk (evs.length + n) s = true) :
    allOk n (issued evs s) = true := by
  simp only [allOk_iff, upcoming_issued] at h ⊢
  exact fun j hj => h _ (by omega)

theorem failsAt_issued {evs : List BusEvent} {j : Nat} {k : TransportErrorKind} {s : State}
    (h : failsAt (evs.length + j) k s = true) : failsAt j k (issued evs s) = true := by
  simp only [failsAt_iff, upcoming_issued] at h ⊢
  exact ⟨fun i hi => h.1 _ (by omega), h.2⟩

@[simp] theorem allOk_setCache (n : Nat) (l : Latch) (p : Port) (v : Byte) (s : State) :
    allOk n (setCache l p v s) = allOk n s := by simp [allOk]

@[simp] theorem failsAt_setCache (j : Nat) (k : TransportErrorKind) (l : Latch) (p : Port) (v : Byte) (s : State) :
    failsAt j k (setCache l p v s) = failsAt j k s := by simp [failsAt]

@[simp] theorem allOk_setInitDone (n : Nat) (b : Bool) (s : State) : allOk n (setInitDone b s) = allOk n s := rfl

@[simp] theorem failsAt_setInitDone (j : Nat) (k : TransportErrorKind) (b : Bool) (s : State) :
    failsAt j k (setInitDone b s) = failsAt j k s := rfl

theorem cutAt_append_left {j : Nat} {as : List BusEvent} (k : TransportErrorKind) (bs : List BusEvent)
    (h : j < as.length) : cutAt j k (as ++ bs) = cutAt j k as := by
  simp only [cutAt, List.take_append_of_le_length h.le, List.drop_append_of_le_length h.le]
  rw [List.take_append_of_le_length (by rw [List.length_drop]; omega)]

theorem cutAt_append_right (j : Nat) (k : TransportErrorKind) (as bs : List BusEvent) :
    cutAt (as.length + j) k (as ++ bs) = as ++ cutAt j k bs := by
  simp [cutAt, List.take_length_add_append, List.drop_length_add_append]

/-! ### Each micro-operation when it completes, and when transaction j is the first to fail -/

theorem readReg_ok (k : RegKind) (p : Port) {s : State} (h : allOk 2 s = true) :
    readReg k p s = .done (byte0 (upcoming s 1))
      (issued [evPoint s.cfg k p, evRead1 s.cfg (byte0 (upcoming s 1))] s) := by
  rw [allOk_iff] at h
  obtain ⟨a, b, h0⟩ := h 0 (by omega)
  obtain ⟨c, d, h1⟩ := h 1 (by omega)
  simp [readReg_eq, h0, h1, byte0]

theorem readReg_fails (r : RegKind) (p : Port) {j : Nat} {k : TransportErrorKind} {s : State} (hj : j < 2)
    (h : failsAt j k s = true) :
    readReg r p s = .raised k
      (issued (cutAt j k [evPoint s.cfg r p, evRead1 s.cfg (byte0 (upcoming s 1))]) s) := by
  obtain ⟨hok, hk⟩ := (failsAt_iff j k s).mp h
  obtain rfl | rfl : j = 0 ∨ j = 1 := by omega
  · simp [readReg_eq, hk, cutAt, failedWith, evPoint]
  · obtain ⟨a, b, h0⟩ := hok 0 (by omega)
    simp [readReg_eq, h0, hk, cutAt, failedWith, evPoint, evRead1]

theorem writeCached_ok (l : Latch) (p : Port) (v : Byte) {s : State} (h : allOk 1 s = true) :
    writeCached l p v s = .done () (setCache l p v (issued [evStore s.cfg l p v] s)) := by
  obtain ⟨a, b, h0⟩ := (allOk_iff 1 s).mp h 0 (by omega)
  rw [writeCached_eq, h0]

theorem writeCached_fails (l : Latch) (p : Port) (v : Byte) {k : TransportErrorKind} {s : State}
    (h : failsAt 0 k s = true) :
    writeCached l p v s = .raised (.busError k) (issued (cutAt 0 k [evStore s.cfg l p v]) s) := by
  rw [writeCached_eq, ((failsAt_iff 0 k s).mp h).2]
  rfl

/-- Both cache registers of a kind written. -/
def setPair (l : Latch) (m0 m1 : Byte) (s : State) : State := setCache l .p1 m1 (setCache l .p0 m0 s)

@[simp] theorem setPair_cfg (l : Latch) (m0 m1 : Byte) (s : State) : (setPair l m0 m1 s).cfg = s.cfg := by simp [setPair]

@[simp] theorem issued_setPair (evs : List BusEvent) (l : Latch) (m0 m1 : Byte) (s : State) :
    issued evs (setPair l m0 m1 s) = setPair l m0 m1 (issued evs s) := by simp [setPair]

@[simp] theorem allOk_setPair (n : Nat) (l : Latch) (m0 m1 : Byte) (s : State) :
    allOk n (setPair l m0 m1 s) = allOk n s := by simp [setPair]

@[simp] theorem failsAt_setPair (j : Nat) (k : TransportErrorKind) (l : Latch) (m0 m1 : Byte) (s : State) :
    failsAt j k (setPair l m0 m1 s) = failsAt j k s := by simp [setPair]

/-- The two transactions of `WRITE_PAIR` (40_register_access.md rule R128). -/
def pairEvents (l : Latch) (m0 m1 : Byte) (s : State) : List BusEvent :=
  [evStore s.cfg l .p0 m0, evStore s.cfg l .p1 m1]

theorem writePair_ok (l : Latch) (m0 m1 : Byte) {s : State} (h : allOk 2 s = true) :
    writePair l m0 m1 s = .done () (setPair l m0 m1 (issued (pairEvents l m0 m1 s) s)) := by
  have hsecond : allOk 1 (setCache l .p0 m0 (issued [evStore s.cfg l .p0 m0] s)) = true := by
    simpa using allOk_issued (evs := [evStore s.cfg l .p0 m0]) (n := 1) h
  rw [writePair, writeCached_ok l .p0 m0 (allOk_of_le (by omega) h), Ran.andThen_done, writeCached_ok l .p1 m1 hsecond]
  simp [pairEvents, setPair]

/-- Port 0's write fails: nothing is cached. -/
theorem writePair_fails_first (l : Latch) (m0 m1 : Byte) {k : TransportErrorKind} {s : State} (h : failsAt 0 k s = true) :
    writePair l m0 m1 s = .raised (.busError k) (issued (cutAt 0 k (pairEvents l m0 m1 s)) s) := by
  rw [writePair, writeCached_fails l .p0 m0 h, Ran.andThen_raised]
  rfl

/-- Port 1's write fails: port 0 is written and cached. -/
theorem writePair_fails_second (l : Latch) (m0 m1 : Byte) {k : TransportErrorKind} {s : State} (h : failsAt 1 k s = true) :
    writePair l m0 m1 s =
      .raised (.busError k) (setCache l .p0 m0 (issued (cutAt 1 k (pairEvents l m0 m1 s)) s)) := by
  have hsecond : failsAt 0 k (setCache l .p0 m0 (issued [evStore s.cfg l .p0 m0] s)) = true := by
    simpa using failsAt_issued (evs := [evStore s.cfg l .p0 m0]) (j := 0) h
  rw [writePair, writeCached_ok l .p0 m0 (allOk_of_failsAt le_rfl h), Ran.andThen_done,
    writeCached_fails l .p1 m1 hsecond]
  simp [pairEvents, cutAt]

/-- The transactions of a read-modify-write through the chip that writes `v` (40_register_access.md rule R127). -/
def rmwEvents (l : Latch) (p : Port) (v : Byte) (s : State) : List BusEvent :=
  [evPoint s.cfg l.reg p, evRead1 s.cfg (byte0 (upcoming s 1)), evStore s.cfg l p v]

theorem rmw_hardware_ok (l : Latch) (p : Port) (f : Byte → Byte) {s : State} (hm : s.cfg.rmwSource = .hardware)
    (h : allOk 3 s = true) :
    rmw l p f s = .done () (setCache l p (f (byte0 (upcoming s 1)))
      (issued (rmwEvents l p (f (byte0 (upcoming s 1))) s) s)) := by
  have hstore := allOk_issued (evs := [evPoint s.cfg l.reg p, evRead1 s.cfg (byte0 (upcoming s 1))]) (n := 1) h
  simp only [rmw, rmwOld, hm, readReg_ok l.reg p (allOk_of_le (by omega) h), Ran.wrap_done, Ran.andThen_done,
    writeCached_ok l p _ hstore]
  simp [rmwEvents]

theorem rmw_hardware_fails (l : Latch) (p : Port) (f : Byte → Byte) {j : Nat} {k : TransportErrorKind} {s : State}
    (hm : s.cfg.rmwSource = .hardware) (hj : j < 3) (h : failsAt j k s = true) :
    rmw l p f s = .raised (.busError k)
      (issued (cutAt j k (rmwEvents l p (f (byte0 (upcoming s 1))) s)) s) := by
  have hsplit : rmwEvents l p (f (byte0 (upcoming s 1))) s =
      [evPoint s.cfg l.reg p, evRead1 s.cfg (byte0 (upcoming s 1))] ++
        [evStore s.cfg l p (f (byte0 (upcoming s 1)))] := rfl
  by_cases hread : j < 2
  · simp only [rmw, rmwOld, hm, readReg_fails l.reg p hread h, Ran.wrap_raised, Ran.andThen_raised, hsplit,
      cutAt_append_left k _ (show j < [_, _].length from hread)]
  · obtain rfl : j = 2 := by omega
    have hstore := failsAt_issued (evs := [evPoint s.cfg l.reg p, evRead1 s.cfg (byte0 (upcoming s 1))]) (j := 0) h
    simp only [rmw, rmwOld, hm, readReg_ok l.reg p (allOk_of_failsAt le_rfl h), Ran.wrap_done, Ran.andThen_done,
      writeCached_fails l p _ hstore, issued_issued, issued_cfg, hsplit]
    exact congrArg _ (congrArg (issued · s) (cutAt_append_right 0 k _ _).symm)

theorem rmw_cache (l : Latch) (p : Port) (f : Byte → Byte) {s : State} (hm : s.cfg.rmwSource = .cache) :
    rmw l p f s = writeCached l p (f (cached l p s)) s := by
  simp only [rmw, rmwOld, hm, Ran.andThen_done]

theorem bulkToRes_ok (r : RegKind) (seen : Byte → Byte → State → State) {s : State}
    (h : allOk (bulkCount s.cfg) s = true) :
    bulkToRes r seen s = .done () (setRes ((packPorts (bulkData s).1 (bulkData s).2).setWidth 32) 0 0 0
      (seen (bulkData s).1 (bulkData s).2 (issued (bulkEvents r s) s))) := by
  rw [bulkToRes, bulkRead_ok r s h, Ran.wrap_done, Ran.andThen_done]

theorem bulkToRes_fails (r : RegKind) (seen : Byte → Byte → State → State) {j : Nat} {k : TransportErrorKind}
    {s : State} (hj : j < bulkCount s.cfg) (h : failsAt j k s = true) :
    bulkToRes r seen s = .raised (.busError k) (issued (cutAt j k (bulkEvents r s)) s) := by
  rw [bulkToRes, bulkRead_fails r s j k hj h, Ran.wrap_raised, Ran.andThen_raised]

/-! ### The frame around a body (60_exceptions.md rule R246) -/

theorem exec_of_done (i : Instr) {s t : State} (hfault : commandFaults i s = false)
    (h : commandBody i (clearRes s) = .done () t) : exec i s = .next (setStatus 0x00 0x00 t) :=
  (exec_next_iff i s _).mpr ⟨hfault, by rw [h]; rfl⟩

theorem exec_of_raised (i : Instr) {s t : State} {e : Raise} (hfault : commandFaults i s = false)
    (h : commandBody i (clearRes s) = .raised e t) : exec i s = .next (setStatus (errCode e) (terrCode e) t) :=
  (exec_next_iff i s _).mpr ⟨hfault, by rw [h]; rfl⟩

/-! ### INIT (41_expander.md rule R140) -/

/-- The two transactions of the presence probe. -/
def probeEvents (s : State) : List BusEvent := [evPoint s.cfg .input .p0, evRead1 s.cfg (byte0 (upcoming s 1))]

theorem probe_ok {s : State} (h : allOk 2 s = true) : probe s = .done () (issued (probeEvents s) s) := by
  rw [probe, readReg_ok .input .p0 h]
  rfl

theorem probe_fails {j : Nat} {k : TransportErrorKind} {s : State} (hj : j < 2) (h : failsAt j k s = true) :
    probe s = .raised (.chipNotFound k) (issued (cutAt j k (probeEvents s)) s) := by
  rw [probe, readReg_fails .input .p0 hj h]
  rfl

/-- INIT's transactions in their order: the probe, the directions, the outputs. -/
def initEvents (s : State) : List BusEvent :=
  probeEvents s ++ (pairEvents .cfg 0xFF 0xFF s ++ pairEvents .out 0x00 0x00 s)

theorem initBody_running {s : State} (hr : s.eng.running = true) : initBody s = .raised .engineRunning s := by
  rw [initBody, if_pos hr]

theorem initBody_probe_fails {j : Nat} {k : TransportErrorKind} {s : State} (hr : s.eng.running = false) (hj : j < 2)
    (h : failsAt j k s = true) :
    initBody s = .raised (.chipNotFound k) (setInitDone false (issued (cutAt j k (initEvents s)) s)) := by
  rw [initBody, hr, if_neg Bool.false_ne_true, probe_fails (s := setInitDone false s) hj h, Ran.andThen_raised,
    initEvents, cutAt_append_left k _ hj]
  rfl

/-- What is left of INIT after its probe and its direction registers. -/
def initOutputs (s : State) : Ran Raise Unit :=
  (writePair .out 0x00 0x00 s).andThen fun _ s => .done () (setInitDone true s)

/-- The state INIT's probe leaves. -/
def probed (s : State) : State := setInitDone false (issued (probeEvents s) s)

/-- The state INIT's direction writes leave. -/
def directed (s : State) : State :=
  setPair .cfg 0xFF 0xFF (setInitDone false (issued (probeEvents s ++ pairEvents .cfg 0xFF 0xFF s) s))

theorem initBody_of_probe {s : State} (hr : s.eng.running = false) (h : allOk 2 s = true) :
    initBody s = (writePair .cfg 0xFF 0xFF (probed s)).andThen fun _ s => initOutputs s := by
  rw [initBody, hr, if_neg Bool.false_ne_true, probe_ok (s := setInitDone false s) h]
  rfl

theorem initBody_of_directions {s : State} (hr : s.eng.running = false) (h : allOk 4 s = true) :
    initBody s = initOutputs (directed s) := by
  have hpair : allOk 2 (probed s) = true := allOk_issued (evs := probeEvents s) (n := 2) h
  rw [initBody_of_probe hr (allOk_of_le (by omega) h), writePair_ok .cfg 0xFF 0xFF hpair, Ran.andThen_done]
  simp [directed, probed, pairEvents]

theorem initBody_ok {s : State} (hr : s.eng.running = false) (h : allOk 6 s = true) :
    initBody s = .done () (setInitDone true (setPair .out 0x00 0x00
      (setPair .cfg 0xFF 0xFF (setInitDone false (issued (initEvents s) s))))) := by
  have hpair : allOk 2 (directed s) = true := by
    simpa [directed] using allOk_issued (evs := probeEvents s ++ pairEvents .cfg 0xFF 0xFF s) (n := 2) h
  rw [initBody_of_directions hr (allOk_of_le (by omega) h), initOutputs, writePair_ok .out 0x00 0x00 hpair]
  simp [directed, initEvents, pairEvents]

theorem initBody_first_direction_fails {k : TransportErrorKind} {s : State} (hr : s.eng.running = false)
    (h : failsAt 2 k s = true) :
    initBody s = .raised (.busError k) (setInitDone false (issued (cutAt 2 k (initEvents s)) s)) := by
  have hpair : failsAt 0 k (probed s) = true := failsAt_issued (evs := probeEvents s) h
  rw [initBody_of_probe hr (allOk_of_failsAt le_rfl h), writePair_fails_first _ _ _ hpair]
  simp [probed, initEvents, pairEvents, probeEvents, cutAt]

theorem initBody_second_direction_fails {k : TransportErrorKind} {s : State} (hr : s.eng.running = false)
    (h : failsAt 3 k s = true) :
    initBody s = .raised (.busError k)
      (setCache .cfg .p0 0xFF (setInitDone false (issued (cutAt 3 k (initEvents s)) s))) := by
  have hpair : failsAt 1 k (probed s) = true := failsAt_issued (evs := probeEvents s) h
  rw [initBody_of_probe hr (allOk_of_failsAt (by omega) h), writePair_fails_second _ _ _ hpair]
  simp [probed, initEvents, pairEvents, probeEvents, cutAt]

theorem initBody_first_output_fails {k : TransportErrorKind} {s : State} (hr : s.eng.running = false)
    (h : failsAt 4 k s = true) :
    initBody s = .raised (.busError k)
      (setPair .cfg 0xFF 0xFF (setInitDone false (issued (cutAt 4 k (initEvents s)) s))) := by
  have hpair : failsAt 0 k (directed s) = true := by
    simpa [directed] using failsAt_issued (evs := probeEvents s ++ pairEvents .cfg 0xFF 0xFF s) (j := 0) h
  rw [initBody_of_directions hr (allOk_of_failsAt le_rfl h), initOutputs, writePair_fails_first _ _ _ hpair]
  simp [directed, initEvents, pairEvents, probeEvents, cutAt]

theorem initBody_second_output_fails {k : TransportErrorKind} {s : State} (hr : s.eng.running = false)
    (h : failsAt 5 k s = true) :
    initBody s = .raised (.busError k) (setCache .out .p0 0x00
      (setPair .cfg 0xFF 0xFF (setInitDone false (issued (cutAt 5 k (initEvents s)) s)))) := by
  have hpair : failsAt 1 k (directed s) = true := by
    simpa [directed] using failsAt_issued (evs := probeEvents s ++ pairEvents .cfg 0xFF 0xFF s) (j := 1) h
  rw [initBody_of_directions hr (allOk_of_failsAt (by omega) h), initOutputs, writePair_fails_second _ _ _ hpair]
  simp [directed, initEvents, pairEvents, probeEvents, cutAt]

/-! ### SETDIR, SETLVL, TOGGLE (41_expander.md rules R141, R143, R150) -/

theorem pinOk_of_lt {pin : Byte} (h : pin.toNat < 16) : pinOk pin = true := decide_eq_true h

theorem pinOk_of_le {pin : Byte} (h : 16 ≤ pin.toNat) : pinOk pin = false := decide_eq_false (by omega)

/-- The command is a read-modify-write of one pin's bit: in the register `l` of the pin's port, by `f`. -/
structure IsPinCommand (i : Instr) (l : Latch) (pin : Byte) (f : Nat → Byte → Byte) : Prop where
  body : commandBody i = pinBody l pin f
  faults : ∀ s, commandFaults i s = (pinOk pin && rmwFaults l (portOf pin.toNat) s)

/-- The value a read-modify-write command writes back, from the register's old value. -/
def newValue (pin : Byte) (f : Nat → Byte → Byte) (old : Byte) : Byte := f (bitOf pin.toNat) old

theorem pinBody_invalid {l : Latch} {pin : Byte} {f : Nat → Byte → Byte} (hpin : 16 ≤ pin.toNat) (s : State) :
    pinBody l pin f s = .raised .invalidPin s := by
  rw [pinBody, pinOk_of_le hpin, if_neg Bool.false_ne_true]

theorem pinBody_valid {l : Latch} {pin : Byte} {f : Nat → Byte → Byte} (hpin : pin.toNat < 16) (s : State) :
    pinBody l pin f s = rmw l (portOf pin.toNat) (newValue pin f) s := by
  rw [pinBody, pinOk_of_lt hpin, if_pos rfl]
  rfl

namespace IsPinCommand
variable {i : Instr} {l : Latch} {pin : Byte} {f : Nat → Byte → Byte} {s : State}

theorem no_fault_hardware (hi : IsPinCommand i l pin f) (hm : s.cfg.rmwSource = .hardware) : commandFaults i s = false := by
  rw [hi.faults, rmwFaults, hm]
  exact Bool.and_false _

theorem no_fault_cache (hi : IsPinCommand i l pin f) (hv : cacheValid l (portOf pin.toNat) s = true) :
    commandFaults i s = false := by
  rw [hi.faults, rmwFaults, hv, Bool.not_true, Bool.and_false, Bool.and_false]

theorem exec_invalid (hi : IsPinCommand i l pin f) (hpin : 16 ≤ pin.toNat) :
    exec i s = .next { s with host := errRegs 0x03 0x00 } := by
  refine exec_of_raised i ?_ (by rw [hi.body, pinBody_invalid hpin])
  rw [hi.faults, pinOk_of_le hpin, Bool.false_and]

theorem exec_unwritten (hi : IsPinCommand i l pin f) (hpin : pin.toNat < 16) (hm : s.cfg.rmwSource = .cache)
    (hv : cacheValid l (portOf pin.toNat) s = false) : exec i s = .fault .cacheUnwritten := by
  rw [exec_eq, hi.faults, pinOk_of_lt hpin, rmwFaults, hm, hv]
  rfl

theorem exec_hardware_ok (hi : IsPinCommand i l pin f) (hpin : pin.toNat < 16) (hm : s.cfg.rmwSource = .hardware)
    (hok : allOk 3 s = true) :
    exec i s = .next { s with
      host := okRegs 0 0 0 0
      exp := expWithCache s.exp l (portOf pin.toNat) (newValue pin f (byte0 (upcoming s 1)))
      env := afterBus (rmwEvents l (portOf pin.toNat) (newValue pin f (byte0 (upcoming s 1))) s) s } := by
  have hbody := rmw_hardware_ok l (portOf pin.toNat) (newValue pin f) (s := clearRes s) hm hok
  rw [← pinBody_valid hpin, ← hi.body] at hbody
  rw [exec_of_done i (hi.no_fault_hardware hm) hbody]
  cases l <;> rfl

theorem exec_cache_ok (hi : IsPinCommand i l pin f) (hpin : pin.toNat < 16) (hm : s.cfg.rmwSource = .cache)
    (hv : cacheValid l (portOf pin.toNat) s = true) (hok : allOk 1 s = true) :
    exec i s = .next { s with
      host := okRegs 0 0 0 0
      exp := expWithCache s.exp l (portOf pin.toNat) (newValue pin f (cached l (portOf pin.toNat) s))
      env := afterBus [evStore s.cfg l (portOf pin.toNat) (newValue pin f (cached l (portOf pin.toNat) s))] s } := by
  have hbody := rmw_cache l (portOf pin.toNat) (newValue pin f) (s := clearRes s) hm
  rw [writeCached_ok (s := clearRes s) _ _ _ hok, ← pinBody_valid hpin, ← hi.body] at hbody
  rw [exec_of_done i (hi.no_fault_cache hv) hbody]
  cases l <;> rfl

theorem exec_hardware_fails (hi : IsPinCommand i l pin f) (hpin : pin.toNat < 16) (hm : s.cfg.rmwSource = .hardware)
    {j : Nat} {k : TransportErrorKind} (hj : j < 3) (hfail : failsAt j k s = true) :
    exec i s = .next { s with
      host := errRegs 0x01 (kindCode k)
      env := afterBus (cutAt j k (rmwEvents l (portOf pin.toNat) (newValue pin f (byte0 (upcoming s 1))) s)) s } := by
  have hbody := rmw_hardware_fails l (portOf pin.toNat) (newValue pin f) (s := clearRes s) hm hj hfail
  rw [← pinBody_valid hpin, ← hi.body] at hbody
  exact exec_of_raised i (hi.no_fault_hardware hm) hbody

theorem exec_cache_fails (hi : IsPinCommand i l pin f) (hpin : pin.toNat < 16) (hm : s.cfg.rmwSource = .cache)
    (hv : cacheValid l (portOf pin.toNat) s = true) {k : TransportErrorKind} (hfail : failsAt 0 k s = true) :
    exec i s = .next { s with
      host := errRegs 0x01 (kindCode k)
      env := afterBus (cutAt 0 k
        [evStore s.cfg l (portOf pin.toNat) (newValue pin f (cached l (portOf pin.toNat) s))]) s } := by
  have hbody := rmw_cache l (portOf pin.toNat) (newValue pin f) (s := clearRes s) hm
  rw [writeCached_fails (s := clearRes s) _ _ _ hfail, ← pinBody_valid hpin, ← hi.body] at hbody
  rw [exec_of_raised i (hi.no_fault_cache hv) hbody]
  rfl

/-- The six cases together, for a command whose `f` changes the pin's bit by `newBit` and keeps the other seven. -/
theorem pinCommandCases (hi : IsPinCommand i l pin f) {newBit : Bool → Bool}
    (hf : ∀ old : Byte, ∀ j, j < 8 → (newValue pin f old).getLsbD j =
      if j = pin.toNat % 8 then newBit (old.getLsbD j) else old.getLsbD j) (s : State) :
    PinCommandCases i l pin newBit s :=
  ⟨hi.exec_invalid,
    fun hpin hm hok => ⟨_, hf _, hi.exec_hardware_ok hpin hm hok⟩,
    fun hpin hm hv hok => ⟨_, hf _, hi.exec_cache_ok hpin hm hv hok⟩,
    fun _ _ hpin hm hj hfail => ⟨_, hf _, hi.exec_hardware_fails hpin hm hj hfail⟩,
    fun _ hpin hm hv hfail => ⟨_, hf _, hi.exec_cache_fails hpin hm hv hfail⟩,
    hi.exec_unwritten⟩

/-- A pin command that ends OK stores `newValue` of the register's old value: the chip's under Hardware, whose answer comes
second of three, and the cached one under Cache. -/
theorem stores (hi : IsPinCommand i l pin f) {t : State} (hpin : pin.toNat < 16) (h : exec i s = .next t)
    (herr : t.host.err = 0x00) :
    t.cfg = s.cfg ∧
    (s.cfg.rmwSource = .cache →
      cached l (portOf pin.toNat) t = newValue pin f (cached l (portOf pin.toNat) s)) ∧
    (s.cfg.rmwSource = .hardware →
      cached l (portOf pin.toNat) t = newValue pin f (byte0 (upcoming s 1)) ∧
        ∀ n, upcoming t n = upcoming s (3 + n)) := by
  have hcached (v : Byte) (host : HostRegs) (env : Env) :
      cached l (portOf pin.toNat) { s with
        host := host, exp := expWithCache s.exp l (portOf pin.toNat) v, env := env } = v := by
    cases l <;> exact Ports.get_set_same _ _ _
  cases hm : s.cfg.rmwSource with
  | hardware =>
    obtain hok | ⟨j, k, hj, hfail⟩ := allOk_or_failsAt 3 s
    · rw [hi.exec_hardware_ok hpin hm hok] at h
      cases h
      exact ⟨rfl, nofun, fun _ => ⟨hcached _ _ _, upcoming_issued (rmwEvents _ _ _ s) s⟩⟩
    · rw [hi.exec_hardware_fails hpin hm hj hfail] at h
      cases h
      cases herr
  | cache =>
    cases hv : cacheValid l (portOf pin.toNat) s with
    | false =>
      rw [hi.exec_unwritten hpin hm hv] at h
      cases h
    | true =>
      obtain hok | ⟨j, k, hj, hfail⟩ := allOk_or_failsAt 1 s
      · rw [hi.exec_cache_ok hpin hm hv hok] at h
        cases h
        exact ⟨rfl, fun _ => hcached _ _ _, nofun⟩
      · obtain rfl : j = 0 := by omega
        rw [hi.exec_cache_fails hpin hm hv hfail] at h
        cases h
        cases herr

end IsPinCommand

theorem setdir_isPinCommand (pin : Byte) (dir : Bool) :
    IsPinCommand (.setdir pin dir) .cfg pin fun n => putb n dir := ⟨rfl, fun _ => rfl⟩

theorem setlvl_isPinCommand (pin : Byte) (level : Bool) :
    IsPinCommand (.setlvl pin level) .out pin fun n => putb n level := ⟨rfl, fun _ => rfl⟩

theorem toggle_isPinCommand (pin : Byte) : IsPinCommand (.toggle pin) .out pin flipb := ⟨rfl, fun _ => rfl⟩

/-! ### The bit functions (40_register_access.md rule R129) -/

theorem oneBit_getLsbD (n : Nat) {j : Nat} (hj : j < 8) : (1#8 <<< n).getLsbD j = decide (j = n) := by
  rw [← BitVec.twoPow_eq, BitVec.getLsbD_twoPow]
  by_cases h : j = n
  · simp [← h, hj]
  · simp [h, Ne.symm h]

theorem putb_getLsbD (n : Nat) (b : Bool) (x : Byte) {j : Nat} (hj : j < 8) :
    (putb n b x).getLsbD j = if j = n then b else x.getLsbD j := by
  cases b with
  | true =>
    rw [putb, if_pos rfl, setb, BitVec.getLsbD_or, oneBit_getLsbD n hj]
    by_cases h : j = n <;> simp [h]
  | false =>
    rw [putb, if_neg Bool.false_ne_true, clrb, BitVec.getLsbD_and, BitVec.getLsbD_not, oneBit_getLsbD n hj]
    by_cases h : j = n <;> simp [h, hj]

theorem flipb_getLsbD (n : Nat) (x : Byte) {j : Nat} (hj : j < 8) :
    (flipb n x).getLsbD j = if j = n then !x.getLsbD j else x.getLsbD j := by
  rw [flipb, BitVec.getLsbD_xor, oneBit_getLsbD n hj]
  by_cases h : j = n <;> simp [h]

theorem flipb_flipb (n : Nat) (x : Byte) : flipb n (flipb n x) = x := by
  rw [flipb, flipb, BitVec.xor_assoc, BitVec.xor_self, BitVec.xor_zero]

/-! ### GETLVL (41_expander.md rule R145) -/

theorem bitWord_eq (b : Bool) : bitWord b = if b then 1 else 0 := by cases b <;> rfl

theorem getlvlBody_invalid {pin : Byte} (hpin : 16 ≤ pin.toNat) (s : State) :
    getlvlBody pin s = .raised .invalidPin s := by
  rw [getlvlBody, pinOk_of_le hpin, if_neg Bool.false_ne_true]

theorem getlvlBody_ok {pin : Byte} {s : State} (hpin : pin.toNat < 16) (h : allOk 2 s = true) :
    getlvlBody pin s = .done () (setRes (bitWord ((byte0 (upcoming s 1)).getLsbD (bitOf pin.toNat))) 0 0 0
      (observe (portOf pin.toNat) (byte0 (upcoming s 1)) (issued
        [evPoint s.cfg .input (portOf pin.toNat), evRead1 s.cfg (byte0 (upcoming s 1))] s))) := by
  rw [getlvlBody, pinOk_of_lt hpin, if_pos rfl, readReg_ok _ _ h, Ran.wrap_done, Ran.andThen_done]

theorem getlvlBody_fails {pin : Byte} {j : Nat} {k : TransportErrorKind} {s : State} (hpin : pin.toNat < 16)
    (hj : j < 2) (h : failsAt j k s = true) :
    getlvlBody pin s = .raised (.busError k) (issued (cutAt j k
      [evPoint s.cfg .input (portOf pin.toNat), evRead1 s.cfg (byte0 (upcoming s 1))]) s) := by
  rw [getlvlBody, pinOk_of_lt hpin, if_pos rfl, readReg_fails _ _ hj h, Ran.wrap_raised, Ran.andThen_raised]

/-! ### RDCACHE (41_expander.md rule R152) -/

theorem bitWord_getLsbD (b : Bool) (n : Nat) : (bitWord b).getLsbD n = (decide (n = 0) && b) := by
  rw [bitWord, BitVec.getLsbD_setWidth, BitVec.getLsbD_ofBool]
  by_cases h : n = 0 <;> simp [h]

theorem rdcacheRes0_bytes (x : Expander) :
    (rdcacheRes0 x).extractLsb' 0 8 = x.cacheDir.p0 ∧ (rdcacheRes0 x).extractLsb' 8 8 = x.cacheDir.p1 ∧
      (rdcacheRes0 x).extractLsb' 16 8 = x.cacheOut.p0 ∧ (rdcacheRes0 x).extractLsb' 24 8 = x.cacheOut.p1 := by
  refine ⟨?_, ?_, ?_, ?_⟩ <;>
  · ext n hn
    simp only [rdcacheRes0, BitVec.getElem_extractLsb', BitVec.getLsbD_or, BitVec.getLsbD_shiftLeft, BitVec.getLsbD_setWidth]
    grind

theorem rdcacheRes1_bits (x : Expander) (n : Nat) :
    (rdcacheRes1 x).getLsbD n = if n = 0 then x.dirValid.p0 else if n = 1 then x.dirValid.p1 else
      if n = 2 then x.outValid.p0 else if n = 3 then x.outValid.p1 else if n = 4 then x.initDone else false := by
  simp only [rdcacheRes1, BitVec.getLsbD_or, BitVec.getLsbD_shiftLeft, bitWord_getLsbD]
  grind

theorem rdcacheRes2_bytes (x : Expander) :
    (rdcacheRes2 x).extractLsb' 0 8 = x.lastIn.p0 ∧ (rdcacheRes2 x).extractLsb' 8 8 = x.lastIn.p1 ∧
      (rdcacheRes2 x).extractLsb' 16 16 = 0 := by
  refine ⟨?_, ?_, ?_⟩ <;>
  · ext n hn
    simp only [rdcacheRes2, packPorts, BitVec.getElem_extractLsb', BitVec.getLsbD_setWidth, BitVec.getLsbD_append]
    grind

theorem rdcacheRes3_bits (x : Expander) (n : Nat) :
    (rdcacheRes3 x).getLsbD n = if n = 0 then x.lastInValid.p0 else if n = 1 then x.lastInValid.p1 else false := by
  simp only [rdcacheRes3, BitVec.getLsbD_or, BitVec.getLsbD_shiftLeft, bitWord_getLsbD]
  grind

end Sys2Proof.Machine

namespace Sys2Proof.Proofs
open Sys2Proof.Machine

/-- Settles O19: the body of INIT by the transaction that fails first, inside the frame. -/
theorem initInEveryCase : Obligations.InitInEveryCase := by
  unfold Obligations.InitInEveryCase
  refine fun s => ⟨fun hr => exec_of_raised .init rfl (initBody_running hr),
    fun hr hok => exec_of_done .init rfl (initBody_ok hr hok), fun j k hr hj hfail => ?_⟩
  obtain rfl | rfl | rfl | rfl | rfl | rfl : j = 0 ∨ j = 1 ∨ j = 2 ∨ j = 3 ∨ j = 4 ∨ j = 5 := by omega
  · exact exec_of_raised .init rfl (initBody_probe_fails hr (by omega) hfail)
  · exact exec_of_raised .init rfl (initBody_probe_fails hr (by omega) hfail)
  · exact exec_of_raised .init rfl (initBody_first_direction_fails hr hfail)
  · exact exec_of_raised .init rfl (initBody_second_direction_fails hr hfail)
  · exact exec_of_raised .init rfl (initBody_first_output_fails hr hfail)
  · exact exec_of_raised .init rfl (initBody_second_output_fails hr hfail)

/-- Settles O24: `WRITE_PAIR` of the directions inside the frame. -/
theorem setpdirOverwritesBothPorts : Obligations.SetpdirOverwritesBothPorts := by
  unfold Obligations.SetpdirOverwritesBothPorts
  refine fun s m0 m1 k => ⟨fun hok => ?_, fun hfail => ?_, fun hfail => ?_⟩
  · exact exec_of_done (.setpdir m0 m1) rfl (writePair_ok .cfg m0 m1 hok)
  · exact exec_of_raised (.setpdir m0 m1) rfl (writePair_fails_first .cfg m0 m1 hfail)
  · exact exec_of_raised (.setpdir m0 m1) rfl (writePair_fails_second .cfg m0 m1 hfail)

/-- Settles O25: `WRITE_PAIR` of the outputs inside the frame, and a second one after the first. -/
theorem setplvlOverwritesBothPorts : Obligations.SetplvlOverwritesBothPorts := by
  unfold Obligations.SetplvlOverwritesBothPorts
  refine fun s m0 m1 k => ⟨fun hok => ?_, fun hfail => ?_, fun hfail => ?_, fun hok => ?_⟩
  · exact exec_of_done (.setplvl m0 m1) rfl (writePair_ok .out m0 m1 hok)
  · exact exec_of_raised (.setplvl m0 m1) rfl (writePair_fails_first .out m0 m1 hfail)
  · exact exec_of_raised (.setplvl m0 m1) rfl (writePair_fails_second .out m0 m1 hfail)
  · have hfirst : allOk 2 s = true := allOk_of_le (by omega) hok
    have hagain : allOk 2 (issued (pairEvents .out m0 m1 s) s) = true := allOk_issued (n := 2) hok
    exact ⟨_, _, exec_of_done (.setplvl m0 m1) rfl (writePair_ok .out m0 m1 (s := clearRes s) hfirst),
      exec_of_done (.setplvl m0 m1) rfl (writePair_ok .out m0 m1 hagain), rfl, rfl, rfl⟩

/-- Settles O21: SETDIR puts `dir` at the pin's bit of the direction register. -/
theorem setdirInEveryCase : Obligations.SetdirInEveryCase := by
  unfold Obligations.SetdirInEveryCase
  exact fun s pin dir => (setdir_isPinCommand pin dir).pinCommandCases (newBit := fun _ => dir)
    (fun old _ hj => putb_getLsbD _ dir old hj) s

/-- Settles O22: SETLVL puts `level` at the pin's bit of the output register. -/
theorem setlvlInEveryCase : Obligations.SetlvlInEveryCase := by
  unfold Obligations.SetlvlInEveryCase
  exact fun s pin level => (setlvl_isPinCommand pin level).pinCommandCases (newBit := fun _ => level)
    (fun old _ hj => putb_getLsbD _ level old hj) s

/-- Settles O23: TOGGLE flips the pin's bit of the output register, and flipping it again restores the byte. -/
theorem toggleInEveryCase : Obligations.ToggleInEveryCase := by
  unfold Obligations.ToggleInEveryCase
  refine ⟨fun s pin => (toggle_isPinCommand pin).pinCommandCases (fun old _ hj => flipb_getLsbD _ old hj) s,
    fun s t u pin hpin hst htu hterr huerr => ?_⟩
  obtain ⟨hcfg, htc, hth⟩ := (toggle_isPinCommand pin).stores hpin hst hterr
  obtain ⟨-, huc, huh⟩ := (toggle_isPinCommand pin).stores hpin htu huerr
  rw [hcfg] at huc huh
  refine ⟨fun hm => ?_, fun hm hback => ?_⟩
  · calc u.exp.cacheOut.get (portOf pin.toNat)
        = newValue pin flipb (cached .out (portOf pin.toNat) t) := huc hm
      _ = newValue pin flipb (newValue pin flipb (cached .out (portOf pin.toNat) s)) := by rw [htc hm]
      _ = s.exp.cacheOut.get (portOf pin.toNat) := flipb_flipb _ _
  · obtain ⟨hstored, hnext⟩ := hth hm
    calc u.exp.cacheOut.get (portOf pin.toNat)
        = newValue pin flipb (byte0 (upcoming t 1)) := (huh hm).1
      _ = newValue pin flipb (cached .out (portOf pin.toNat) t) := by rw [hnext]; exact congrArg _ hback
      _ = newValue pin flipb (newValue pin flipb (byte0 (upcoming s 1))) := by rw [hstored]
      _ = byte0 (upcoming s 1) := flipb_flipb _ _

/-- Settles O26: the body of GETLVL inside the frame. -/
theorem getlvlReadsThePin : Obligations.GetlvlReadsThePin := by
  unfold Obligations.GetlvlReadsThePin
  refine fun s pin => ⟨fun hpin => ?_, fun hpin hok => ?_, fun j k hpin hj hfail => ?_⟩
  · exact exec_of_raised (.getlvl pin) rfl (getlvlBody_invalid hpin _)
  · have hexec := exec_of_done (.getlvl pin) rfl (getlvlBody_ok (s := clearRes s) hpin hok)
    rw [bitWord_eq] at hexec
    exact hexec
  · exact exec_of_raised (.getlvl pin) rfl (getlvlBody_fails hpin hj hfail)

/-- Settles O27: `bulkRead_ok` and `bulkRead_fails` inside the frame, for the three kinds of register. -/
theorem bulkReadsReturnBothPorts : Obligations.BulkReadsReturnBothPorts := by
  unfold Obligations.BulkReadsReturnBothPorts
  refine fun s => ⟨fun hok => ⟨?_, ?_, ?_⟩, fun j k hj hfail => ⟨?_, ?_, ?_⟩⟩
  · exact exec_of_done .getplvl rfl (bulkToRes_ok .input observeBoth (s := clearRes s) hok)
  · exact exec_of_done .getout rfl (bulkToRes_ok .output (fun _ _ s => s) (s := clearRes s) hok)
  · exact exec_of_done .getcfg rfl (bulkToRes_ok .config (fun _ _ s => s) (s := clearRes s) hok)
  · exact exec_of_raised .getplvl rfl (bulkToRes_fails .input observeBoth hj hfail)
  · exact exec_of_raised .getout rfl (bulkToRes_fails .output (fun _ _ s => s) hj hfail)
  · exact exec_of_raised .getcfg rfl (bulkToRes_fails .config (fun _ _ s => s) hj hfail)

/-- Settles O28: the body of RDCACHE inside the frame, its four results field by field. -/
theorem rdcacheReturnsTheCache : Obligations.RdcacheReturnsTheCache := by
  unfold Obligations.RdcacheReturnsTheCache
  intro s
  obtain ⟨hdir0, hdir1, hout0, hout1⟩ := rdcacheRes0_bytes s.exp
  obtain ⟨hin0, hin1, hin2⟩ := rdcacheRes2_bytes s.exp
  have hres1 := rdcacheRes1_bits s.exp
  have hres3 := rdcacheRes3_bits s.exp
  refine ⟨rdcacheRes0 s.exp, rdcacheRes1 s.exp, rdcacheRes2 s.exp, rdcacheRes3 s.exp, rfl,
    hdir0, hdir1, hout0, hout1, hres1 0, hres1 1, hres1 2, hres1 3, hres1 4, ?_, hin0, hin1, hin2, hres3 0, hres3 1, ?_⟩
  · ext n hn
    rw [BitVec.getElem_extractLsb', rdcacheRes1_bits]
    grind
  · ext n hn
    rw [BitVec.getElem_extractLsb', rdcacheRes3_bits]
    grind

end Sys2Proof.Proofs
end

section
/-! SUPPORT. The commands of 42_engine_control.md: the body of each by its branches, and the fields of the result words. -/
namespace Sys2Proof.Machine

/-! ### The setup commands while the engine runs (42_engine_control.md rules R180, R181, R182, R184) -/

/-- ECLR, EADD, ETHR and ESTART are refused before they look at anything else. -/
theorem exec_setup_running {i : Instr} {s : State}
    (hi : i = .eclr ∨ (∃ pin, i = .eadd pin) ∨ (∃ ms, i = .ethr ms) ∨ i = .estart) (hr : s.eng.running = true) :
    exec i s = .next { s with host := errRegs 0x06 0x00 } := by
  have hfault : commandFaults i s = false := by
    obtain rfl | ⟨pin, rfl⟩ | ⟨ms, rfl⟩ | rfl := hi <;> rfl
  have hbody : commandBody i (clearRes s) = .raised .engineRunning (clearRes s) := by
    obtain rfl | ⟨pin, rfl⟩ | ⟨ms, rfl⟩ | rfl := hi <;> exact if_pos hr
  exact exec_of_raised i hfault hbody

/-- An entry at rest, field by field, with its pin. -/
theorem mapChannels_idle_get (g : Engine) (k : Fin 16) :
    (mapChannels (fun _ c => c.idle) g).ch[k] = ⟨g.ch[k].pin, .released, 0, false, true⟩ := mapChannels_get _ g k

theorem eclrBody_stopped {s : State} (hr : s.eng.running = false) :
    eclrBody s = .done () (withEngine { mapChannels (fun _ c => c.idle) s.eng with chCount := 0 } s) := by
  rw [eclrBody, hr, if_neg Bool.false_ne_true]

/-! ### EADD (42_engine_control.md rule R181) -/

theorem eq_setWidth_iff {pin : Byte} (hpin : pin.toNat < 16) (q : BitVec 4) :
    q = pin.setWidth 4 ↔ q.toNat = pin.toNat := by
  rw [← BitVec.toNat_inj, BitVec.toNat_setWidth, Nat.mod_eq_of_lt hpin]

theorem hasPin_iff {pin : Byte} (hpin : pin.toNat < 16) (g : Engine) :
    hasPin g (pin.setWidth 4) = true ↔ ∃ k : Fin 16, k.val < g.chCount.val ∧ g.ch[k].pin.toNat = pin.toNat := by
  simp only [hasPin, List.any_eq_true, mem_channels, beq_iff_eq, eq_setWidth_iff hpin]

theorem eaddBody_invalid {pin : Byte} {s : State} (hr : s.eng.running = false) (hpin : 16 ≤ pin.toNat) :
    eaddBody pin s = .raised .invalidPin s := by
  rw [eaddBody, hr, if_neg Bool.false_ne_true, pinOk_of_le hpin, Bool.not_false, if_pos rfl]

/-- A stopped EADD of a valid pin comes to the table's two checks. -/
theorem eaddBody_valid {pin : Byte} {s : State} (hr : s.eng.running = false) (hpin : pin.toNat < 16) :
    eaddBody pin s = if s.eng.chCount.val = 16 ∨ hasPin s.eng (pin.setWidth 4) = true then
      .raised .invalidChannelConfig s else .done () (withEngine (addChannel (pin.setWidth 4) s.eng) s) := by
  rw [eaddBody, hr, if_neg Bool.false_ne_true, pinOk_of_lt hpin, Bool.not_true, if_neg Bool.false_ne_true,
    Config.nChMax]
  by_cases hfull : s.eng.chCount.val = 16
  · rw [if_pos hfull, if_pos (Or.inl hfull)]
  · simp only [hfull, if_false, false_or]

theorem addChannel_get (pin : BitVec 4) (g : Engine) (k : Fin 16) :
    (addChannel pin g).ch[k] = if k.val = g.chCount.val then { g.ch[k] with pin := pin } else g.ch[k] :=
  mapChannels_get _ g k

/-! ### ETHR and EPER, and what the period is to a tick (42_engine_control.md rules R182, R183) -/

theorem ethrBody_stopped {ms : Millis24} {s : State} (hr : s.eng.running = false) :
    ethrBody ms s = .done () (withEngine { s.eng with lpThr := ms } s) := by
  rw [ethrBody, hr, if_neg Bool.false_ne_true]

/-- The engine under another polling period. -/
def withPeriod (ms : Millis24) (g : Engine) : Engine := { g with pollMs := ms }

theorem timerMayTick_withPeriod_zero (g : Engine) : timerMayTick (withPeriod 0 g) = false := Bool.and_false _

theorem emit_withPeriod (ms : Millis24) (g : Engine) (ev : Event) :
    emit (withPeriod ms g) ev = withPeriod ms (emit g ev) := by
  unfold emit
  split
  case isTrue hroom => rw [if_pos (show g.evq.length < Config.evqDepth from hroom)]; rfl
  case isFalse hfull => rw [if_neg (show ¬ g.evq.length < Config.evqDepth from hfull)]; rfl

theorem emitAll_withPeriod (ms : Millis24) (g : Engine) (evs : List Event) :
    emitAll (withPeriod ms g) evs = withPeriod ms (emitAll g evs) :=
  List.foldl_hom (withPeriod ms) (emit_withPeriod ms)

theorem tickEngine_withPeriod (ms : Millis24) (now : Word) (snap : PinMask) (g : Engine) :
    tickEngine now snap (withPeriod ms g) = withPeriod ms (tickEngine now snap g) :=
  emitAll_withPeriod ms (tickChannels now snap g) (tickEvents now snap g)

/-! ### ESTART (42_engine_control.md rule R184) -/

theorem all_cachedInput_iff (x : Expander) (g : Engine) :
    ((channels g).all fun k => cachedInput x g.ch[k].pin) = true ↔
      ∀ k : Fin 16, k.val < g.chCount.val →
        x.dirValid.get (portOf g.ch[k].pin.toNat) = true ∧
          (x.cacheDir.get (portOf g.ch[k].pin.toNat)).getLsbD (g.ch[k].pin.toNat % 8) = true := by
  simp only [List.all_eq_true, mem_channels, cachedInput, bitOf, Bool.and_eq_true]

theorem estartBody_stopped {s : State} (hr : s.eng.running = false) :
    estartBody s = if s.exp.initDone = true ∧ 0 < s.eng.chCount.val ∧
        ((channels s.eng).all fun k => cachedInput s.exp s.eng.ch[k].pin) = true then
      .done () (withEngine (started s.eng) s) else .raised .invalidChannelConfig s := by
  rw [estartBody, hr, if_neg Bool.false_ne_true]
  cases s.exp.initDone with
  | false => simp
  | true =>
    by_cases hcount : s.eng.chCount.val = 0
    · simp [hcount]
    · simp [hcount, Nat.pos_of_ne_zero hcount]

/-! ### EPOP (42_engine_control.md rule R187) -/

theorem epopBody_empty {s : State} (h : s.eng.evq = []) : epopBody s = .raised .queueEmpty s := by
  rw [epopBody, h]

theorem epopBody_cons {s : State} {ev : Event} {rest : List Event} (h : s.eng.evq = ev :: rest) :
    epopBody s = .done () (setRes (eventRes0 ev) ev.timestamp ev.durationMs (ev.members.setWidth 32)
      (withEngine { s.eng with evq := rest } s)) := by
  rw [epopBody, h]

theorem eventRes0_bytes (ev : Event) :
    (eventRes0 ev).extractLsb' 24 8 = eventCode ev.kind ∧ (eventRes0 ev).extractLsb' 16 8 = ev.channelId ∧
      (eventRes0 ev).extractLsb' 8 8 = classCode ev.cls ∧ (eventRes0 ev).extractLsb' 0 8 = 0 := by
  refine ⟨?_, ?_, ?_, ?_⟩ <;>
  · ext n hn
    simp only [eventRes0, BitVec.getElem_extractLsb', BitVec.getLsbD_or, BitVec.getLsbD_shiftLeft, BitVec.getLsbD_setWidth]
    grind

theorem setWidth_halves (m : BitVec 16) :
    (m.setWidth 32).extractLsb' 0 16 = m ∧ (m.setWidth 32).extractLsb' 16 16 = 0 := by
  constructor <;>
  · ext n hn
    simp only [BitVec.getElem_extractLsb', BitVec.getLsbD_setWidth]
    grind

/-! ### ESTAT (42_engine_control.md rule R186) -/

theorem estatRes0_fields (g : Engine) :
    (estatRes0 g).extractLsb' 16 16 = BitVec.ofNat 16 g.evq.length ∧
      (estatRes0 g).extractLsb' 8 8 = BitVec.ofNat 8 g.chCount.val ∧ (estatRes0 g).extractLsb' 2 6 = 0 ∧
      (estatRes0 g).getLsbD 1 = g.evqOvf ∧ (estatRes0 g).getLsbD 0 = g.running := by
  unfold estatRes0
  generalize BitVec.ofNat 16 g.evq.length = count
  generalize BitVec.ofNat 8 g.chCount.val = size
  refine ⟨?_, ?_, ?_, ?_, ?_⟩
  case refine_4 | refine_5 =>
    simp only [BitVec.getLsbD_or, BitVec.getLsbD_shiftLeft, BitVec.getLsbD_setWidth, bitWord_getLsbD]
    simp
  all_goals
    ext n hn
    simp only [BitVec.getElem_extractLsb', BitVec.getLsbD_or, BitVec.getLsbD_shiftLeft, BitVec.getLsbD_setWidth,
      bitWord_getLsbD]
    grind

/-- A code in the top byte over a number of milliseconds: the form of `RES1` and `RES2`. -/
theorem codeOverMillis_fields (code : Byte) (ms : Millis24) :
    ((code.setWidth 32 <<< 24) ||| ms.setWidth 32).extractLsb' 24 8 = code ∧
      ((code.setWidth 32 <<< 24) ||| ms.setWidth 32).extractLsb' 0 24 = ms := by
  constructor <;>
  · ext n hn
    simp only [BitVec.getElem_extractLsb', BitVec.getLsbD_or, BitVec.getLsbD_shiftLeft, BitVec.getLsbD_setWidth]
    grind

/-- Two bits put at channel j's place stand there and nowhere else. -/
theorem pair_at_channel (code : BitVec 2) (j k : Fin 16) :
    (code.setWidth 32 <<< (2 * j.val)).extractLsb' (2 * k.val) 2 = if j = k then code else 0 := by
  ext n hn
  simp only [BitVec.getElem_extractLsb', BitVec.getLsbD_shiftLeft, BitVec.getLsbD_setWidth]
  grind

/-- The two bits of channel k in an accumulated word of lifecycles. -/
theorem lifeWord_fold (code : Fin 16 → BitVec 2) (ks : List (Fin 16)) (w : Word) (k : Fin 16) :
    (ks.foldl (fun w j => w ||| ((code j).setWidth 32 <<< (2 * j.val))) w).extractLsb' (2 * k.val) 2 =
      w.extractLsb' (2 * k.val) 2 ||| if k ∈ ks then code k else 0 := by
  induction ks generalizing w with
  | nil => simp
  | cons j ks ih =>
    rw [List.foldl_cons, ih, BitVec.extractLsb'_or, pair_at_channel]
    by_cases hjk : j = k
    · subst hjk
      by_cases hmem : j ∈ ks <;> simp [hmem, BitVec.or_assoc]
    · simp [hjk, Ne.symm hjk]

theorem estatRes3_channel (g : Engine) (k : Fin 16) :
    (estatRes3 g).extractLsb' (2 * k.val) 2 = if k.val < g.chCount.val then lifeCode g.ch[k].life else 0 := by
  rw [estatRes3, lifeWord_fold (fun j => lifeCode g.ch[j].life)]
  simp

end Sys2Proof.Machine

namespace Sys2Proof.Proofs
open Sys2Proof.Machine

/-- Settles O29: the stopped body of ECLR inside the frame, each entry read back. -/
theorem eclrEmptiesTheTable : Obligations.EclrEmptiesTheTable := by
  unfold Obligations.EclrEmptiesTheTable
  exact fun s => ⟨exec_setup_running (.inl rfl), fun hr =>
    ⟨_, mapChannels_idle_get s.eng, exec_of_done .eclr rfl (eclrBody_stopped hr)⟩⟩

/-- Settles O30: EADD's checks in their order, then the appended entry read back. -/
theorem eaddAppendsAChannel : Obligations.EaddAppendsAChannel := by
  unfold Obligations.EaddAppendsAChannel
  refine fun s pin => ⟨exec_setup_running (.inr (.inl ⟨pin, rfl⟩)), fun hr hpin => ?_, fun hr hpin hno => ?_,
    fun hr hpin hroom hnew => ?_⟩
  · exact exec_of_raised (.eadd pin) rfl (eaddBody_invalid hr hpin)
  · rw [← hasPin_iff hpin] at hno
    exact exec_of_raised (.eadd pin) rfl ((eaddBody_valid (s := clearRes s) hr hpin).trans (if_pos hno))
  · have hyes : ¬ (s.eng.chCount.val = 16 ∨ hasPin s.eng (pin.setWidth 4) = true) := by
      rw [hasPin_iff hpin]
      rintro (hfull | ⟨k, hk, hsame⟩)
      · omega
      · exact hnew k hk hsame
    refine ⟨s.eng.chCount + 1, (addChannel (pin.setWidth 4) s.eng).ch, ?_, fun k => ?_,
      exec_of_done (.eadd pin) rfl ((eaddBody_valid (s := clearRes s) hr hpin).trans (if_neg hyes))⟩
    · exact Fin.val_add_one_of_lt (Fin.lt_def.mpr hroom)
    · rw [BitVec.ofNat_toNat, addChannel_get]

/-- Settles O31: the bodies of ETHR and EPER inside the frame, and a tick commutes with setting the period. -/
theorem thresholdAndPeriodAreSet : Obligations.ThresholdAndPeriodAreSet := by
  unfold Obligations.ThresholdAndPeriodAreSet
  refine fun s ms => ⟨exec_setup_running (.inr (.inr (.inl ⟨ms, rfl⟩))), fun hr => ?_, ?_,
    timerMayTick_withPeriod_zero s.eng, fun now snap => tickEngine_withPeriod ms now snap s.eng⟩
  · exact exec_of_done (.ethr ms) rfl (ethrBody_stopped hr)
  · exact exec_of_done (.eper ms) rfl rfl

/-- Settles O32: ESTART's checks together are the readiness of R184. -/
theorem estartValidatesAndStarts : Obligations.EstartValidatesAndStarts := by
  unfold Obligations.EstartValidatesAndStarts
  intro s ready
  have hready := all_cachedInput_iff s.exp s.eng
  refine ⟨exec_setup_running (.inr (.inr (.inr rfl))), fun hr hyes => ?_, fun hr hno => ?_⟩
  · obtain ⟨hinit, hcount, hinputs⟩ := hyes
    exact ⟨_, mapChannels_idle_get s.eng, exec_of_done .estart rfl
      ((estartBody_stopped (s := clearRes s) hr).trans (if_pos ⟨hinit, hcount, hready.mpr hinputs⟩))⟩
  · refine exec_of_raised .estart rfl ((estartBody_stopped (s := clearRes s) hr).trans (if_neg ?_))
    rintro ⟨hinit, hcount, hinputs⟩
    exact hno ⟨hinit, hcount, hready.mp hinputs⟩

/-- Settles O33: the body of ESTOP has one branch. -/
theorem estopClearsRunning : Obligations.EstopClearsRunning := by
  unfold Obligations.EstopClearsRunning
  exact fun s => exec_of_done .estop rfl rfl

/-- Settles O34: the body of ESTAT inside the frame, its four results field by field. -/
theorem estatReturnsTheStatus : Obligations.EstatReturnsTheStatus := by
  unfold Obligations.EstatReturnsTheStatus
  intro s hlen
  obtain ⟨hcount, hsize, hzero, hovf, hrun⟩ := estatRes0_fields s.eng
  obtain ⟨herr, hthr⟩ := codeOverMillis_fields s.eng.lastTickErr s.eng.lpThr
  obtain ⟨hterr, hpoll⟩ := codeOverMillis_fields s.eng.lastTickTerr s.eng.pollMs
  have hlife := estatRes3_channel s.eng
  refine ⟨estatRes0 s.eng, estatRes1 s.eng, estatRes2 s.eng, estatRes3 s.eng, exec_of_done .estat rfl rfl,
    ?_, ?_, hzero, hovf, hrun, herr, hthr, hterr, hpoll, fun k => ⟨?_, fun hk hl => ?_, fun hk hl => ?_⟩⟩
  · rw [hcount, BitVec.toNat_ofNat, Nat.mod_eq_of_lt (by omega)]
  · have := s.eng.chCount.isLt
    rw [hsize, BitVec.toNat_ofNat, Nat.mod_eq_of_lt (by omega)]
  · rintro (hk | hl)
    · rw [hlife, if_neg (by omega)]
    · rw [hlife, hl]
      exact ite_self _
  · rw [hlife, if_pos hk, hl]
    rfl
  · rw [hlife, if_pos hk, hl]
    rfl

/-- Settles O35: the body of EPOP by the queue, inside the frame, its packed results field by field. -/
theorem epopReturnsTheOldest : Obligations.EpopReturnsTheOldest := by
  unfold Obligations.EpopReturnsTheOldest
  refine fun s => ⟨fun hq => exec_of_raised .epop rfl (epopBody_empty hq), fun ev rest hq => ?_⟩
  obtain ⟨hkind, hchannel, hcls, hzero⟩ := eventRes0_bytes ev
  obtain ⟨hmembers, htop⟩ := setWidth_halves ev.members
  refine ⟨eventRes0 ev, ev.members.setWidth 32, exec_of_done .epop rfl (epopBody_cons hq), ?_, ?_, ?_, ?_, hchannel,
    ?_, ?_, ?_, hzero, hmembers, htop⟩
  case refine_1 | refine_2 | refine_3 | refine_4 => exact fun h => by rw [hkind, h]; rfl
  case refine_5 | refine_6 | refine_7 => exact fun h => by rw [hcls, h]; rfl

end Sys2Proof.Proofs
end

section
/-! SUPPORT. The tick of 43_engine_tick.md: one lemma per outcome of its snapshot read, one per branch of a channel's step,
and what the list of its events holds. -/
namespace Sys2Proof.Machine

/-! ### The snapshot read and the outcome it records (43_engine_tick.md rules R212, R213, R227, R228) -/

/-- The snapshot read: the engine is stepped on it. -/
theorem tick_ok {s : State} (h : allOk (bulkCount s.cfg) s = true) :
    tick s = .done () (recordTick 0x00 0x00
      (withEngine (tickEngine (upcomingNow s) ((bulkData s).2 ++ (bulkData s).1) s.eng)
        (observeBoth (bulkData s).1 (bulkData s).2 (issued (bulkEvents .input s) (sampledNow s))))) := by
  rw [tick, bulkRead_ok .input (sampledNow s) h]
  rfl

/-- Transaction j of the snapshot fails: the outcome is recorded, and the engine keeps the rest. -/
theorem tick_fails {j : Nat} {k : TransportErrorKind} {s : State} (hj : j < bulkCount s.cfg)
    (h : failsAt j k s = true) :
    tick s = .raised (.busError k)
      (recordTick 0x01 (kindCode k) (issued (cutAt j k (bulkEvents .input s)) (sampledNow s))) := by
  rw [tick, bulkRead_fails .input (sampledNow s) j k hj h]
  rfl

theorem exec_etick_stopped {s : State} (hr : s.eng.running = false) :
    exec .etick s = .next { s with host := errRegs 0x07 0x00 } :=
  exec_of_raised .etick rfl (if_neg (ne_true_of_eq_false hr))

theorem exec_etick_ok {s : State} (hr : s.eng.running = true) (h : allOk (bulkCount s.cfg) s = true) :
    exec .etick s = .next { s with
      host := okRegs 0 0 0 0
      exp := { s.exp with lastIn := ⟨(bulkData s).1, (bulkData s).2⟩, lastInValid := ⟨true, true⟩ }
      eng := { tickEngine (upcomingNow s) ((bulkData s).2 ++ (bulkData s).1) s.eng with
        lastTickErr := 0x00, lastTickTerr := 0x00 }
      env := afterBus (bulkEvents .input s) (sampledNow s) } :=
  exec_of_done .etick rfl ((if_pos hr).trans (tick_ok (s := clearRes s) h))

theorem exec_etick_fails {j : Nat} {k : TransportErrorKind} {s : State} (hr : s.eng.running = true)
    (hj : j < bulkCount s.cfg) (h : failsAt j k s = true) :
    exec .etick s = .next { s with
      host := errRegs 0x01 (kindCode k)
      eng := { s.eng with lastTickErr := 0x01, lastTickTerr := kindCode k }
      env := afterBus (cutAt j k (bulkEvents .input s)) (sampledNow s) } :=
  exec_of_raised .etick rfl ((if_pos hr).trans (tick_fails (s := clearRes s) hj h))

theorem tick_host (s : State) : (tick s).state.host = s.host := by
  obtain hok | ⟨j, k, hj, hfail⟩ := allOk_or_failsAt (bulkCount s.cfg) s
  · rw [tick_ok hok]
    rfl
  · rw [tick_fails hj hfail]
    rfl

/-- ETICK is the tick with its outcome shown in the host registers too. -/
theorem tick_of_exec_etick {s t : State} (hr : s.eng.running = true) (h : exec .etick s = .next t) :
    (tick s).state = { t with host := s.host } ∧ t.host.err = t.eng.lastTickErr ∧ t.host.terr = t.eng.lastTickTerr := by
  obtain hok | ⟨j, k, hj, hfail⟩ := allOk_or_failsAt (bulkCount s.cfg) s
  · rw [exec_etick_ok hr hok] at h
    cases h
    rw [tick_ok hok]
    exact ⟨rfl, rfl, rfl⟩
  · rw [exec_etick_fails hr hj hfail] at h
    cases h
    rw [tick_fails hj hfail]
    exact ⟨rfl, rfl, rfl⟩

/-! ### One channel's step, by its transition (43_engine_tick.md rules R214 to R219) -/

theorem isLongPress_iff (thr now : Word) (new : Bool) (c : Channel) :
    isLongPress thr now new c = true ↔ c.prev = new ∧ c.life = .pressed ∧
      thr.toNat ≤ (now.toNat + 2 ^ 32 - c.pressStart.toNat) % 2 ^ 32 ∧ c.longEmitted = false := by
  simp only [isLongPress, Bool.and_eq_true, beq_iff_eq, decide_eq_true_eq, Bool.not_eq_true', BitVec.le_def,
    toNat_elapsed, and_assoc]

/-- The event of a release, its elapsed time as a number modulo 2^32. -/
theorem releaseEvent_eq (thr now : Word) (k : Fin 16) (c : Channel) :
    releaseEvent thr now k c = {
      kind := .release, channelId := BitVec.ofNat 8 k.val
      cls := if (now.toNat + 2 ^ 32 - c.pressStart.toNat) % 2 ^ 32 < thr.toNat then .short else .long
      timestamp := now
      durationMs := BitVec.ofNat 32 ((now.toNat + 2 ^ 32 - c.pressStart.toNat) % 2 ^ 32), members := 0 } := by
  simp only [releaseEvent, BitVec.lt_def, ← toNat_elapsed, BitVec.ofNat_toNat, BitVec.setWidth_eq]

section Transitions
variable {thr now : Word} {snap : PinMask} {c : Channel} (k : Fin 16)

theorem channel_of_release (hprev : c.prev = false) (hnew : newLevel snap c = true) (hlife : c.life ≠ .released) :
    channelEvent thr now snap k c = some (releaseEvent thr now k c) ∧
      channelStep thr now snap c = { c with life := .released, longEmitted := false } := by
  have hrel : isRelease (newLevel snap c) c = true := by simp [isRelease, hprev, hnew, hlife]
  exact ⟨if_pos hrel, if_pos hrel⟩

theorem channel_of_press (hprev : c.prev = true) (hnew : newLevel snap c = false) :
    channelEvent thr now snap k c = some (plainEvent .press now k) ∧
      channelStep thr now snap c = { c with life := .pressed, pressStart := now, longEmitted := false } := by
  simp [channelEvent, channelStep, isRelease, isPress, hprev, hnew]

/-- An opening that ends no press. -/
theorem channel_of_idle_opening (hprev : c.prev = false) (hnew : newLevel snap c = true) (hlife : c.life = .released) :
    channelEvent thr now snap k c = none ∧ channelStep thr now snap c = c := by
  simp [channelEvent, channelStep, isRelease, isPress, isLongPress, hprev, hnew, hlife]

/-- No transition: only the long press is left. -/
theorem channel_of_still (hsame : c.prev = newLevel snap c) :
    channelEvent thr now snap k c =
        (if isLongPress thr now (newLevel snap c) c then some (plainEvent .longPress now k) else none) ∧
      channelStep thr now snap c =
        (if isLongPress thr now (newLevel snap c) c then { c with life := .longPressed, longEmitted := true } else c) := by
  simp [channelEvent, channelStep, isRelease, isPress, hsame]

end Transitions

/-! ### The channels' events (43_engine_tick.md rules R222, R226) -/

/-- The events of a tick's channels, before the Chord. -/
def channelEvents (now : Word) (snap : PinMask) (g : Engine) : List Event :=
  (channels g).filterMap fun k => channelEvent (threshold g) now snap k g.ch[k]

theorem tickEvents_eq (now : Word) (snap : PinMask) (g : Engine) :
    tickEvents now snap g = channelEvents now snap g ++ (chordEvent now snap g).toList := rfl

theorem mem_channelEvents (now : Word) (snap : PinMask) (g : Engine) (ev : Event) :
    ev ∈ channelEvents now snap g ↔ ∃ k : Fin 16, k.val < g.chCount.val ∧
      channelEvent (threshold g) now snap k g.ch[k] = some ev := by
  simp only [channelEvents, List.mem_filterMap, mem_channels]

/-- The channels are taken in ascending order, and each event carries its channel's id. -/
theorem channelEvents_ascend (now : Word) (snap : PinMask) (g : Engine) :
    ((channelEvents now snap g).map fun ev => ev.channelId.toNat).Pairwise (· < ·) := by
  refine List.pairwise_map.mpr ((channels_sorted g).filterMap _ fun j k hjk ev hev ev' hev' => ?_)
  rw [(channelEvent_id hev).1, (channelEvent_id hev').1]
  exact hjk

theorem channelEvents_are_of_channels {now : Word} {snap : PinMask} {g : Engine} {ev : Event}
    (h : ev ∈ channelEvents now snap g) : ev.kind ≠ .chord ∧ ev.channelId.toNat < g.chCount.val := by
  obtain ⟨k, hk, hev⟩ := (mem_channelEvents now snap g ev).mp h
  obtain ⟨hid, hkind⟩ := channelEvent_id hev
  exact ⟨hkind, hid ▸ hk⟩

theorem channelEvents_length_le (now : Word) (snap : PinMask) (g : Engine) :
    (channelEvents now snap g).length ≤ g.chCount.val :=
  channels_length g ▸ List.length_filterMap_le _ _

/-! ### The Chord (43_engine_tick.md rule R221) -/

theorem mem_pressedNow (snap : PinMask) (g : Engine) (k : Fin 16) :
    k ∈ pressedNow snap g ↔ k.val < g.chCount.val ∧ snap.getLsbD g.ch[k].pin.toNat = false := by
  simp [pressedNow, newLevel]

/-- No channel is listed twice, so two listed channels are two different ones. -/
theorem two_le_pressedNow_iff (snap : PinMask) (g : Engine) :
    2 ≤ (pressedNow snap g).length ↔ ∃ j k, j ≠ k ∧ j ∈ pressedNow snap g ∧ k ∈ pressedNow snap g := by
  have hnodup : (pressedNow snap g).Nodup := ((channels_sorted g).imp ne_of_lt).filter _
  rw [← List.toFinset_card_of_nodup hnodup, Nat.succ_le_iff, Finset.one_lt_card_iff]
  simp only [List.mem_toFinset]
  exact exists₂_congr fun j k => ⟨fun ⟨hj, hk, hne⟩ => ⟨hne, hj, hk⟩, fun ⟨hne, hj, hk⟩ => ⟨hj, hk, hne⟩⟩

theorem memberMask_getLsbD (ks : List (Fin 16)) (k : Fin 16) : (memberMask ks).getLsbD k.val = true ↔ k ∈ ks := by
  rw [memberMask, memberMask_fold]
  simp [Fin.val_inj]

theorem chordEvent_kind {now : Word} {snap : PinMask} {g : Engine} {ev : Event}
    (h : ev ∈ (chordEvent now snap g).toList) : ev.kind = .chord := by
  rw [Option.mem_toList, chordEvent] at h
  split at h
  · cases h
    rfl
  · cases h

theorem chordEvent_length_le (now : Word) (snap : PinMask) (g : Engine) :
    (chordEvent now snap g).toList.length ≤ 1 := by
  cases chordEvent now snap g <;> simp

end Sys2Proof.Machine

namespace Sys2Proof.Proofs
open Sys2Proof.Machine

/-- Settles O36: ETICK refused, with its snapshot read, and with transaction j failing. -/
theorem etickRunsOneTick : Obligations.EtickRunsOneTick := by
  unfold Obligations.EtickRunsOneTick
  exact fun s => ⟨exec_etick_stopped, exec_etick_ok, fun j k => exec_etick_fails⟩

/-- Settles O37: the two outcomes of the snapshot read, of the tick alone and inside ETICK's frame. -/
theorem tickOutcomeIsRecorded : Obligations.TickOutcomeIsRecorded := by
  unfold Obligations.TickOutcomeIsRecorded
  refine fun s => ⟨fun hok => ?_, fun j k hj hfail => ?_, tick_host s, fun t => tick_of_exec_etick⟩
  · rw [tick_ok hok]
    exact ⟨rfl, rfl⟩
  · rw [tick_fails hj hfail]
    exact ⟨rfl, rfl⟩

/-- Settles O38: the release branch, its elapsed time read as a number. -/
theorem releaseIsClassified : Obligations.ReleaseIsClassified := by
  unfold Obligations.ReleaseIsClassified
  intro thr now snap k c hprev hnew hlife
  obtain ⟨hevent, hstep⟩ := channel_of_release (thr := thr) (now := now) k hprev hnew hlife
  refine ⟨hevent.trans (congrArg some (releaseEvent_eq thr now k c)), ?_⟩
  rw [hstep, ← hnew]
  rfl

/-- Settles O39: the press branch, which does not ask for the lifecycle. -/
theorem pressStartsTheTimer : Obligations.PressStartsTheTimer := by
  unfold Obligations.PressStartsTheTimer
  intro thr now snap k c hprev hnew
  obtain ⟨hevent, hstep⟩ := channel_of_press (thr := thr) (now := now) k hprev hnew
  refine ⟨hevent, ?_⟩
  rw [hstep, ← hnew]
  rfl

/-- Settles O40: with no transition the step turns on the long-press condition alone; an opening of a Released channel is the
one case besides. -/
theorem longPressFiresOnce : Obligations.LongPressFiresOnce := by
  unfold Obligations.LongPressFiresOnce
  intro thr now snap k c reached fires
  have hfires : isLongPress thr now (newLevel snap c) c = true ↔ fires := isLongPress_iff thr now (newLevel snap c) c
  refine ⟨fun hyes => ?_, ?_⟩
  · have hsame : c.prev = newLevel snap c := hyes.1
    obtain ⟨hevent, hstep⟩ := channel_of_still (thr := thr) (now := now) k hsame
    rw [if_pos (hfires.mpr hyes)] at hevent hstep
    refine ⟨hevent, ?_⟩
    rw [hstep, hsame]
    rfl
  · rintro (⟨hsame, hno⟩ | ⟨hprev, hnew, hlife⟩)
    · obtain ⟨hevent, hstep⟩ := channel_of_still (thr := thr) (now := now) k hsame
      rw [if_neg (hfires.not.mpr hno)] at hevent hstep
      exact ⟨hevent, congrArg (storeLevel snap) hstep⟩
    · obtain ⟨hevent, hstep⟩ := channel_of_idle_opening (thr := thr) (now := now) k hprev hnew hlife
      exact ⟨hevent, congrArg (storeLevel snap) hstep⟩

/-- Settles O42: the count of the events from their two parts, the queue from `emitAll_queue`. -/
theorem fullQueueDropsTheNewest : Obligations.FullQueueDropsTheNewest := by
  unfold Obligations.FullQueueDropsTheNewest
  refine fun now snap g => ⟨?_, emitAll_queue (tickEvents now snap g) (tickChannels now snap g)⟩
  rw [tickEvents_eq, List.length_append]
  exact Nat.add_le_add (channelEvents_length_le now snap g) (chordEvent_length_le now snap g)

/-- Settles O43: `channelEvents` is the list. -/
theorem eventsComeInChannelOrder : Obligations.EventsComeInChannelOrder := by
  unfold Obligations.EventsComeInChannelOrder
  exact fun now snap g => ⟨channelEvents now snap g, tickEvents_eq now snap g, channelEvents_ascend now snap g,
    mem_channelEvents now snap g, fun _ => chordEvent_kind, fun _ => channelEvents_are_of_channels,
    chordEvent_length_le now snap g, channelEvents_length_le now snap g⟩

/-- Settles O44: the pressed channels are those of `pressedNow`, and the channels' own events are no Chord. -/
theorem chordListsThePressedChannels : Obligations.ChordListsThePressedChannels := by
  unfold Obligations.ChordListsThePressedChannels
  intro now snap g
  simp only [← mem_pressedNow, ← two_le_pressedNow_iff]
  refine ⟨fun htwo => ⟨memberMask (pressedNow snap g), channelEvents now snap g, memberMask_getLsbD _,
    fun ev hev => (channelEvents_are_of_channels hev).1, ?_⟩, fun hfew ev hev => ?_⟩
  · rw [tickEvents_eq, chordEvent, if_pos htwo]
    rfl
  · rw [tickEvents_eq, chordEvent, if_neg hfew, Option.toList_none, List.append_nil] at hev
    exact (channelEvents_are_of_channels hev).1

end Sys2Proof.Proofs
end

section
/-! SUPPORT. The decoder's rejections (30_encoding.md rules R91, R95): a reserved opcode, or a must-be-zero bit that is one. -/
namespace Sys2Proof

theorem mnemonicOf_eq_some_iff (b : Byte) (m : Mnemonic) : mnemonicOf b = some m ↔ opcodeOf m = b :=
  ⟨opcodeOf_of_mnemonicOf b m, fun h => h ▸ mnemonicOf_opcodeOf m⟩

/-- The reserved opcodes, read over all 256. -/
theorem mnemonicOf_eq_none_iff (b : Byte) :
    mnemonicOf b = none ↔ b.toNat = 0x00 ∨ (0x0C ≤ b.toNat ∧ b.toNat ≤ 0x1F) ∨ 0x29 ≤ b.toNat := by
  revert b
  decide

/-- The mask of the operand bits [23:0]. -/
theorem operandMask_getLsbD (j : Nat) : (0x00FFFFFF : Word).getLsbD j = decide (j < 24) := by
  rw [show (0x00FFFFFF : Word) = BitVec.ofNat 32 (2 ^ 24 - 1) from rfl, BitVec.getLsbD_ofNat,
    Nat.testBit_two_pow_sub_one, ← Bool.decide_and]
  exact decide_eq_decide.mpr (by omega)

theorem mbzSet_iff (f : Format) (w : Word) :
    mbzSet f w = true ↔ ∃ j : Nat, j < 24 ∧ w.getLsbD j = true ∧ (maskFree f).getLsbD j = false := by
  have hbit (j : Nat) (hj : j < 32) : (w &&& ~~~(maskFree f) &&& 0x00FFFFFF).getLsbD j = true ↔
      j < 24 ∧ w.getLsbD j = true ∧ (maskFree f).getLsbD j = false := by
    simp only [BitVec.getLsbD_and, BitVec.getLsbD_not, operandMask_getLsbD, hj, decide_true, Bool.true_and,
      Bool.and_eq_true, Bool.not_eq_true', decide_eq_true_eq]
    tauto
  constructor
  · intro hset
    by_contra hnone
    refine bne_iff_ne.mp hset (BitVec.eq_of_getLsbD_eq fun j hj => Eq.trans ?_ BitVec.getLsbD_zero.symm)
    rw [Bool.eq_false_iff, ne_eq, hbit j hj]
    exact fun h => hnone ⟨j, h⟩
  · rintro ⟨j, h⟩
    refine bne_iff_ne.mpr fun hzero => ?_
    rw [← hbit j (by omega), hzero] at h
    exact Bool.false_ne_true (BitVec.getLsbD_zero.symm.trans h)

theorem decode_eq_none_iff (w : Word) :
    decode w = none ↔ mnemonicOf (fieldOpc w) = none ∨ ∃ m, opcodeOf m = fieldOpc w ∧ mbzSet m.format w = true := by
  simp only [← mnemonicOf_eq_some_iff, decode]
  cases mnemonicOf (fieldOpc w) <;> simp

end Sys2Proof
end

section
/-! SUPPORT. How a command can end other than OK (60_exceptions.md rules R240 to R252), said once for every command's body:
which error it raises, under what condition, and what the transactions and the host registers are then. -/
namespace Sys2Proof.Machine

/-! ### An operation that a failed transaction stopped (60_exceptions.md rule R249) -/

/-- From `s` to `t` the last transaction issued failed with kind `k`, those before it returned `Ok`, and no host register
was written. -/
structure StoppedByBus (k : TransportErrorKind) (s t : State) : Prop where
  host : t.host = s.host
  log : ∃ (evs : List BusEvent) (ev : BusEvent), t.env.busLog = s.env.busLog ++ evs ++ [ev] ∧
    evs.all eventOk = true ∧ failedKind ev = some k

theorem failedKind_failedWith (k : TransportErrorKind) (ev : BusEvent) : failedKind (failedWith k ev) = some k := by
  cases ev <;> rfl

/-- Cutting a successful run short at its transaction j is being stopped there. -/
theorem stoppedByBus_of_cutAt {j : Nat} {k : TransportErrorKind} {s t : State} (evs : List BusEvent)
    (hj : j < evs.length) (hok : evs.all eventOk = true) (hhost : t.host = s.host)
    (hlog : t.env.busLog = s.env.busLog ++ cutAt j k evs) : StoppedByBus k s t := by
  have hcut : cutAt j k evs = evs.take j ++ [failedWith k evs[j]] := by
    rw [cutAt, List.drop_eq_getElem_cons hj]
    rfl
  refine ⟨hhost, evs.take j, failedWith k evs[j], by rw [hlog, hcut, List.append_assoc], ?_,
    failedKind_failedWith k _⟩
  rw [List.all_eq_true] at hok ⊢
  exact fun ev hev => hok ev (List.mem_of_mem_take hev)

theorem bulkEvents_length (k : RegKind) (s : State) : (bulkEvents k s).length = bulkCount s.cfg := by
  unfold bulkEvents bulkCount
  cases s.cfg.bulkMode <;> rfl

theorem bulkEvents_ok (k : RegKind) (s : State) : (bulkEvents k s).all eventOk = true := by
  unfold bulkEvents
  cases s.cfg.bulkMode <;> rfl

/-! ### The refusals (60_exceptions.md rules R244, R252) -/

/-- The commands that a running engine refuses. -/
def RefusedWhileRunning (i : Instr) : Prop :=
  i = .init ∨ i = .eclr ∨ (∃ pin, i = .eadd pin) ∨ (∃ ms, i = .ethr ms) ∨ i = .estart

/-- EADD's table has no room for the pin, or has the pin already (42_engine_control.md rule R181). -/
def TableRefuses (pin : Byte) (g : Engine) : Prop :=
  g.chCount.val = 16 ∨ ∃ k : Fin 16, k.val < g.chCount.val ∧ g.ch[k].pin.toNat = pin.toNat

/-- ESTART's preconditions do not hold (42_engine_control.md rule R184). -/
def NotReady (s : State) : Prop :=
  s.exp.initDone = false ∨ s.eng.chCount.val = 0 ∨ ∃ k : Fin 16, k.val < s.eng.chCount.val ∧
    (s.exp.dirValid.get (portOf s.eng.ch[k].pin.toNat) = false ∨
      (s.exp.cacheDir.get (portOf s.eng.ch[k].pin.toNat)).getLsbD (s.eng.ch[k].pin.toNat % 8) = false)

/-- A command that sets up the channels finds them in no order to go on (60_exceptions.md rule R252). -/
def BadChannelSetup (i : Instr) (s : State) : Prop :=
  (∃ pin : Byte, i = .eadd pin ∧ pin.toNat < 16 ∧ TableRefuses pin s.eng) ∨ (i = .estart ∧ NotReady s)

theorem notReady_iff (s : State) : NotReady s ↔ ¬ (s.exp.initDone = true ∧ 0 < s.eng.chCount.val ∧
    ((channels s.eng).all fun k => cachedInput s.exp s.eng.ch[k].pin) = true) := by
  simp only [all_cachedInput_iff, NotReady, not_and_or, not_forall, Bool.not_eq_true, Nat.not_lt, Nat.le_zero, exists_prop]

theorem eaddBody_refused {pin : Byte} {s : State} (hr : s.eng.running = false) (hpin : pin.toNat < 16)
    (h : TableRefuses pin s.eng) : eaddBody pin s = .raised .invalidChannelConfig s := by
  rw [TableRefuses, ← hasPin_iff hpin] at h
  rw [eaddBody_valid hr hpin, if_pos h]

theorem eaddBody_accepted {pin : Byte} {s : State} (hr : s.eng.running = false) (hpin : pin.toNat < 16)
    (h : ¬ TableRefuses pin s.eng) :
    eaddBody pin s = .done () (withEngine (addChannel (pin.setWidth 4) s.eng) s) := by
  rw [TableRefuses, ← hasPin_iff hpin] at h
  rw [eaddBody_valid hr hpin, if_neg h]

theorem estartBody_refused {s : State} (hr : s.eng.running = false) (h : NotReady s) :
    estartBody s = .raised .invalidChannelConfig s := by
  rw [estartBody_stopped hr, if_neg ((notReady_iff s).mp h)]

theorem estartBody_accepted {s : State} (hr : s.eng.running = false) (h : ¬ NotReady s) :
    estartBody s = .done () (withEngine (started s.eng) s) := by
  rw [notReady_iff, not_not] at h
  rw [estartBody_stopped hr, if_pos h]

theorem exec_badChannelSetup {i : Instr} {s : State} (hr : s.eng.running = false) (h : BadChannelSetup i s) :
    exec i s = .next { s with host := errRegs 0x04 0x00 } := by
  obtain ⟨pin, rfl, hpin, hrefuses⟩ | ⟨rfl, hnot⟩ := h
  · exact exec_of_raised (.eadd pin) rfl (eaddBody_refused (s := clearRes s) hr hpin hrefuses)
  · exact exec_of_raised .estart rfl (estartBody_refused (s := clearRes s) hr hnot)

/-! ### What each body can raise -/

/-- The body of `i`, started in `s`, may raise this error and leave this state. A refusal leaves the state as it was, and
`IllegalCommand` is no command's. -/
inductive MayRaise (i : Instr) (s : State) : Raise → State → Prop
  | busError {k : TransportErrorKind} {t : State} (stopped : StoppedByBus k s t) : MayRaise i s (.busError k) t
  | chipNotFound {j : Nat} {k : TransportErrorKind} {t : State} (isInit : i = .init) (inProbe : j < 2)
      (fails : failsAt j k s = true) (stopped : StoppedByBus k s t) : MayRaise i s (.chipNotFound k) t
  | invalidPin : MayRaise i s .invalidPin s
  | engineRunning (running : s.eng.running = true) (refused : RefusedWhileRunning i) : MayRaise i s .engineRunning s
  | invalidChannelConfig (stopped : s.eng.running = false) (bad : BadChannelSetup i s) :
      MayRaise i s .invalidChannelConfig s
  | engineNotRunning (isEtick : i = .etick) (stopped : s.eng.running = false) : MayRaise i s .engineNotRunning s
  | queueEmpty (isEpop : i = .epop) (empty : s.eng.evq = []) : MayRaise i s .queueEmpty s

section
variable {i : Instr} {s t : State} {e : Raise}

theorem writePair_mayRaise {l : Latch} {m0 m1 : Byte} (h : writePair l m0 m1 s = .raised e t) : MayRaise i s e t := by
  obtain hok | ⟨j, k, hj, hfail⟩ := allOk_or_failsAt 2 s
  · rw [writePair_ok l m0 m1 hok] at h
    cases h
  · obtain rfl | rfl : j = 0 ∨ j = 1 := by omega
    · rw [writePair_fails_first l m0 m1 hfail] at h
      cases h
      exact .busError (stoppedByBus_of_cutAt (pairEvents l m0 m1 s) hj rfl rfl rfl)
    · rw [writePair_fails_second l m0 m1 hfail] at h
      cases h
      exact .busError (stoppedByBus_of_cutAt (pairEvents l m0 m1 s) hj rfl (setCache_host ..)
        (congrArg Env.busLog (setCache_env ..)))

theorem rmw_mayRaise {l : Latch} {p : Port} {f : Byte → Byte} (h : rmw l p f s = .raised e t) : MayRaise i s e t := by
  cases hm : s.cfg.rmwSource with
  | hardware =>
    obtain hok | ⟨j, k, hj, hfail⟩ := allOk_or_failsAt 3 s
    · rw [rmw_hardware_ok l p f hm hok] at h
      cases h
    · rw [rmw_hardware_fails l p f hm hj hfail] at h
      cases h
      exact .busError (stoppedByBus_of_cutAt (rmwEvents l p (f (byte0 (upcoming s 1))) s) hj rfl rfl rfl)
  | cache =>
    rw [rmw_cache l p f hm] at h
    obtain hok | ⟨j, k, hj, hfail⟩ := allOk_or_failsAt 1 s
    · rw [writeCached_ok l p _ hok] at h
      cases h
    · obtain rfl : j = 0 := by omega
      rw [writeCached_fails l p _ hfail] at h
      cases h
      exact .busError (stoppedByBus_of_cutAt [evStore s.cfg l p (f (cached l p s))] hj rfl rfl rfl)

theorem pinBody_mayRaise {l : Latch} {pin : Byte} {f : Nat → Byte → Byte} (h : pinBody l pin f s = .raised e t) :
    MayRaise i s e t := by
  by_cases hpin : pin.toNat < 16
  · rw [pinBody_valid hpin] at h
    exact rmw_mayRaise h
  · rw [pinBody_invalid (not_lt.mp hpin)] at h
    cases h
    exact .invalidPin

theorem getlvlBody_mayRaise {pin : Byte} (h : getlvlBody pin s = .raised e t) : MayRaise i s e t := by
  by_cases hpin : pin.toNat < 16
  · obtain hok | ⟨j, k, hj, hfail⟩ := allOk_or_failsAt 2 s
    · rw [getlvlBody_ok hpin hok] at h
      cases h
    · rw [getlvlBody_fails hpin hj hfail] at h
      cases h
      exact .busError (stoppedByBus_of_cutAt
        [evPoint s.cfg .input (portOf pin.toNat), evRead1 s.cfg (byte0 (upcoming s 1))] hj rfl rfl rfl)
  · rw [getlvlBody_invalid (not_lt.mp hpin)] at h
    cases h
    exact .invalidPin

/-- A bulk read's failure. -/
theorem stoppedByBus_bulk {r : RegKind} {j : Nat} {k : TransportErrorKind} (hj : j < bulkCount s.cfg)
    (hhost : t.host = s.host) (hlog : t.env.busLog = s.env.busLog ++ cutAt j k (bulkEvents r s)) : StoppedByBus k s t :=
  stoppedByBus_of_cutAt (bulkEvents r s) (hj.trans_eq (bulkEvents_length r s).symm) (bulkEvents_ok r s) hhost hlog

theorem bulkToRes_mayRaise {r : RegKind} {seen : Byte → Byte → State → State} (h : bulkToRes r seen s = .raised e t) :
    MayRaise i s e t := by
  obtain hok | ⟨j, k, hj, hfail⟩ := allOk_or_failsAt (bulkCount s.cfg) s
  · rw [bulkToRes_ok r seen hok] at h
    cases h
  · rw [bulkToRes_fails r seen hj hfail] at h
    cases h
    exact .busError (stoppedByBus_bulk (r := r) hj rfl rfl)

theorem etickBody_mayRaise (h : etickBody s = .raised e t) : MayRaise .etick s e t := by
  cases hr : s.eng.running with
  | false =>
    rw [etickBody, hr, if_neg Bool.false_ne_true] at h
    cases h
    exact .engineNotRunning rfl hr
  | true =>
    rw [etickBody, if_pos hr] at h
    obtain hok | ⟨j, k, hj, hfail⟩ := allOk_or_failsAt (bulkCount s.cfg) s
    · rw [tick_ok hok] at h
      cases h
    · rw [tick_fails hj hfail] at h
      cases h
      exact .busError (stoppedByBus_bulk (r := .input) hj rfl rfl)

theorem initBody_mayRaise (h : initBody s = .raised e t) : MayRaise .init s e t := by
  cases hr : s.eng.running with
  | true =>
    rw [initBody_running hr] at h
    cases h
    exact .engineRunning hr (.inl rfl)
  | false =>
    obtain hok | ⟨j, k, hj, hfail⟩ := allOk_or_failsAt 6 s
    · rw [initBody_ok hr hok] at h
      cases h
    · have hstop : t.host = s.host → t.env.busLog = s.env.busLog ++ cutAt j k (initEvents s) → StoppedByBus k s t :=
        stoppedByBus_of_cutAt (initEvents s) hj rfl
      by_cases hprobe : j < 2
      · rw [initBody_probe_fails hr hprobe hfail] at h
        cases h
        exact .chipNotFound rfl hprobe hfail (hstop rfl rfl)
      · obtain rfl | rfl | rfl | rfl : j = 2 ∨ j = 3 ∨ j = 4 ∨ j = 5 := by omega
        · rw [initBody_first_direction_fails hr hfail] at h
          cases h
          exact .busError (hstop rfl rfl)
        · rw [initBody_second_direction_fails hr hfail] at h
          cases h
          exact .busError (hstop rfl rfl)
        · rw [initBody_first_output_fails hr hfail] at h
          cases h
          exact .busError (hstop rfl rfl)
        · rw [initBody_second_output_fails hr hfail] at h
          cases h
          exact .busError (hstop rfl rfl)

theorem eaddBody_mayRaise {pin : Byte} (h : eaddBody pin s = .raised e t) : MayRaise (.eadd pin) s e t := by
  cases hr : s.eng.running with
  | true =>
    rw [eaddBody, if_pos hr] at h
    cases h
    exact .engineRunning hr (.inr (.inr (.inl ⟨pin, rfl⟩)))
  | false =>
    by_cases hpin : pin.toNat < 16
    · by_cases htable : TableRefuses pin s.eng
      · rw [eaddBody_refused hr hpin htable] at h
        cases h
        exact .invalidChannelConfig hr (.inl ⟨pin, rfl, hpin, htable⟩)
      · rw [eaddBody_accepted hr hpin htable] at h
        cases h
    · rw [eaddBody_invalid hr (not_lt.mp hpin)] at h
      cases h
      exact .invalidPin

theorem estartBody_mayRaise (h : estartBody s = .raised e t) : MayRaise .estart s e t := by
  cases hr : s.eng.running with
  | true =>
    rw [estartBody, if_pos hr] at h
    cases h
    exact .engineRunning hr (.inr (.inr (.inr (.inr rfl))))
  | false =>
    by_cases hnot : NotReady s
    · rw [estartBody_refused hr hnot] at h
      cases h
      exact .invalidChannelConfig hr (.inr ⟨rfl, hnot⟩)
    · rw [estartBody_accepted hr hnot] at h
      cases h

/-- A command whose only error is `EngineRunning`. -/
theorem refusedWhileRunning_mayRaise {u : State} (hi : RefusedWhileRunning i)
    (h : (if s.eng.running then .raised .engineRunning s else .done () u : Ran Raise Unit) = .raised e t) :
    MayRaise i s e t := by
  split at h
  case isTrue hr => cases h; exact .engineRunning hr hi
  case isFalse => cases h

theorem epopBody_mayRaise (h : epopBody s = .raised e t) : MayRaise .epop s e t := by
  cases hq : s.eng.evq with
  | nil =>
    rw [epopBody_empty hq] at h
    cases h
    exact .queueEmpty rfl hq
  | cons ev rest =>
    rw [epopBody_cons hq] at h
    cases h

/-- Everything a command's body can raise. -/
theorem commandBody_mayRaise (h : commandBody i s = .raised e t) : MayRaise i s e t := by
  cases i with
  | init => exact initBody_mayRaise h
  | setdir pin dir => exact pinBody_mayRaise (f := fun n => putb n dir) h
  | setlvl pin level => exact pinBody_mayRaise (f := fun n => putb n level) h
  | toggle => exact pinBody_mayRaise h
  | setpdir | setplvl => exact writePair_mayRaise h
  | getlvl => exact getlvlBody_mayRaise h
  | getplvl => exact bulkToRes_mayRaise h
  | getout | getcfg => exact bulkToRes_mayRaise (seen := fun _ _ s => s) h
  | eclr => exact refusedWhileRunning_mayRaise (.inr (.inl rfl)) h
  | eadd => exact eaddBody_mayRaise h
  | ethr ms => exact refusedWhileRunning_mayRaise (.inr (.inr (.inr (.inl ⟨ms, rfl⟩)))) h
  | estart => exact estartBody_mayRaise h
  | etick => exact etickBody_mayRaise h
  | epop => exact epopBody_mayRaise h
  | rdcache | eper | estop | estat => cases h

/-- Everything a command that answers can report: OK, or an error its body may raise. -/
theorem exec_report (h : exec i s = .next t) :
    (t.host.err = 0x00 ∧ t.host.terr = 0x00) ∨
      ∃ e u, MayRaise i (clearRes s) e u ∧ t = setStatus (errCode e) (terrCode e) u := by
  obtain ⟨-, rfl⟩ := (exec_next_iff i s t).mp h
  cases hbody : commandBody i (clearRes s) with
  | done a u => exact .inl ⟨rfl, rfl⟩
  | raised e u => exact .inr ⟨e, u, commandBody_mayRaise hbody, rfl⟩

/-- A code other than OK is that of an error the body may raise. -/
theorem exec_error (h : exec i s = .next t) (herr : t.host.err ≠ 0x00) :
    ∃ e u, MayRaise i (clearRes s) e u ∧ t = setStatus (errCode e) (terrCode e) u ∧ t.host.err = errCode e := by
  obtain ⟨hok, -⟩ | ⟨e, u, hraise, rfl⟩ := exec_report h
  · exact absurd hok herr
  · exact ⟨e, u, hraise, rfl, rfl⟩

/-- A command that raises leaves the results at the 0 the frame began with (60_exceptions.md rule R246). -/
theorem MayRaise.host {u : State} (h : MayRaise i s e u) : u.host = s.host := by
  cases h with
  | busError hstop | chipNotFound _ _ _ hstop => exact hstop.host
  | _ => rfl

end

/-! ### The codes (60_exceptions.md rules R240, R242) -/

theorem errCode_le (e : Raise) : (errCode e).toNat ≤ 8 := by cases e <;> simp [errCode]

theorem terrCode_eq_zero {e : Raise} (hbus : errCode e ≠ 0x01) (hchip : errCode e ≠ 0x02) : terrCode e = 0 := by
  cases e with
  | busError => exact absurd rfl hbus
  | chipNotFound => exact absurd rfl hchip
  | _ => rfl

/-- An error with a transport kind has the kind of the transaction that stopped the command. -/
theorem MayRaise.transport {i : Instr} {s u : State} {e : Raise} (h : MayRaise i s e u)
    (herr : errCode e = 0x01 ∨ errCode e = 0x02) : ∃ k, terrCode e = kindCode k ∧ StoppedByBus k s u := by
  cases h with
  | busError hstop | chipNotFound _ _ _ hstop => exact ⟨_, rfl, hstop⟩
  | _ => obtain herr | herr := herr <;> cases herr

end Sys2Proof.Machine

namespace Sys2Proof.Proofs
open Sys2Proof.Machine

/-- Settles O3: the decoder's two rejections, and the frame around a body that raises at once. -/
theorem rejectedWordsRaiseIllegalCommand : Obligations.RejectedWordsRaiseIllegalCommand := by
  unfold Obligations.RejectedWordsRaiseIllegalCommand
  refine fun w => ⟨?_, fun s hnone => ?_⟩
  · simp only [decode_eq_none_iff, mnemonicOf_eq_none_iff, mbzSet_iff]
  · rw [runWord, hnone]
    rfl

/-- Settles O15: the refusal of each of the five, and what a body that raises `EngineRunning` is. -/
theorem engineRunningRefusesConfiguration : Obligations.EngineRunningRefusesConfiguration := by
  unfold Obligations.EngineRunningRefusesConfiguration
  refine ⟨fun s pin ms hr => ⟨exec_of_raised .init rfl (initBody_running hr), exec_setup_running (.inl rfl) hr,
    exec_setup_running (.inr (.inl ⟨pin, rfl⟩)) hr, exec_setup_running (.inr (.inr (.inl ⟨ms, rfl⟩))) hr,
    exec_setup_running (.inr (.inr (.inr rfl))) hr⟩, fun i s t h herr => ?_⟩
  obtain ⟨e, u, hraise, -, hcode⟩ := exec_error h (by rw [herr]; decide)
  rw [herr] at hcode
  cases hraise with
  | engineRunning hr hi => exact ⟨hr, hi⟩
  | _ => cases hcode

/-- Settles O17: only a bad channel setup raises `InvalidChannelConfig`, before anything is written, and it always does. -/
theorem invalidChannelConfigOnlyFromSetup : Obligations.InvalidChannelConfigOnlyFromSetup := by
  unfold Obligations.InvalidChannelConfigOnlyFromSetup
  intro i s t h
  have hraised (herr : t.host.err = 0x04) :
      (s.eng.running = false ∧ BadChannelSetup i s) ∧ t = { s with host := errRegs 0x04 0x00 } := by
    obtain ⟨e, u, hraise, ht, hcode⟩ := exec_error h (by rw [herr]; decide)
    rw [herr] at hcode
    cases hraise with
    | invalidChannelConfig hr hbad => exact ⟨⟨hr, hbad⟩, ht⟩
    | _ => cases hcode
  refine ⟨⟨fun herr => (hraised herr).1, fun ⟨hr, hbad⟩ => ?_⟩, fun herr => (hraised herr).2⟩
  rw [exec_badChannelSetup hr hbad] at h
  cases h
  rfl

/-- Settles O18: the report is OK, or an error's codes over the results that the frame cleared; a transport kind is that of
the transaction that stopped the command. -/
theorem commandReportIsConsistent : Obligations.CommandReportIsConsistent := by
  unfold Obligations.CommandReportIsConsistent
  intro i s t h
  obtain ⟨hok, hterr⟩ | ⟨e, u, hraise, rfl⟩ := exec_report h
  · rw [hok, hterr]
    exact ⟨by decide, fun hbus => absurd hbus (by decide), fun _ _ => rfl, fun hne => absurd rfl hne⟩
  · refine ⟨errCode_le e, fun herr => ?_, terrCode_eq_zero, fun _ => ?_⟩
    · obtain ⟨k, hkind, -, evs, ev, hlog, hall, hfailed⟩ := hraise.transport herr
      have hterr : (setStatus (errCode e) (terrCode e) u).host.terr = kindCode k := hkind
      refine ⟨evs, ev, k, hlog, hall, hfailed, hterr, ?_, ?_, ?_, ?_⟩ <;> exact fun hk => by rw [hterr, hk]; rfl
    · rw [setStatus_host, hraise.host]
      exact ⟨rfl, rfl, rfl, rfl⟩

/-- Settles O20: the probe's two transactions write no register, and no other failure is reported as `ChipNotFound`. -/
theorem chipNotFoundOnlyFromTheProbe : Obligations.ChipNotFoundOnlyFromTheProbe := by
  unfold Obligations.ChipNotFoundOnlyFromTheProbe
  refine ⟨fun s j k hr hj hfail => ⟨?_, ?_⟩, fun i s t h herr => ?_⟩
  · obtain rfl | rfl : j = 0 ∨ j = 1 := by omega
    all_goals simp [cutAt, failedWith, evPoint, evRead1]
  · have hbody := initBody_probe_fails (s := clearRes s) hr hj hfail
    rw [initEvents, cutAt_append_left k _ hj] at hbody
    exact exec_of_raised .init rfl hbody
  · obtain ⟨e, u, hraise, -, hcode⟩ := exec_error h (by rw [herr]; decide)
    rw [herr] at hcode
    cases hraise with
    | chipNotFound hi hj hfail _ => exact ⟨hi, _, _, hj, hfail⟩
    | _ => cases hcode

/-- Settles O14: the pin check of each body comes first, EADD's after its check of the engine. -/
theorem invalidPinWritesNothing : Obligations.InvalidPinWritesNothing := by
  unfold Obligations.InvalidPinWritesNothing
  exact fun s pin b hpin => ⟨(setdir_isPinCommand pin b).exec_invalid hpin, (setlvl_isPinCommand pin b).exec_invalid hpin,
    exec_of_raised (.getlvl pin) rfl (getlvlBody_invalid hpin _), (toggle_isPinCommand pin).exec_invalid hpin,
    fun hr => exec_of_raised (.eadd pin) rfl (eaddBody_invalid hr hpin)⟩

/-- Settles O16: the first check of ETICK, and EPOP's empty queue. -/
theorem notRunningAndQueueEmpty : Obligations.NotRunningAndQueueEmpty := by
  unfold Obligations.NotRunningAndQueueEmpty
  exact ⟨fun s hr => exec_etick_stopped hr, fun s hq => exec_of_raised .epop rfl (epopBody_empty hq)⟩

end Sys2Proof.Proofs
end

section
/-! SUPPORT. The reset input as a step (70_reset_and_hazards.md rule R280) and the reset values entry by entry. -/
namespace Sys2Proof.Machine

/-- The other direction of `step_next`: with a well-formed configuration a step is the agenda's first move. -/
theorem step_of_agenda {s : State} {a : Action} {rest : List Action} (hc : configWf s.cfg = true)
    (ha : s.env.agenda = a :: rest) : step s = act a (takeMove s) := by
  rw [step, if_pos hc, nextMove, ha]

@[simp] theorem Engine.reset_ch (k : Fin 16) : Engine.reset.ch[k] = Channel.reset := Vector.getElem_replicate k.isLt

theorem Expander.reset_get (p : Port) :
    Expander.reset.cacheDir.get p = 0x00 ∧ Expander.reset.cacheOut.get p = 0x00 ∧
    Expander.reset.dirValid.get p = false ∧ Expander.reset.outValid.get p = false ∧
    Expander.reset.lastIn.get p = 0x00 ∧ Expander.reset.lastInValid.get p = false := by
  cases p <;> exact ⟨rfl, rfl, rfl, rfl, rfl, rfl⟩

end Sys2Proof.Machine

namespace Sys2Proof.Proofs
open Sys2Proof.Machine

/-- Settles O9: the table read off the three reset records, which power-on and `resetBlock` both leave. -/
theorem resetSetsEveryElement : Obligations.ResetSetsEveryElement := by
  unfold Obligations.ResetSetsEveryElement
  intro atReset
  have hrecords {t : State} (hhost : t.host = HostRegs.reset) (hexp : t.exp = Expander.reset)
      (heng : t.eng = Engine.reset) : atReset t := by
    simp only [atReset, hhost, hexp, heng, Engine.reset_ch]
    exact ⟨rfl, rfl, rfl, rfl, rfl, rfl, Expander.reset_get, rfl, rfl, rfl, fun _ => ⟨rfl, rfl, rfl, rfl, rfl⟩,
      rfl, rfl, rfl, rfl, rfl, rfl⟩
  exact ⟨⟨hrecords rfl rfl rfl, rfl⟩, fun s rest hc ha =>
    ⟨resetBlock (takeMove s), step_of_agenda hc ha, hrecords rfl rfl rfl, rfl, rfl⟩⟩

end Sys2Proof.Proofs
end

section
/-! SUPPORT. Decoding and encoding are inverse (30_encoding.md rules R90 to R94): when a word decodes, and that a word of each
format is put together again from its fields. -/
namespace Sys2Proof

theorem decode_eq_some_iff (w : Word) (i : Instr) :
    decode w = some i ↔ ∃ m, opcodeOf m = fieldOpc w ∧ mbzSet m.format w = false ∧ assembleFields m w = i := by
  simp only [← mnemonicOf_eq_some_iff, decode]
  cases mnemonicOf (fieldOpc w) <;> simp

/-- A word with the opcode of a mnemonic and no must-be-zero bit set decodes to that mnemonic's command. -/
theorem decode_of_fields {w : Word} {m : Mnemonic} (hopc : fieldOpc w = opcodeOf m) (hmbz : mbzSet m.format w = false) :
    decode w = some (assembleFields m w) := (decode_eq_some_iff w _).mpr ⟨m, hopc.symm, hmbz, rfl⟩

section
variable {m : Mnemonic} {i : Instr}

theorem decode_wordZ (hm : m.format = .z) (hi : ∀ w, assembleFields m w = i) : decode (wordZ m) = some i := by
  obtain ⟨hopc, hmbz⟩ := wordZ_fields m
  rw [decode_of_fields hopc (hm ▸ hmbz), hi]

theorem decode_wordP {pin : Byte} (hm : m.format = .p) (hi : ∀ w, fieldA w = pin → assembleFields m w = i) :
    decode (wordP m pin) = some i := by
  obtain ⟨hopc, hpin, hmbz⟩ := wordP_fields m pin
  rw [decode_of_fields hopc (hm ▸ hmbz), hi _ hpin]

theorem decode_wordPB {pin : Byte} {b : Bool} (hm : m.format = .pb)
    (hi : ∀ w, fieldA w = pin → fieldVal w = b → assembleFields m w = i) : decode (wordPB m pin b) = some i := by
  obtain ⟨hopc, hpin, hval, hmbz⟩ := wordPB_fields m pin b
  rw [decode_of_fields hopc (hm ▸ hmbz), hi _ hpin hval]

theorem decode_wordMM {m0 m1 : Byte} (hm : m.format = .mm)
    (hi : ∀ w, fieldA w = m0 → fieldB w = m1 → assembleFields m w = i) : decode (wordMM m m0 m1) = some i := by
  obtain ⟨hopc, h0, h1, hmbz⟩ := wordMM_fields m m0 m1
  rw [decode_of_fields hopc (hm ▸ hmbz), hi _ h0 h1]

theorem decode_wordI24 {ms : Millis24} (hm : m.format = .i24)
    (hi : ∀ w, fieldImm24 w = ms → assembleFields m w = i) : decode (wordI24 m ms) = some i := by
  obtain ⟨hopc, hms, hmbz⟩ := wordI24_fields m ms
  rw [decode_of_fields hopc (hm ▸ hmbz), hi _ hms]

end

theorem decode_encode (i : Instr) : decode (encode i) = some i := by
  cases i with
  | init | getplvl | getout | getcfg | rdcache | eclr | estart | estop | etick | epop | estat =>
    exact decode_wordZ rfl fun _ => rfl
  | getlvl | toggle | eadd => exact decode_wordP rfl fun _ hpin => hpin ▸ rfl
  | setdir | setlvl => exact decode_wordPB rfl fun _ hpin hval => hpin ▸ hval ▸ rfl
  | setpdir | setplvl => exact decode_wordMM rfl fun _ h0 h1 => h0 ▸ h1 ▸ rfl
  | ethr | eper => exact decode_wordI24 rfl fun _ hms => hms ▸ rfl

/-! ### A word from its fields -/

/-- A bit that must be zero is. -/
theorem bit_of_mbz {f : Format} {w : Word} (h : mbzSet f w = false) {j : Nat} (hj : j < 24)
    (hfree : (maskFree f).getLsbD j = false) : w.getLsbD j = false := by
  by_contra hset
  rw [Bool.not_eq_false] at hset
  exact ne_true_of_eq_false h ((mbzSet_iff f w).mpr ⟨j, hj, hset, hfree⟩)

/-! Where each format's operand bits stand (rule R92). -/

theorem maskFree_z : ∀ j < 24, (maskFree .z).getLsbD j = false := by decide

theorem maskFree_p : ∀ j < 24, (maskFree .p).getLsbD j = decide (16 ≤ j) := by decide

theorem maskFree_pb : ∀ j < 24, (maskFree .pb).getLsbD j = decide (16 ≤ j ∨ j = 8) := by decide

theorem maskFree_mm : ∀ j < 24, (maskFree .mm).getLsbD j = decide (8 ≤ j) := by decide

section
variable {m : Mnemonic} {w : Word} (hopc : opcodeOf m = fieldOpc w)
include hopc

theorem wordZ_of_fields (hmbz : mbzSet .z w = false) : wordZ m = w := by
  refine BitVec.eq_of_getLsbD_eq fun j hj => ?_
  have hzero : j < 24 → w.getLsbD j = false := fun h => bit_of_mbz hmbz h (maskFree_z j h)
  simp only [wordZ, hopc, fieldOpc, BitVec.getLsbD_append, BitVec.getLsbD_extractLsb']
  grind

theorem wordP_of_fields (hmbz : mbzSet .p w = false) : wordP m (fieldA w) = w := by
  refine BitVec.eq_of_getLsbD_eq fun j hj => ?_
  have hzero : j < 16 → w.getLsbD j = false := fun h =>
    bit_of_mbz hmbz (by omega) ((maskFree_p j (by omega)).trans (decide_eq_false (by omega)))
  simp only [wordP, hopc, fieldOpc, fieldA, BitVec.getLsbD_append, BitVec.getLsbD_extractLsb']
  grind

theorem wordPB_of_fields (hmbz : mbzSet .pb w = false) : wordPB m (fieldA w) (fieldVal w) = w := by
  refine BitVec.eq_of_getLsbD_eq fun j hj => ?_
  have hzero : j < 16 → j ≠ 8 → w.getLsbD j = false := fun h h8 =>
    bit_of_mbz hmbz (by omega) ((maskFree_pb j (by omega)).trans (decide_eq_false (by omega)))
  simp only [wordPB, hopc, fieldOpc, fieldA, fieldVal, fieldB, BitVec.getLsbD_append, BitVec.getLsbD_extractLsb',
    BitVec.getLsbD_ofBool]
  grind

theorem wordMM_of_fields (hmbz : mbzSet .mm w = false) : wordMM m (fieldA w) (fieldB w) = w := by
  refine BitVec.eq_of_getLsbD_eq fun j hj => ?_
  have hzero : j < 8 → w.getLsbD j = false := fun h =>
    bit_of_mbz hmbz (by omega) ((maskFree_mm j (by omega)).trans (decide_eq_false (by omega)))
  simp only [wordMM, hopc, fieldOpc, fieldA, fieldB, BitVec.getLsbD_append, BitVec.getLsbD_extractLsb']
  grind

/-- A word of format I24 has no must-be-zero bit. -/
theorem wordI24_of_fields : wordI24 m (fieldImm24 w) = w := by
  refine BitVec.eq_of_getLsbD_eq fun j hj => ?_
  simp only [wordI24, hopc, fieldOpc, fieldImm24, BitVec.getLsbD_append, BitVec.getLsbD_extractLsb']
  grind

end

theorem encode_assembleFields {m : Mnemonic} {w : Word} (hopc : opcodeOf m = fieldOpc w)
    (hmbz : mbzSet m.format w = false) : encode (assembleFields m w) = w := by
  cases m with
  | setdir | setlvl => exact wordPB_of_fields hopc hmbz
  | setpdir | setplvl => exact wordMM_of_fields hopc hmbz
  | getlvl | toggle | eadd => exact wordP_of_fields hopc hmbz
  | ethr | eper => exact wordI24_of_fields hopc
  | init | getplvl | getout | getcfg | rdcache | eclr | estart | estop | etick | epop | estat =>
    exact wordZ_of_fields hopc hmbz

end Sys2Proof

namespace Sys2Proof.Proofs

/-- Settles O1: the opcode read backwards, the must-be-zero bits zero and the operand fields read back, format by format. -/
theorem decodeOfEncodeIsIdentity : Obligations.DecodeOfEncodeIsIdentity := by
  unfold Obligations.DecodeOfEncodeIsIdentity
  exact decode_encode

/-- Settles O2: every bit of a word that decodes is in the opcode, in an operand field, or zero. -/
theorem decodedWordIsTheEncoding : Obligations.DecodedWordIsTheEncoding := by
  unfold Obligations.DecodedWordIsTheEncoding
  intro w i h
  obtain ⟨m, hopc, hmbz, rfl⟩ := (decode_eq_some_iff w i).mp h
  exact encode_assembleFields hopc hmbz

/-- Settles O4: each row's command encodes to its word, so the word decodes to it; the last row has a must-be-zero bit set. -/
theorem encodingExamples : Obligations.EncodingExamples := by
  unfold Obligations.EncodingExamples
  refine ⟨fun r hr => ?_, by decide⟩
  have hword : encode r.1 = r.2 := by
    revert r
    decide
  exact ⟨hword ▸ decode_encode r.1, hword⟩

end Sys2Proof.Proofs
end

section
/-! SUPPORT. Invariants of one channel (10_state.md rules R52, R53): what a tick does to each channel, and that what holds of an
idle entry and is kept by a channel's step is kept by every step of the machine. -/
namespace Sys2Proof.Machine

/-- What a tick leaves in an entry: a defined channel is stepped, the others stay (43_engine_tick.md rules R210, R220). -/
theorem tickEngine_get (now : Word) (snap : PinMask) (g : Engine) (k : Fin 16) :
    (tickEngine now snap g).ch[k] =
      if k.val < g.chCount.val then storeLevel snap (channelStep (threshold g) now snap g.ch[k]) else g.ch[k] := by
  obtain ⟨hch, -⟩ := emitAll_keeps (tickEvents now snap g) (tickChannels now snap g)
  rw [tickEngine, hch]
  exact mapChannels_get _ g k

/-- What a tick leaves of the engine's registers other than the queue and its overflow flag. -/
theorem tickEngine_keeps (now : Word) (snap : PinMask) (g : Engine) :
    (tickEngine now snap g).running = g.running ∧ (tickEngine now snap g).chCount = g.chCount ∧
      (tickEngine now snap g).lpThr = g.lpThr ∧ (tickEngine now snap g).pollMs = g.pollMs ∧
      (tickEngine now snap g).lastTickErr = g.lastTickErr ∧ (tickEngine now snap g).lastTickTerr = g.lastTickTerr ∧
      (tickEngine now snap g).tickPending = g.tickPending :=
  (emitAll_keeps (tickEvents now snap g) (tickChannels now snap g)).2

/-- What a tick can do to the engine: step it on a snapshot and record OK, or record the kind of a failed read. -/
theorem tick_eng (s : State) :
    (∃ now snap, (tick s).state.eng = { tickEngine now snap s.eng with lastTickErr := 0x00, lastTickTerr := 0x00 }) ∨
      ∃ k, (tick s).state.eng = { s.eng with lastTickErr := 0x01, lastTickTerr := kindCode k } := by
  obtain hok | ⟨j, k, hj, hfail⟩ := allOk_or_failsAt (bulkCount s.cfg) s
  · rw [tick_ok hok]
    exact .inl ⟨_, _, rfl⟩
  · rw [tick_fails hj hfail]
    exact .inr ⟨k, rfl⟩

/-- `Q`, said of one channel, holds at rest, reads only the four fields of `SameButton`, and is kept by a channel's step. -/
structure ChannelInvariant (Q : Channel → Prop) : Prop where
  same : ∀ c d, SameButton c d → Q c → Q d
  idle : ∀ c, Q (Channel.idle c)
  ticked : ∀ thr now snap c, Q c → Q (storeLevel snap (channelStep thr now snap c))

namespace ChannelInvariant
variable {Q : Channel → Prop} (hQ : ChannelInvariant Q)
include hQ

theorem of_tickEngine (now : Word) (snap : PinMask) {g : Engine} (hg : ∀ k : Fin 16, Q g.ch[k]) (k : Fin 16) :
    Q (tickEngine now snap g).ch[k] := by
  rw [tickEngine_get]
  split
  · exact hQ.ticked _ _ _ _ (hg k)
  · exact hg k

theorem of_tick {s : State} (hs : ∀ k : Fin 16, Q s.eng.ch[k]) (k : Fin 16) : Q (tick s).state.eng.ch[k] := by
  obtain ⟨now, snap, h⟩ | ⟨kind, h⟩ := tick_eng s <;> rw [h]
  · exact hQ.of_tickEngine now snap hs k
  · exact hs k

theorem of_commandBody (i : Instr) {s : State} (hs : ∀ k : Fin 16, Q s.eng.ch[k]) (k : Fin 16) :
    Q (commandBody i s).state.eng.ch[k] := by
  have hidle (g : Engine) : Q (mapChannels (fun _ c => c.idle) g).ch[k] := by
    rw [mapChannels_get]
    exact hQ.idle _
  by_cases hclr : i = .eclr
  · subst hclr
    obtain h | h := eclrBody_eng s <;> rw [commandBody, h]
    · exact hs k
    · exact hidle s.eng
  by_cases hstart : i = .estart
  · subst hstart
    obtain h | h := estartBody_eng s <;> rw [commandBody, h]
    · exact hs k
    · exact hidle s.eng
  by_cases htick : i = .etick
  · subst htick
    rw [commandBody, etickBody]
    split
    · exact hQ.of_tick hs k
    · exact hs k
  exact hQ.same _ _ (commandBody_sameButton i s htick hstart hclr k) (hs k)

theorem at_reset (k : Fin 16) : Q Engine.reset.ch[k] := by
  rw [Engine.reset_ch]
  exact hQ.idle Channel.reset

theorem of_step {s t : State} (hs : ∀ k : Fin 16, Q s.eng.ch[k]) (h : step s = .next t) :
    ∀ k : Fin 16, Q t.eng.ch[k] := by
  refine step_keeps (P := fun s => ∀ k : Fin 16, Q s.eng.ch[k]) (fun i s t _ hs h => ?_) (fun _ hs => hs)
    (fun _ _ hs => hQ.of_tick hs) (fun _ _ hs => hs) (fun _ hs => hs) (fun _ _ hs => hs) (fun _ => hQ.at_reset)
    (fun _ _ _ => hQ.at_reset) hs h
  rw [exec_eng h]
  exact hQ.of_commandBody i (s := clearRes s) hs

end ChannelInvariant

/-- Everything one tick's step can do to a channel: release, press, long press, or nothing (43_engine_tick.md rules R215 to
R219). -/
theorem channelStep_cases (thr now : Word) (snap : PinMask) (c : Channel) :
    (newLevel snap c = true ∧ channelStep thr now snap c = { c with life := .released, longEmitted := false }) ∨
    (newLevel snap c = false ∧
      channelStep thr now snap c = { c with life := .pressed, pressStart := now, longEmitted := false }) ∨
    (c.prev = newLevel snap c ∧ c.life = .pressed ∧
      channelStep thr now snap c = { c with life := .longPressed, longEmitted := true }) ∨
    ((c.prev = newLevel snap c ∨ (c.prev = false ∧ c.life = .released)) ∧ channelStep thr now snap c = c) := by
  by_cases hsame : c.prev = newLevel snap c
  · have hstep := (channel_of_still (thr := thr) (now := now) 0 hsame).2
    split at hstep
    case isTrue hlong => exact .inr (.inr (.inl ⟨hsame, ((isLongPress_iff ..).mp hlong).2.1, hstep⟩))
    case isFalse => exact .inr (.inr (.inr ⟨.inl hsame, hstep⟩))
  · obtain hprev | hprev := Bool.eq_false_or_eq_true c.prev
    · have hnew : newLevel snap c = false := by rwa [hprev, Bool.true_eq, Bool.not_eq_true] at hsame
      exact .inr (.inl ⟨hnew, (channel_of_press 0 hprev hnew).2⟩)
    · have hnew : newLevel snap c = true := by rwa [hprev, Bool.false_eq, Bool.not_eq_false] at hsame
      by_cases hlife : c.life = .released
      · exact .inr (.inr (.inr ⟨.inr ⟨hprev, hlife⟩, (channel_of_idle_opening 0 hprev hnew hlife).2⟩))
      · exact .inl ⟨hnew, (channel_of_release 0 hprev hnew hlife).2⟩

theorem lifeMatchesPrev_invariant : ChannelInvariant fun c => c.life = .released ↔ c.prev = true where
  same := by
    rintro c d ⟨hlife, -, -, hprev⟩ hc
    rwa [hlife, hprev]
  idle _ := ⟨fun _ => rfl, fun _ => rfl⟩
  ticked thr now snap c hc := by
    obtain ⟨hnew, h⟩ | ⟨hnew, h⟩ | ⟨hsame, hlife, h⟩ | ⟨hsame | ⟨hprev, hlife⟩, h⟩ := channelStep_cases thr now snap c
    all_goals rw [h]
    · exact ⟨fun _ => hnew, fun _ => rfl⟩
    · exact ⟨nofun, fun hopen => absurd (hnew.symm.trans hopen) Bool.false_ne_true⟩
    · exact ⟨nofun, fun hopen => absurd (hc.mpr (hsame.trans hopen)) (by simp [hlife])⟩
    · exact hc.trans (by rw [hsame]; rfl)
    · exact absurd (hprev.symm.trans (hc.mp hlife)) Bool.false_ne_true

theorem longMatchesLife_invariant : ChannelInvariant fun c => c.longEmitted = true ↔ c.life = .longPressed where
  same := by
    rintro c d ⟨hlife, -, hlong, -⟩ hc
    rwa [hlife, hlong]
  idle _ := ⟨nofun, nofun⟩
  ticked thr now snap c hc := by
    obtain ⟨-, h⟩ | ⟨-, h⟩ | ⟨-, -, h⟩ | ⟨-, h⟩ := channelStep_cases thr now snap c
    all_goals rw [h]
    · exact ⟨nofun, nofun⟩
    · exact ⟨nofun, nofun⟩
    · exact ⟨fun _ => rfl, fun _ => rfl⟩
    · exact hc

end Sys2Proof.Machine

namespace Sys2Proof.Proofs
open Sys2Proof.Machine

/-- Settles O53: a channel's step keeps it, and so does everything else that writes the entries. -/
theorem everyStepKeepsLifeMatchingPrev : Obligations.EveryStepKeepsLifeMatchingPrev := by
  unfold Obligations.EveryStepKeepsLifeMatchingPrev
  exact fun s t hs h => lifeMatchesPrev_invariant.of_step hs h

/-- Settles O54: a channel's step sets the flag with the lifecycle, and everything else writes both or neither. -/
theorem everyStepKeepsLongMatchingLife : Obligations.EveryStepKeepsLongMatchingLife := by
  unfold Obligations.EveryStepKeepsLongMatchingLife
  exact fun s t hs h => longMatchesLife_invariant.of_step hs h

/-- Settles O41: the entries and the registers that emitting the tick's events leaves. -/
theorem tickStepsTheDefinedChannels : Obligations.TickStepsTheDefinedChannels := by
  unfold Obligations.TickStepsTheDefinedChannels
  exact fun now snap g => ⟨tickEngine_get now snap g, tickEngine_keeps now snap g⟩

end Sys2Proof.Proofs
end

section
/-! SUPPORT. Frames over a whole command (10_state.md rules R31 to R35, R40, R47 to R51, R54): a relation that the updates every
command is made of keep, and the two updates that only some commands use, is kept by the command. -/
namespace Sys2Proof.Machine

/-! ### Preorders that the common updates keep -/

/-- From before to after: a relation that no transaction and no write of the host registers, the engine or the time draw breaks. -/
structure Frame (R : State → State → Prop) : Prop where
  trans : ∀ {s t u}, R s t → R t u → R s u
  issued : ∀ evs s, R s (issued evs s)
  sampled : ∀ s, R s (sampledNow s)
  host : ∀ h s, R s { s with host := h }
  engine : ∀ g s, R s (withEngine g s)

/-- That a part of the state is unchanged is such a relation when those updates do not reach the part. -/
theorem frame_eq {α : Type} (part : State → α) (hissued : ∀ evs s, part (issued evs s) = part s)
    (hsampled : ∀ s, part (sampledNow s) = part s) (hhost : ∀ h s, part { s with host := h } = part s)
    (hengine : ∀ g s, part (withEngine g s) = part s) : Frame fun s t => part t = part s where
  trans h g := g.trans h
  issued := hissued
  sampled := hsampled
  host := hhost
  engine := hengine

/-- The commands that record an observed input (40_register_access.md rule R126). -/
def Observes (i : Instr) : Prop := (∃ pin, i = .getlvl pin) ∨ i = .getplvl ∨ i = .etick

/-- The commands of 42_engine_control.md write the host registers and the engine alone. -/
theorem control_state {i : Instr} (hi : isExpander i = false) (htick : i ≠ .etick) (s : State) :
    ∃ h g, (commandBody i s).state = { s with host := h, eng := g } := by
  have hsame : ∃ h g, s = { s with host := h, eng := g } := ⟨s.host, s.eng, rfl⟩
  have hnew (g : Engine) : ∃ h g', withEngine g s = { s with host := h, eng := g' } := ⟨s.host, g, rfl⟩
  cases i with
  | etick => exact absurd rfl htick
  | init | setdir | setpdir | setlvl | setplvl | getlvl | getplvl | getout | getcfg | toggle | rdcache => cases hi
  | eper | estop => exact hnew _
  | estat => exact ⟨_, s.eng, rfl⟩
  | eclr =>
    rw [commandBody, eclrBody]
    split
    · exact hsame
    · exact hnew _
  | ethr ms =>
    rw [commandBody, ethrBody]
    split
    · exact hsame
    · exact hnew _
  | eadd pin =>
    rw [commandBody, eaddBody]
    repeat' split
    case isFalse.isFalse.isFalse.isFalse => exact hnew _
    all_goals exact hsame
  | estart =>
    rw [commandBody, estartBody]
    repeat' split
    case isFalse.isFalse.isFalse.isTrue => exact hnew _
    all_goals exact hsame
  | epop =>
    cases hq : s.eng.evq with
    | nil => rw [commandBody, epopBody_empty hq]; exact hsame
    | cons ev rest => rw [commandBody, epopBody_cons hq]; exact ⟨_, _, rfl⟩

namespace Frame
variable {R : State → State → Prop} (hR : Frame R)
include hR

theorem refl (s : State) : R s s := hR.host s.host s

theorem andThen {ε α β : Type} {s : State} {r : Ran ε α} {f : α → State → Ran ε β} (h : R s r.state)
    (hf : ∀ a t, R t (f a t).state) : R s (r.andThen f).state := by
  cases r with
  | raised e t => exact h
  | done a t => exact hR.trans h (hf a t)

theorem readReg (k : RegKind) (p : Port) (s : State) : R s (readReg k p s).state := by
  obtain hok | ⟨j, e, hj, hfail⟩ := allOk_or_failsAt 2 s
  · rw [readReg_ok k p hok]
    exact hR.issued _ s
  · rw [readReg_fails k p hj hfail]
    exact hR.issued _ s

theorem bulkRead (k : RegKind) (s : State) : R s (bulkRead k s).state := by
  obtain hok | ⟨j, e, hj, hfail⟩ := allOk_or_failsAt (bulkCount s.cfg) s
  · rw [bulkRead_ok k s hok]
    exact hR.issued _ s
  · rw [bulkRead_fails k s j e hj hfail]
    exact hR.issued _ s

theorem bulkToRes (k : RegKind) {seen : Byte → Byte → State → State} (hseen : ∀ a b s, R s (seen a b s)) (s : State) :
    R s (bulkToRes k seen s).state :=
  hR.andThen (by rw [wrap_state]; exact hR.bulkRead k s) fun b t =>
    hR.trans (hseen b.1 b.2 t) (hR.host _ (seen b.1 b.2 t))

theorem observeBoth (hsee : ∀ p b s, R s (observe p b s)) (b0 b1 : Byte) (s : State) : R s (observeBoth b0 b1 s) :=
  hR.trans (hsee .p0 b0 s) (hsee .p1 b1 _)

theorem tick (hsee : ∀ p b s, R s (observe p b s)) (s : State) : R s (tick s).state := by
  have hread := hR.trans (hR.sampled s) (hR.bulkRead .input (sampledNow s))
  unfold Machine.tick
  cases hb : Machine.bulkRead .input (sampledNow s) with
  | raised e t =>
    rw [hb] at hread
    exact hR.trans hread (hR.engine _ t)
  | done b t =>
    rw [hb] at hread
    exact hR.trans (hR.trans hread (hR.observeBoth hsee b.1 b.2 t)) (hR.engine _ _)

section
variable (hcache : ∀ l p v s, R s (setCache l p v s))
include hcache

theorem writeCached (l : Latch) (p : Port) (v : Byte) (s : State) : R s (writeCached l p v s).state := by
  obtain hok | ⟨j, e, hj, hfail⟩ := allOk_or_failsAt 1 s
  · rw [writeCached_ok l p v hok]
    exact hR.trans (hR.issued _ s) (hcache l p v _)
  · obtain rfl : j = 0 := by omega
    rw [writeCached_fails l p v hfail]
    exact hR.issued _ s

theorem writePair (l : Latch) (m0 m1 : Byte) (s : State) : R s (writePair l m0 m1 s).state :=
  hR.andThen (hR.writeCached hcache l .p0 m0 s) fun _ t => hR.writeCached hcache l .p1 m1 t

theorem pinBody (l : Latch) (pin : Byte) (f : Nat → Byte → Byte) (s : State) : R s (pinBody l pin f s).state := by
  by_cases hpin : pin.toNat < 16
  · rw [pinBody_valid hpin]
    refine hR.andThen ?_ fun old t => hR.writeCached hcache l _ _ t
    unfold rmwOld
    split
    · rw [wrap_state]
      exact hR.readReg l.reg _ s
    · exact hR.refl s
  · rw [pinBody_invalid (not_lt.mp hpin)]
    exact hR.refl s

theorem initBody (hinit : ∀ b s, R s (setInitDone b s)) (s : State) : R s (initBody s).state := by
  unfold Machine.initBody
  split
  · exact hR.refl s
  · refine hR.trans (hinit false s) (hR.andThen ?_ fun _ t => hR.andThen (hR.writePair hcache _ _ _ t) fun _ u =>
      hR.andThen (hR.writePair hcache _ _ _ u) fun _ v => hinit true v)
    exact hR.andThen (by rw [wrap_state]; exact hR.readReg .input .p0 _) fun _ t => hR.refl t

end

/-- Every command's body keeps the relation, when the updates that only some commands make do. -/
theorem commandBody {i : Instr} (hcache : writesChip i = true → ∀ l p v s, R s (setCache l p v s))
    (hinit : i = .init → ∀ b s, R s (setInitDone b s)) (hsee : Observes i → ∀ p b s, R s (observe p b s)) (s : State) :
    R s (commandBody i s).state := by
  have hcontrol (hi : isExpander i = false) (htick : i ≠ .etick) : R s (Machine.commandBody i s).state := by
    obtain ⟨h, g, hstate⟩ := control_state hi htick s
    rw [hstate]
    exact hR.trans (hR.host h s) (hR.engine g { s with host := h })
  cases i with
  | init => exact hR.initBody (hcache rfl) (hinit rfl) s
  | setdir pin dir => exact hR.pinBody (hcache rfl) .cfg pin (fun n => putb n dir) s
  | setlvl pin level => exact hR.pinBody (hcache rfl) .out pin (fun n => putb n level) s
  | toggle pin => exact hR.pinBody (hcache rfl) .out pin flipb s
  | setpdir m0 m1 => exact hR.writePair (hcache rfl) .cfg m0 m1 s
  | setplvl m0 m1 => exact hR.writePair (hcache rfl) .out m0 m1 s
  | getlvl pin =>
    show R s (getlvlBody pin s).state
    unfold getlvlBody
    split
    · exact hR.andThen (by rw [wrap_state]; exact hR.readReg .input _ s) fun b t =>
        hR.trans (hsee (.inl ⟨pin, rfl⟩) _ b t) (hR.host _ (observe _ b t))
    · exact hR.refl s
  | getplvl => exact hR.bulkToRes .input (hR.observeBoth (hsee (.inr (.inl rfl)))) s
  | getout => exact hR.bulkToRes .output (fun _ _ s => hR.refl s) s
  | getcfg => exact hR.bulkToRes .config (fun _ _ s => hR.refl s) s
  | rdcache => exact hR.host _ s
  | etick =>
    show R s (etickBody s).state
    unfold etickBody
    split
    · exact hR.tick (hsee (.inr (.inr rfl))) s
    · exact hR.refl s
  | eclr | eadd | ethr | eper | estart | estop | epop | estat => exact hcontrol rfl nofun

theorem finish (r : Ran Raise Unit) : R r.state (finish r) := by
  cases r <;> exact hR.host _ _

/-- The command frame of 60_exceptions.md rule R246 writes the host registers alone. -/
theorem exec {i : Instr} {s t : State} (hcache : writesChip i = true → ∀ l p v s, R s (setCache l p v s))
    (hinit : i = .init → ∀ b s, R s (setInitDone b s)) (hsee : Observes i → ∀ p b s, R s (observe p b s))
    (h : exec i s = .next t) : R s t := by
  obtain ⟨-, rfl⟩ := (exec_next_iff i s t).mp h
  exact hR.trans (hR.trans (hR.host _ s) (hR.commandBody hcache hinit hsee (clearRes s))) (hR.finish _)

end Frame

/-! ### Four frames of exec -/

/-- `INIT_DONE` is INIT's (10_state.md rule R33). -/
theorem exec_initDone {i : Instr} {s t : State} (hi : i ≠ .init) (h : exec i s = .next t) :
    t.exp.initDone = s.exp.initDone :=
  (frame_eq (fun s => s.exp.initDone) (fun _ _ => rfl) (fun _ => rfl) (fun _ _ => rfl) fun _ _ => rfl).exec
    (fun _ => setCache_initDone) (fun hinit => absurd hinit hi) (fun _ _ _ _ => rfl) h

/-- A command that writes no chip register leaves the cache (10_state.md rules R31, R34). -/
theorem exec_cache {i : Instr} {s t : State} (hi : writesChip i = false) (h : exec i s = .next t) (l : Latch) (p : Port) :
    cached l p t = cached l p s ∧ cacheValid l p t = cacheValid l p s := by
  have hcached : Frame fun s t => cached l p t = cached l p s := by
    apply frame_eq <;> intros <;> exact cached_of_exp l p rfl
  have hvalid : Frame fun s t => cacheValid l p t = cacheValid l p s := by
    apply frame_eq <;> intros <;> exact cacheValid_of_exp l p rfl
  have hnot : writesChip i ≠ true := ne_true_of_eq_false hi
  exact ⟨hcached.exec (fun hw => absurd hw hnot) (fun _ _ _ => by cases l <;> rfl) (fun _ _ _ _ => by cases l <;> rfl) h,
    hvalid.exec (fun hw => absurd hw hnot) (fun _ _ _ => by cases l <;> rfl) (fun _ _ _ _ => by cases l <;> rfl) h⟩

/-- A valid bit stays set through a relation of frames. -/
theorem frame_cacheValid (l : Latch) (p : Port) : Frame fun s t => cacheValid l p s = true → cacheValid l p t = true where
  trans h g hs := g (h hs)
  issued _ _ hs := by rwa [cacheValid_of_exp l p (issued_exp _ _)]
  sampled _ hs := by rwa [cacheValid_of_exp l p (sampledNow_exp _)]
  host _ s hs := (cacheValid_of_exp (s := s) l p rfl).trans hs
  engine _ _ hs := by rwa [cacheValid_of_exp l p (withEngine_exp _ _)]

theorem cacheValid_setCache_of_valid (l m : Latch) (p q : Port) (v : Byte) (s : State) (h : cacheValid m q s = true) :
    cacheValid m q (setCache l p v s) = true := by
  by_cases hsame : m = l ∧ q = p
  · obtain ⟨rfl, rfl⟩ := hsame
    exact cacheValid_setCache_same m q v s
  · rwa [cacheValid_setCache_other l m p q v s hsame]

/-- No command clears a valid bit (10_state.md rule R35). -/
theorem exec_cacheValid {i : Instr} {s t : State} (h : exec i s = .next t) (l : Latch) (p : Port)
    (hs : cacheValid l p s = true) : cacheValid l p t = true :=
  (frame_cacheValid l p).exec (fun _ m q v s => cacheValid_setCache_of_valid m l q p v s)
    (fun _ _ _ hs => by cases l <;> exact hs) (fun _ _ _ _ hs => by cases l <;> exact hs) h hs

/-! ### Who writes `LAST_IN` (40_register_access.md rule R126) -/

theorem exec_lastIn {i : Instr} {s t : State} (hi : ¬ Observes i) (h : exec i s = .next t) :
    t.exp.lastIn = s.exp.lastIn ∧ t.exp.lastInValid = s.exp.lastInValid :=
  ⟨(frame_eq (fun s => s.exp.lastIn) (fun _ _ => rfl) (fun _ => rfl) (fun _ _ => rfl) fun _ _ => rfl).exec
      (fun _ => setCache_lastIn) (fun _ _ _ => rfl) (fun hobs => absurd hobs hi) h,
    (frame_eq (fun s => s.exp.lastInValid) (fun _ _ => rfl) (fun _ => rfl) (fun _ _ => rfl) fun _ _ => rfl).exec
      (fun _ => setCache_lastInValid) (fun _ _ _ => rfl) (fun hobs => absurd hobs hi) h⟩

/-- A command that records observed inputs records none when it raises. -/
theorem raised_exp_of_observes {i : Instr} {s u : State} {e : Raise} (hi : Observes i)
    (h : commandBody i s = .raised e u) : u.exp = s.exp := by
  obtain ⟨pin, rfl⟩ | rfl | rfl := hi
  · by_cases hpin : pin.toNat < 16
    · obtain hok | ⟨j, k, hj, hfail⟩ := allOk_or_failsAt 2 s
      · cases (getlvlBody_ok hpin hok).symm.trans h
      · cases (getlvlBody_fails hpin hj hfail).symm.trans h
        rfl
    · cases (getlvlBody_invalid (not_lt.mp hpin) s).symm.trans h
      rfl
  · obtain hok | ⟨j, k, hj, hfail⟩ := allOk_or_failsAt (bulkCount s.cfg) s
    · cases (bulkToRes_ok .input observeBoth hok).symm.trans h
    · cases (bulkToRes_fails .input observeBoth hj hfail).symm.trans h
      rfl
  · rw [commandBody, etickBody] at h
    split at h
    · obtain hok | ⟨j, k, hj, hfail⟩ := allOk_or_failsAt (bulkCount s.cfg) s
      · cases (tick_ok hok).symm.trans h
      · cases (tick_fails hj hfail).symm.trans h
        rfl
    · cases h
      rfl

/-- A command that ends with an error is a body that raised it. -/
theorem exec_raised {i : Instr} {s t : State} (h : exec i s = .next t) (herr : t.host.err ≠ 0x00) :
    ∃ e u, commandBody i (clearRes s) = .raised e u ∧ t = setStatus (errCode e) (terrCode e) u := by
  obtain ⟨-, rfl⟩ := (exec_next_iff i s t).mp h
  cases hbody : commandBody i (clearRes s) with
  | done a u => exact absurd (congrArg (fun r => (finish r).host.err) hbody) herr
  | raised e u => exact ⟨e, u, rfl, rfl⟩

theorem exec_lastIn_of_error {i : Instr} {s t : State} (h : exec i s = .next t) (herr : t.host.err ≠ 0x00) :
    t.exp.lastIn = s.exp.lastIn ∧ t.exp.lastInValid = s.exp.lastInValid := by
  by_cases hi : Observes i
  · obtain ⟨e, u, hbody, rfl⟩ := exec_raised h herr
    have hexp : u.exp = s.exp := raised_exp_of_observes (s := clearRes s) hi hbody
    exact ⟨congrArg Expander.lastIn hexp, congrArg Expander.lastInValid hexp⟩
  · exact exec_lastIn hi h

/-! ### Who writes the engine's registers (10_state.md rules R40, R47 to R51) -/

/-- From `g` to `h` the command wrote no register of the engine that is not its own, the channel table apart. -/
structure WritesOwnRegisters (i : Instr) (g h : Engine) : Prop where
  running : i ≠ .estart → i ≠ .estop → h.running = g.running
  lpThr : (∀ ms, i ≠ .ethr ms) → h.lpThr = g.lpThr
  pollMs : (∀ ms, i ≠ .eper ms) → h.pollMs = g.pollMs
  evq : i ≠ .etick → i ≠ .epop → h.evq = g.evq
  tickOutcome : i ≠ .etick → i ≠ .estart →
    h.evqOvf = g.evqOvf ∧ h.lastTickErr = g.lastTickErr ∧ h.lastTickTerr = g.lastTickTerr
  tickPending : h.tickPending = g.tickPending

theorem WritesOwnRegisters.rfl {i : Instr} {g : Engine} : WritesOwnRegisters i g g :=
  ⟨fun _ _ => Eq.refl _, fun _ => Eq.refl _, fun _ => Eq.refl _, fun _ _ => Eq.refl _,
    fun _ _ => ⟨Eq.refl _, Eq.refl _, Eq.refl _⟩, Eq.refl _⟩

/-- The channel table is none of these registers. -/
theorem writesOwnRegisters_table (i : Instr) (g : Engine) (ch : Vector Channel 16) (n : Fin 17) :
    WritesOwnRegisters i g { g with ch := ch, chCount := n } :=
  ⟨fun _ _ => rfl, fun _ => rfl, fun _ => rfl, fun _ _ => rfl, fun _ _ => ⟨rfl, rfl, rfl⟩, rfl⟩

/-- What ESTART writes. -/
theorem writesOwnRegisters_estart (g : Engine) (ch : Vector Channel 16) (run ovf : Bool) (err terr : Byte) :
    WritesOwnRegisters .estart g
      { g with ch := ch, evqOvf := ovf, lastTickErr := err, lastTickTerr := terr, running := run } :=
  ⟨fun hne => absurd rfl hne, fun _ => rfl, fun _ => rfl, fun _ _ => rfl, fun _ hne => absurd rfl hne, rfl⟩

theorem commandBody_writesOwnRegisters (i : Instr) (s : State) :
    WritesOwnRegisters i s.eng (commandBody i s).state.eng := by
  cases i with
  | init | setdir | setpdir | setlvl | setplvl | getlvl | getplvl | getout | getcfg | toggle | rdcache =>
    rw [commandBody_eng s rfl]
    exact .rfl
  | eclr =>
    obtain h | h := eclrBody_eng s <;> rw [commandBody, h]
    · exact .rfl
    · simp only [mapChannels]
      exact writesOwnRegisters_table _ s.eng _ _
  | eadd pin =>
    obtain h | h := eaddBody_eng pin s <;> rw [commandBody, h]
    · exact .rfl
    · simp only [addChannel, mapChannels]
      exact writesOwnRegisters_table _ s.eng _ _
  | ethr ms =>
    rw [commandBody, ethrBody]
    split
    · exact .rfl
    · exact ⟨fun _ _ => rfl, fun hne => absurd rfl (hne ms), fun _ => rfl, fun _ _ => rfl,
        fun _ _ => ⟨rfl, rfl, rfl⟩, rfl⟩
  | eper ms =>
    exact ⟨fun _ _ => rfl, fun _ => rfl, fun hne => absurd rfl (hne ms), fun _ _ => rfl,
      fun _ _ => ⟨rfl, rfl, rfl⟩, rfl⟩
  | estart =>
    obtain h | h := estartBody_eng s <;> rw [commandBody, h]
    · exact .rfl
    · simp only [started, mapChannels]
      exact writesOwnRegisters_estart s.eng _ _ _ _ _
  | estop =>
    exact ⟨fun _ hne => absurd rfl hne, fun _ => rfl, fun _ => rfl, fun _ _ => rfl, fun _ _ => ⟨rfl, rfl, rfl⟩, rfl⟩
  | etick =>
    rw [commandBody, etickBody]
    split
    · obtain ⟨now, snap, h⟩ | ⟨k, h⟩ := tick_eng s <;> rw [h]
      · obtain ⟨hrun, -, hthr, hpoll, -, -, hpend⟩ := tickEngine_keeps now snap s.eng
        exact ⟨fun _ _ => hrun, fun _ => hthr, fun _ => hpoll, fun hne => absurd rfl hne, fun hne => absurd rfl hne, hpend⟩
      · exact ⟨fun _ _ => rfl, fun _ => rfl, fun _ => rfl, fun _ _ => rfl, fun hne => absurd rfl hne, rfl⟩
    · exact .rfl
  | epop =>
    cases hq : s.eng.evq with
    | nil => rw [commandBody, epopBody_empty hq]; exact .rfl
    | cons ev rest =>
      rw [commandBody, epopBody_cons hq]
      exact ⟨fun _ _ => rfl, fun _ => rfl, fun _ => rfl, fun _ hne => absurd rfl hne, fun _ _ => ⟨rfl, rfl, rfl⟩, rfl⟩
  | estat => exact .rfl

end Sys2Proof.Machine

namespace Sys2Proof.Proofs
open Sys2Proof.Machine

/-- Settles O45: the body of an expander command runs the same with any engine, inside the frame. -/
theorem expanderCommandsIgnoreTheEngine : Obligations.ExpanderCommandsIgnoreTheEngine := by
  unfold Obligations.ExpanderCommandsIgnoreTheEngine
  exact fun i s g hi hr => ⟨exec_withEngine hi hr, fun t h => (exec_eng h).trans (commandBody_eng (clearRes s) hi)⟩

/-- Settles O47: each command's body by the registers it writes; `INIT_DONE` by its frame. -/
theorem engineRegistersHaveTheirWriters : Obligations.EngineRegistersHaveTheirWriters := by
  unfold Obligations.EngineRegistersHaveTheirWriters
  intro i s t h
  obtain ⟨hrun, hthr, hpoll, hevq, htick, hpend⟩ := commandBody_writesOwnRegisters i (clearRes s)
  rw [← exec_eng h] at hrun hthr hpoll hevq htick hpend
  exact ⟨hrun, hthr, hpoll, hevq, htick, fun hi => exec_initDone hi h, hpend⟩

/-- Settles O49: the cache is in the frame of every command that writes no chip register, and a set valid bit in that of all. -/
theorem readsNeverWriteTheCache : Obligations.ReadsNeverWriteTheCache := by
  unfold Obligations.ReadsNeverWriteTheCache
  exact fun i s t h => ⟨fun hi => exec_cache hi h, exec_cacheValid h⟩

/-- Settles O50: `LAST_IN` is in the frame of every other command, and the three that write it do so after their last
transaction. -/
theorem lastInHasItsWriters : Obligations.LastInHasItsWriters := by
  unfold Obligations.LastInHasItsWriters
  refine fun i s t h => ⟨fun hgetlvl hgetplvl hetick => exec_lastIn ?_ h, exec_lastIn_of_error h⟩
  rintro (⟨pin, hi⟩ | hi | hi)
  · exact hgetlvl pin hi
  · exact hgetplvl hi
  · exact hetick hi

/-- Settles O51: what each body issues, by how it ended. -/
theorem transactionsAreCounted : Obligations.TransactionsAreCounted := by
  unfold Obligations.TransactionsAreCounted
  intro i s t h
  obtain ⟨-, rfl⟩ := (exec_next_iff i s t).mp h
  obtain ⟨-, evs, hlog, -, hle, hend⟩ := commandBody_issues i (clearRes s)
  refine ⟨evs, (congrArg Env.busLog (finish_env _)).trans hlog, hle, ?_⟩
  cases hbody : commandBody i (clearRes s) with
  | done a u =>
    rw [hbody] at hend
    exact ⟨fun _ => hend, fun herr => absurd herr (by simp [errOk]), fun herr => absurd herr (by simp [errOk])⟩
  | raised e u =>
    rw [hbody] at hend
    have hcode : (finish (.raised e u)).host.err = errCode e := rfl
    rw [hcode]
    obtain ⟨hbus, hlast⟩ | ⟨hother, hnone⟩ := hend
    · refine ⟨fun herr => ?_, fun _ => hlast, fun herr => ?_⟩ <;>
        obtain hbus | hbus := hbus <;> rw [hbus] at herr <;> exact absurd herr (by decide)
    · refine ⟨fun herr => ?_, fun herr => ?_, fun _ => hnone⟩
      · rw [herr] at hother
        exact absurd hother (by decide)
      · obtain herr | herr := herr <;> rw [herr] at hother <;> exact absurd hother (by decide)

end Sys2Proof.Proofs
end

section
/-! SUPPORT. The legal registers (10_state.md sections 1 and 3): the host's report, the engine with `INIT_DONE`, and the cache's
valid bits, each kept by every command and by a tick. -/
namespace Sys2Proof.Machine

/-! ### The report (60_exceptions.md rules R240, R242) -/

/-- `WellKept`, of the host registers. -/
structure ReportLegal (h : HostRegs) : Prop where
  err_code : h.err.toNat ≤ 8
  terr_fits : TerrFits h.err h.terr

theorem terrFits_ok : TerrFits 0x00 0x00 := by
  unfold TerrFits
  decide

theorem terrFits_codes (e : Raise) : TerrFits (errCode e) (terrCode e) := by
  unfold TerrFits
  cases e with
  | busError k | chipNotFound k => cases k <;> decide
  | _ => decide

/-- What an error reports, whatever else the state holds. -/
theorem reportLegal_raised (e : Raise) (s : State) : ReportLegal (setStatus (errCode e) (terrCode e) s).host :=
  ⟨errCode_le e, terrFits_codes e⟩

theorem exec_reportLegal {i : Instr} {s t : State} (h : exec i s = .next t) : ReportLegal t.host := by
  obtain ⟨hok, hterr⟩ | ⟨e, u, -, rfl⟩ := exec_report h
  · exact ⟨by rw [hok]; decide, by rw [hok, hterr]; exact terrFits_ok⟩
  · exact reportLegal_raised e u

/-! ### The engine -/

/-- `WellKept`, of the engine, under this `INIT_DONE`. -/
structure EngineLegal (g : Engine) (initDone : Bool) : Prop where
  tick_err : g.lastTickErr = 0x00 ∨ g.lastTickErr = 0x01
  tick_terr : TerrFits g.lastTickErr g.lastTickTerr
  queue_fits : g.evq.length ≤ Config.evqDepth
  pins_distinct : ∀ j k : Fin 16, j.val < g.chCount.val → k.val < g.chCount.val → g.ch[j].pin = g.ch[k].pin → j = k
  running_init : g.running = true → initDone = true
  running_channels : g.running = true → 0 < g.chCount.val

/-- Adding a channel writes the table alone. -/
theorem addChannel_eq (pin : BitVec 4) (g : Engine) :
    addChannel pin g = { g with ch := (addChannel pin g).ch, chCount := g.chCount + 1 } := by
  simp only [addChannel, mapChannels]

namespace EngineLegal
variable {g : Engine} {b : Bool} (hg : EngineLegal g b)
include hg

/-- Distinct pins stay so in an engine with the same table (rule R42). -/
theorem pins_of_sameTable {g' : Engine} (h : SameTable g g') (j k : Fin 16) (hj : j.val < g'.chCount.val)
    (hk : k.val < g'.chCount.val) (hpin : g'.ch[j].pin = g'.ch[k].pin) : j = k := by
  obtain ⟨hpins, hcount⟩ := h
  rw [hcount] at hj hk
  rw [hpins, hpins] at hpin
  exact hg.pins_distinct j k hj hk hpin

theorem ticked (now : Word) (snap : PinMask) :
    EngineLegal { tickEngine now snap g with lastTickErr := 0x00, lastTickTerr := 0x00 } b := by
  obtain ⟨hrun, hcount, -⟩ := tickEngine_keeps now snap g
  obtain ⟨-, hqueue⟩ := Proofs.fullQueueDropsTheNewest now snap g
  have hfits : (tickEngine now snap g).evq.length ≤ 32 := by
    rw [(hqueue hg.queue_fits).1]
    exact List.length_take_le 32 _
  exact ⟨.inl rfl, terrFits_ok, hfits, hg.pins_of_sameTable (tickEngine_sameTable now snap g),
    fun hr => hg.running_init (hrun ▸ hr), fun hr => hcount ▸ hg.running_channels (hrun ▸ hr)⟩

theorem tick_failed (k : TransportErrorKind) :
    EngineLegal { g with lastTickErr := 0x01, lastTickTerr := kindCode k } b :=
  ⟨.inr rfl, terrFits_codes (.busError k), hg.queue_fits, hg.pins_distinct, hg.running_init, hg.running_channels⟩

/-- The table of a stopped engine replaced by one with distinct pins. -/
theorem with_table (hr : g.running = false) {ch : Vector Channel 16} {n : Fin 17}
    (hpins : ∀ j k : Fin 16, j.val < n.val → k.val < n.val → ch[j].pin = ch[k].pin → j = k) :
    EngineLegal { g with ch := ch, chCount := n } b :=
  ⟨hg.tick_err, hg.tick_terr, hg.queue_fits, hpins, fun h => absurd (hr.symm.trans h) Bool.false_ne_true,
    fun h => absurd (hr.symm.trans h) Bool.false_ne_true⟩

theorem cleared (hr : g.running = false) :
    EngineLegal { mapChannels (fun _ c => c.idle) g with chCount := 0 } b := by
  rw [mapChannels]
  exact hg.with_table hr fun _ _ hj => absurd hj (Nat.not_lt_zero _)

theorem added {pin : Byte} (hr : g.running = false) (hpin : pin.toNat < 16) (hok : ¬ TableRefuses pin g) :
    EngineLegal (addChannel (pin.setWidth 4) g) b := by
  rw [addChannel_eq]
  refine hg.with_table hr fun j k hj hk hsame => ?_
  rw [TableRefuses, not_or, not_exists] at hok
  obtain ⟨hroom, hnew⟩ := hok
  have hcount : (g.chCount + 1).val = g.chCount.val + 1 := Fin.val_add_one_of_lt (Fin.lt_def.mpr (by simp; omega))
  have hfresh (k : Fin 16) (hk : k.val < g.chCount.val) : g.ch[k].pin ≠ pin.setWidth 4 := fun h =>
    hnew k ⟨hk, (eq_setWidth_iff hpin _).mp h⟩
  rw [hcount] at hj hk
  rw [addChannel_get, addChannel_get] at hsame
  split at hsame <;> split at hsame
  · exact Fin.ext (by omega)
  · exact absurd hsame.symm (hfresh k (by omega))
  · exact absurd hsame (hfresh j (by omega))
  · exact hg.pins_distinct j k (by omega) (by omega) hsame

theorem started (hinit : b = true) (hcount : 0 < g.chCount.val) : EngineLegal (started g) b := by
  have hpins := hg.pins_of_sameTable (started_sameTable g)
  rw [Machine.started, mapChannels] at hpins ⊢
  exact ⟨.inl rfl, terrFits_ok, hg.queue_fits, hpins, fun _ => hinit, fun _ => hcount⟩

theorem popped {ev : Event} {rest : List Event} (hq : g.evq = ev :: rest) : EngineLegal { g with evq := rest } b := by
  have hfits := hg.queue_fits
  rw [hq] at hfits
  exact { hg with queue_fits := Nat.le_of_succ_le hfits }

theorem stopped : EngineLegal { g with running := false } b :=
  ⟨hg.tick_err, hg.tick_terr, hg.queue_fits, hg.pins_distinct, nofun, nofun⟩

end EngineLegal

theorem tick_engineLegal {s : State} (hs : EngineLegal s.eng s.exp.initDone) :
    EngineLegal (tick s).state.eng s.exp.initDone := by
  obtain ⟨now, snap, h⟩ | ⟨k, h⟩ := tick_eng s <;> rw [h]
  · exact hs.ticked now snap
  · exact hs.tick_failed k

theorem eaddBody_engineLegal (pin : Byte) {s : State} (hs : EngineLegal s.eng s.exp.initDone) :
    EngineLegal (eaddBody pin s).state.eng s.exp.initDone := by
  cases hr : s.eng.running with
  | true => rw [eaddBody, if_pos hr]; exact hs
  | false =>
    by_cases hpin : pin.toNat < 16
    · by_cases htable : TableRefuses pin s.eng
      · rw [eaddBody_refused hr hpin htable]; exact hs
      · rw [eaddBody_accepted hr hpin htable]; exact hs.added hr hpin htable
    · rw [eaddBody_invalid hr (not_lt.mp hpin)]; exact hs

theorem estartBody_engineLegal {s : State} (hs : EngineLegal s.eng s.exp.initDone) :
    EngineLegal (estartBody s).state.eng s.exp.initDone := by
  cases hr : s.eng.running with
  | true => rw [estartBody, if_pos hr]; exact hs
  | false =>
    rw [estartBody_stopped hr]
    split
    case isTrue hready =>
      obtain ⟨hinit, hcount, -⟩ := hready
      exact hs.started hinit hcount
    case isFalse => exact hs

/-- Every command's body. INIT writes `INIT_DONE` besides. -/
theorem commandBody_engineLegal (i : Instr) {s : State} (hs : EngineLegal s.eng s.exp.initDone) :
    EngineLegal (commandBody i s).state.eng s.exp.initDone := by
  cases i with
  | init | setdir | setpdir | setlvl | setplvl | getlvl | getplvl | getout | getcfg | toggle | rdcache =>
    rw [commandBody_eng s rfl]
    exact hs
  | eclr =>
    rw [commandBody, eclrBody]
    split
    case isTrue => exact hs
    case isFalse hr => exact hs.cleared (eq_false_of_ne_true hr)
  | eadd pin => exact eaddBody_engineLegal pin hs
  | ethr ms =>
    rw [commandBody, ethrBody]
    split
    · exact hs
    · exact { hs with }
  | eper ms => exact { hs with }
  | estart => exact estartBody_engineLegal hs
  | estop => exact hs.stopped
  | etick =>
    rw [commandBody, etickBody]
    split
    · exact tick_engineLegal hs
    · exact hs
  | epop =>
    cases hq : s.eng.evq with
    | nil => rw [commandBody, epopBody_empty hq]; exact hs
    | cons ev rest => rw [commandBody, epopBody_cons hq]; exact hs.popped hq
  | estat => exact hs

/-! ### The cache after INIT (70_reset_and_hazards.md rule R284) -/

/-- After a successful INIT every cache register is valid. -/
def CacheReady (s : State) : Prop := s.exp.initDone = true → ∀ (l : Latch) (p : Port), cacheValid l p s = true

/-- What keeps `INIT_DONE` and clears no valid bit. -/
theorem CacheReady.of_frames {s t : State} (hs : CacheReady s) (hinit : t.exp.initDone = s.exp.initDone)
    (hvalid : ∀ l p, cacheValid l p s = true → cacheValid l p t = true) : CacheReady t :=
  fun h l p => hvalid l p (hs (hinit ▸ h) l p)

/-- INIT refused keeps the expander; INIT complete leaves every register valid; INIT failed leaves `INIT_DONE` = 0. -/
theorem exec_init_exp {s t : State} (h : exec .init s = .next t) :
    (s.eng.running = true ∧ t.exp = s.exp) ∨
      (s.eng.running = false ∧ (t.exp.initDone = true → ∀ l p, cacheValid l p t = true)) := by
  obtain ⟨hrefused, hcomplete, hfailed⟩ := Proofs.initInEveryCase s
  cases hr : s.eng.running with
  | true =>
    cases (hrefused hr).symm.trans h
    exact .inl ⟨rfl, rfl⟩
  | false =>
    refine .inr ⟨rfl, ?_⟩
    obtain hok | ⟨j, k, hj, hfail⟩ := allOk_or_failsAt 6 s
    · cases (hcomplete hr hok).symm.trans h
      exact fun _ l p => by cases l <;> cases p <;> rfl
    · cases (hfailed j k hr hj hfail).symm.trans h
      exact nofun

/-! ### The three together -/

theorem wellKept_iff (s : State) :
    WellKept s ↔ ReportLegal s.host ∧ EngineLegal s.eng s.exp.initDone ∧ CacheReady s := by
  constructor
  · exact fun h => ⟨⟨h.err_code, h.terr_fits⟩, ⟨h.tick_err, h.tick_terr, h.queue_fits, h.pins_distinct, h.running_init,
      h.running_channels⟩, h.init_valid⟩
  · exact fun ⟨hreport, hengine, hcache⟩ => ⟨hreport.err_code, hreport.terr_fits, hengine.tick_err, hengine.tick_terr,
      hengine.queue_fits, hengine.pins_distinct, hengine.running_init, hengine.running_channels, hcache⟩

theorem exec_wellKept {i : Instr} {s t : State} (hs : WellKept s) (h : exec i s = .next t) : WellKept t := by
  rw [wellKept_iff] at hs ⊢
  obtain ⟨-, hengine, hcache⟩ := hs
  refine ⟨exec_reportLegal h, ?_⟩
  have hbody : EngineLegal t.eng s.exp.initDone := by
    rw [exec_eng h]
    exact commandBody_engineLegal i (s := clearRes s) hengine
  by_cases hi : i = .init
  · subst hi
    obtain ⟨-, hexp⟩ | ⟨hr, hvalid⟩ := exec_init_exp h
    · exact ⟨by rwa [hexp], hcache.of_frames (by rw [hexp]) fun l p hv => by rwa [cacheValid_of_exp l p hexp]⟩
    · have heng : t.eng = s.eng := (exec_eng h).trans (commandBody_eng (clearRes s) rfl)
      exact ⟨{ hbody with running_init := fun hrun => absurd (hr.symm.trans (heng ▸ hrun)) Bool.false_ne_true }, hvalid⟩
  · have hinit := exec_initDone hi h
    exact ⟨by rwa [hinit], hcache.of_frames hinit fun l p => exec_cacheValid h l p⟩

theorem tick_wellKept {s : State} (hs : WellKept s) : WellKept (tick s).state := by
  rw [wellKept_iff] at hs ⊢
  obtain ⟨hreport, hengine, hcache⟩ := hs
  have hinit : (tick s).state.exp.initDone = s.exp.initDone :=
    (frame_eq (fun s => s.exp.initDone) (fun _ _ => rfl) (fun _ => rfl) (fun _ _ => rfl) fun _ _ => rfl).tick
      (fun _ _ _ => rfl) s
  refine ⟨by rwa [tick_host], by rw [hinit]; exact tick_engineLegal hengine, hcache.of_frames hinit fun l p => ?_⟩
  exact (frame_cacheValid l p).tick (fun _ _ _ hs => by cases l <;> exact hs) s

theorem wellKept_of_reset {s : State} (hhost : s.host = HostRegs.reset) (hexp : s.exp = Expander.reset)
    (heng : s.eng = Engine.reset) : WellKept s := by
  rw [wellKept_iff, hhost, hexp, heng]
  refine ⟨⟨by decide, terrFits_ok⟩, ⟨.inl rfl, terrFits_ok, by decide, fun _ _ hj => absurd hj (Nat.not_lt_zero _), nofun,
    nofun⟩, fun h => ?_⟩
  rw [hexp] at h
  cases h

end Sys2Proof.Machine
end

section
/-! SUPPORT. The cache as a mirror of the last successful writes (10_state.md rule R34). -/
namespace Sys2Proof.Machine

/-- Following the successful writes keeps the mirror: a register written since holds its last write, one not written what it
held. -/
theorem Follows.cacheMirrors {s t : State} (h : Follows s t) (hs : CacheMirrors s) : CacheMirrors t := by
  obtain ⟨hcfg, evs, hlog, hcache⟩ := h
  intro l p hvalid
  have hlp := hcache l p
  rw [hcfg, hlog, lastStore_append]
  cases hstore : lastStore s.cfg l p evs with
  | some v =>
    rw [hstore] at hlp
    rw [Option.some_or, hlp.1]
  | none =>
    rw [hstore] at hlp
    rw [Option.none_or, hlp.1]
    exact hs l p (hlp.2 ▸ hvalid)

theorem tick_follows (s : State) (hw : configWf s.cfg = true) : Follows s (tick s).state := by
  have hread : Follows s (bulkRead .input (sampledNow s)).state :=
    Follows.trans (t := sampledNow s) (follows_exp rfl rfl rfl rfl rfl rfl) (bulkRead_follows .input (sampledNow s) hw)
  unfold tick
  cases hb : bulkRead .input (sampledNow s) with
  | done b t =>
    rw [hb] at hread
    exact hread.trans (follows_exp rfl rfl rfl rfl rfl rfl)
  | raised k t =>
    rw [hb] at hread
    exact hread.trans (follows_exp rfl rfl rfl rfl rfl rfl)

/-- With no valid bit set there is nothing to mirror. -/
theorem cacheMirrors_of_reset {s : State} (h : s.exp = Expander.reset) : CacheMirrors s := by
  intro l p hvalid
  rw [cacheValid_of_exp (s := State.reset) l p h] at hvalid
  cases l <;> cases p <;> cases hvalid

/-- The mirror reads the configuration, the cache and the log alone. -/
theorem cacheMirrors_congr {s t : State} (hcfg : t.cfg = s.cfg) (hexp : t.exp = s.exp)
    (hlog : t.env.busLog = s.env.busLog) (hs : CacheMirrors s) : CacheMirrors t :=
  (follows_exp hcfg hlog (by rw [hexp]) (by rw [hexp]) (by rw [hexp]) (by rw [hexp])).cacheMirrors hs

end Sys2Proof.Machine

namespace Sys2Proof.Proofs
open Sys2Proof.Machine

/-- Settles O55: each command and a tick keep the three parts of `WellKept`, and a reset establishes them. -/
theorem everyStepKeepsTheRegistersLegal : Obligations.EveryStepKeepsTheRegistersLegal := by
  unfold Obligations.EveryStepKeepsTheRegistersLegal
  exact fun s t hs h => step_keeps (fun _ _ _ _ => exec_wellKept)
    (fun s hs => { hs with
      err_code := (reportLegal_raised .illegalCommand (clearRes s)).err_code
      terr_fits := (reportLegal_raised .illegalCommand (clearRes s)).terr_fits })
    (fun _ _ => tick_wellKept) (fun _ _ hs => { hs with }) (fun _ hs => { hs with }) (fun _ _ hs => { hs with })
    (fun _ => wellKept_of_reset rfl rfl rfl) (fun _ _ _ => wellKept_of_reset rfl rfl rfl) hs h

/-- Settles O56: each command and a tick make the cache follow the successful writes, and a reset clears every valid bit. -/
theorem everyStepKeepsTheCacheMirroring : Obligations.EveryStepKeepsTheCacheMirroring := by
  unfold Obligations.EveryStepKeepsTheCacheMirroring
  exact fun s t hs h => step_keeps (fun _ _ _ hw hs h => (exec_follows hw h).cacheMirrors hs)
    (fun _ => cacheMirrors_congr rfl rfl rfl) (fun s hw => (tick_follows s hw).cacheMirrors)
    (fun _ _ => cacheMirrors_congr rfl rfl rfl) (fun _ => cacheMirrors_congr rfl rfl rfl)
    (fun _ _ => cacheMirrors_congr rfl rfl rfl) (fun _ => cacheMirrors_of_reset rfl)
    (fun _ _ _ => cacheMirrors_of_reset rfl) hs h

/-- Settles O52: every entry is at rest, no valid bit is set, and the registers hold their reset values. -/
theorem invariantsHoldAtReset : Obligations.InvariantsHoldAtReset := by
  unfold Obligations.InvariantsHoldAtReset
  exact fun s => ⟨lifeMatchesPrev_invariant.at_reset, longMatchesLife_invariant.at_reset, wellKept_of_reset rfl rfl rfl,
    cacheMirrors_of_reset rfl⟩

end Sys2Proof.Proofs
end

section
/-! SUPPORT. The agents' moves (60_exceptions.md rules R253, R260, R261, 70_reset_and_hazards.md rules R281, R282): when a move
stops the model, and what a reset leaves of an operation. -/
namespace Sys2Proof.Machine

/-! ### A step is the agenda's first move -/

theorem takeMove_of_agenda {s : State} {a : Action} {rest : List Action} (h : s.env.agenda = a :: rest) :
    takeMove s = { s with env := { s.env with agenda := rest } } := by rw [takeMove, h, List.tail_cons]

theorem step_of_no_move {s : State} (hc : configWf s.cfg = true) (h : s.env.agenda = []) : step s = .next s := by
  rw [step, if_pos hc, nextMove, h]

/-! ### When the model stops (60_exceptions.md rule R253) -/

/-- The three pin commands' model fault is the read of an unwritten cache register. -/
theorem commandFaults_iff (i : Instr) (s : State) : commandFaults i s = true ↔ ReadsUnwrittenCache i s := by
  cases i with
  | setdir | setlvl | toggle =>
    simp only [commandFaults, rmwFaults, ReadsUnwrittenCache, pinOk, Bool.and_eq_true, decide_eq_true_eq, beq_iff_eq,
      Bool.not_eq_true', reduceCtorEq, Instr.setdir.injEq, Instr.setlvl.injEq, Instr.toggle.injEq]
    grind
  | init | setpdir | setplvl | getlvl | getplvl | getout | getcfg | rdcache | eclr | eadd | ethr | eper | estart | estop |
    etick | epop | estat => simp [commandFaults, ReadsUnwrittenCache]

theorem exec_of_readsUnwrittenCache {i : Instr} {s : State} (h : ReadsUnwrittenCache i s) :
    exec i s = .fault .cacheUnwritten := by
  rw [exec_eq, (commandFaults_iff i s).mpr h, if_pos rfl]

theorem exec_answers {i : Instr} {s : State} (h : ¬ ReadsUnwrittenCache i s) : ∃ t, exec i s = .next t := by
  rw [← commandFaults_iff] at h
  exact ⟨_, (exec_eq i s).trans (if_neg h)⟩

theorem runWord_of_decode {w : Word} {i : Instr} (h : decode w = some i) (s : State) : runWord w s = exec i s := by
  rw [runWord, h]

theorem runWord_answers {w : Word} {s : State} (h : ∀ i, decode w = some i → ¬ ReadsUnwrittenCache i s) :
    ∃ t, runWord w s = .next t := by
  cases hw : decode w with
  | none => exact ⟨_, (Proofs.rejectedWordsRaiseIllegalCommand w).2 s hw⟩
  | some i =>
    rw [runWord_of_decode hw]
    exact exec_answers (h i hw)

/-- The configuration check, clause by clause (20_memory.md rule R67). -/
theorem configWf_eq_false {c : Config}
    (h : ¬ [c.subIn0, c.subIn1, c.subOut0, c.subOut1, c.subCfg0, c.subCfg1].Nodup ∨
      (c.bulkMode = .pair ∧ ¬ (c.subIn1.toNat = c.subIn0.toNat + 1 ∧ c.subOut1.toNat = c.subOut0.toNat + 1 ∧
        c.subCfg1.toNat = c.subCfg0.toNat + 1))) : configWf c = false := by
  rw [configWf, Bool.and_eq_false_iff]
  obtain hdup | ⟨hpair, hgap⟩ := h
  · exact .inl (decide_eq_false hdup)
  · refine .inr (eq_false_of_ne_true fun hok => hgap ?_)
    simpa [hpair, consecutive, subOf, and_assoc] using hok

/-! ### A reset during an operation (70_reset_and_hazards.md rule R282) -/

theorem resetDuring_of_next {op : Operation} {s u : State} (h : operationOutcome op s = .next u) (n : Nat) :
    resetDuring op n s = .next (resetAfter n s u) := by rw [resetDuring, h]

theorem resetDuring_of_fault {op : Operation} {s : State} {f : Fault} {n : Nat} (h : operationOutcome op s = .fault f)
    (hn : n ≠ 0) : resetDuring op n s = .fault f := by
  rw [resetDuring, h]
  exact if_neg hn

/-- A reset before the operation's first transaction always answers. -/
theorem resetDuring_zero (op : Operation) (s : State) : ∃ u, resetDuring op 0 s = .next (resetAfter 0 s u) ∧
    (operationOutcome op s = .next u ∨ u = s) := by
  unfold resetDuring
  cases h : operationOutcome op s with
  | next u => exact ⟨u, rfl, .inl rfl⟩
  | fault f => exact ⟨s, if_pos rfl, .inr rfl⟩
  | refused r => exact ⟨s, if_pos rfl, .inr rfl⟩

/-- No operation touches the agents' moves (60_exceptions.md rule R260). -/
theorem agenda_frame : Frame fun s t => t.env.agenda = s.env.agenda :=
  frame_eq (fun s => s.env.agenda) (fun _ _ => rfl) (fun _ => rfl) (fun _ _ => rfl) fun _ _ => rfl

theorem operationOutcome_agenda {op : Operation} {s t : State} (h : operationOutcome op s = .next t) :
    t.env.agenda = s.env.agenda := by
  cases op with
  | command w =>
    rw [operationOutcome, runWord] at h
    split at h
    · exact agenda_frame.exec (fun _ _ _ _ _ => by rw [setCache_env]) (fun _ _ _ => rfl) (fun _ _ _ _ => rfl) h
    · cases h
      rfl
  | tick =>
    cases h
    split
    · exact agenda_frame.tick (fun _ _ _ => rfl) s
    · rfl

/-- What a reset leaves of an operation that issues `evs`: the reset values, and the first n of them. -/
theorem resetAfter_spec {s u : State} {evs : List BusEvent} (n : Nat) (hagenda : u.env.agenda = s.env.agenda)
    (hlog : u.env.busLog = s.env.busLog ++ evs) :
    (resetAfter n s u).env.agenda = s.env.agenda ∧ (resetAfter n s u).env.busLog = s.env.busLog ++ evs.take n :=
  ⟨hagenda, by rw [resetAfter_busLog, hlog, List.take_length_add_append]⟩

/-! ### Host reads and the poll timer -/

/-- `STATUS` zero-extended: `ERR`, `TERR`, and sixteen zero bits (10_state.md rule R22). -/
theorem statusWord_fields (h : HostRegs) :
    ((statusWord h).setWidth 32).extractLsb' 0 8 = h.err ∧ ((statusWord h).setWidth 32).extractLsb' 8 8 = h.terr ∧
      ((statusWord h).setWidth 32).extractLsb' 16 16 = 0 := by
  refine ⟨?_, ?_, ?_⟩ <;>
  · ext n hn
    simp only [statusWord, BitVec.getElem_extractLsb', BitVec.getLsbD_setWidth, BitVec.getLsbD_append]
    grind

theorem timerMayTick_iff (g : Engine) : timerMayTick g = true ↔ g.running = true ∧ g.pollMs ≠ 0 := by
  simp [timerMayTick]

theorem timerMayTick_eq_false {g : Engine} (h : g.running = false ∨ g.pollMs = 0) : timerMayTick g = false := by
  obtain h | h := h <;> simp [timerMayTick, h]

end Sys2Proof.Machine

namespace Sys2Proof.Proofs
open Sys2Proof.Machine

/-- Settles O8: the fault of `exec` is the read of an unwritten register; a reset with n ≠ 0 keeps it; a write of part of `CMD`
and an ill-formed configuration are refused; every other move answers. -/
theorem modelStopsExactlyAsListed : Obligations.ModelStopsExactlyAsListed := by
  unfold Obligations.ModelStopsExactlyAsListed
  refine ⟨fun i s => ⟨exec_of_readsUnwrittenCache, exec_answers⟩, fun s w i n rest hc hw hreads hagenda => ?_,
    fun s bytes rest hc ha => step_of_agenda hc ha, fun s hbad => ?_, fun s hc hpartial hreads => ?_⟩
  · have hfault : runWord w (takeMove s) = .fault .cacheUnwritten :=
      (runWord_of_decode hw _).trans (exec_of_readsUnwrittenCache (s := takeMove s) hreads)
    obtain ha | ⟨ha, hn⟩ := hagenda
    · exact (step_of_agenda hc ha).trans hfault
    · exact (step_of_agenda hc ha).trans (resetDuring_of_fault (op := .command w) hfault hn)
  · rw [step, configWf_eq_false hbad, if_neg Bool.false_ne_true]
  · cases ha : s.env.agenda with
    | nil => exact ⟨s, step_of_no_move hc ha⟩
    | cons a rest =>
      rw [step_of_agenda hc ha]
      cases a with
      | cmdWrite w => exact runWord_answers fun i hw => hreads w 0 rest i (.inl ha) hw
      | cmdPartialWrite bytes => exact absurd ha (hpartial bytes rest)
      | hostRead | timerRequest | timerTurn | reset => exact ⟨_, rfl⟩
      | resetDuring op n =>
        by_cases hn : n = 0
        · subst hn
          obtain ⟨u, hu, -⟩ := resetDuring_zero op (takeMove s)
          exact ⟨_, hu⟩
        · have hnext : ∃ u, operationOutcome op (takeMove s) = .next u := by
            cases op with
            | command w => exact runWord_answers fun i hw => hreads w n rest i (.inr ⟨ha, hn⟩) hw
            | tick => exact ⟨_, rfl⟩
          obtain ⟨u, hu⟩ := hnext
          exact ⟨_, resetDuring_of_next hu n⟩

/-- Settles O11: an operation appends its transactions and keeps the agenda, so cutting the log leaves a first part of them. -/
theorem resetDuringAnOperation : Obligations.ResetDuringAnOperation := by
  unfold Obligations.ResetDuringAnOperation
  intro s op n rest hc ha s' resetWith
  have hstep : step s = resetDuring op n s' := by
    rw [step_of_agenda hc ha, takeMove_of_agenda ha]
    rfl
  have hreset {u : State} {evs : List BusEvent} (h : resetDuring op n s' = .next (resetAfter n s' u))
      (hagenda : u.env.agenda = rest) (hlog : u.env.busLog = s.env.busLog ++ evs) : resetWith (evs.take n) :=
    ⟨resetAfter n s' u, hstep.trans h, rfl, rfl, rfl, rfl, resetAfter_spec (s := s') n hagenda hlog⟩
  refine ⟨fun u hu => ?_, fun hn => ?_, fun w i hop hw hreads hn => ?_⟩
  · obtain ⟨-, evs, hlog, -⟩ := operationOutcome_issuesLegally hu
    exact ⟨evs, hlog, hreset (resetDuring_of_next hu n) (operationOutcome_agenda hu) hlog⟩
  · subst hn
    obtain ⟨u, hzero, hu | rfl⟩ := resetDuring_zero op s'
    · obtain ⟨-, evs, hlog, -⟩ := operationOutcome_issuesLegally hu
      exact hreset hzero (operationOutcome_agenda hu) hlog
    · exact hreset hzero rfl (List.append_nil _).symm
  · subst hop
    exact hstep.trans (resetDuring_of_fault
      ((runWord_of_decode hw s').trans (exec_of_readsUnwrittenCache (s := s') hreads)) hn)

/-- Settles O7: the move taken, then the decoder's two cases. -/
theorem stepRunsTheDecodedCommand : Obligations.StepRunsTheDecodedCommand := by
  unfold Obligations.StepRunsTheDecodedCommand
  intro s w rest hc ha
  have hstep : step s = runWord w { s with env := { s.env with agenda := rest } } := by
    rw [step_of_agenda hc ha, takeMove_of_agenda ha]
    rfl
  exact ⟨fun i hw => hstep.trans (runWord_of_decode hw _),
    fun hw => hstep.trans ((rejectedWordsRaiseIllegalCommand w).2 _ hw)⟩

/-- Settles O10: with no move to take a step does nothing, and reset leaves none. -/
theorem idleAfterReset : Obligations.IdleAfterReset := by
  unfold Obligations.IdleAfterReset
  exact ⟨step_of_no_move (by decide) rfl, fun s => step_of_no_move⟩

/-- Settles O12: the value read is `readHostReg`'s, the status word field by field. -/
theorem hostReads : Obligations.HostReads := by
  unfold Obligations.HostReads
  intro s r rest hc ha
  refine ⟨readHostReg r s, ?_, ?_, ?_, ?_, ?_, ?_, ?_⟩
  · rw [step_of_agenda hc ha, takeMove_of_agenda ha]
    rfl
  case refine_7 => exact fun hr => hr ▸ statusWord_fields s.host
  all_goals exact fun hr => hr ▸ rfl

/-- Settles O13: the timer's request and turn by whether it may tick and whether a request is pending. -/
theorem pollTimerTicksOnlyWhileRunning : Obligations.PollTimerTicksOnlyWhileRunning := by
  unfold Obligations.PollTimerTicksOnlyWhileRunning
  intro s
  simp only [act, timerRequest, timerTurn]
  refine ⟨fun hmay => ?_, fun hnot => ?_, fun hnone => ?_, fun hpend hnot => ?_, fun hpend hr hp => ?_⟩
  · rw [if_pos ((timerMayTick_iff _).mpr hmay)]
    rfl
  · rw [timerMayTick_eq_false hnot, if_neg Bool.false_ne_true]
  · rw [hnone, if_neg Bool.false_ne_true]
  · rw [if_pos hpend, timerMayTick_eq_false hnot, if_neg Bool.false_ne_true]
    rfl
  · rw [if_pos hpend, if_pos ((timerMayTick_iff _).mpr ⟨hr, hp⟩)]
    rfl

end Sys2Proof.Proofs
end

section
/-! SUPPORT. The assembler (30_encoding.md rules R97, R98): which lines of each format are well formed, what each mnemonic's line
assembles to, and how an expansion is assembled line by line. -/
namespace Sys2Proof.Machine

/-! ### Well-formed lines, format by format (30_encoding.md rule R97) -/

section
variable {m : Mnemonic} {ops : List AsmOperand}

theorem wf_z_iff (hm : m.format = .z) : AsmLine.wf ⟨m, ops⟩ = true ↔ ops = [] := by
  simp only [AsmLine.wf, hm]
  split <;> simp_all

theorem wf_p_iff (hm : m.format = .p) : AsmLine.wf ⟨m, ops⟩ = true ↔ ∃ n ≤ 255, ops = [.num n] := by
  simp only [AsmLine.wf, hm]
  split <;> simp_all

theorem wf_pb_iff (hm : m.format = .pb) :
    AsmLine.wf ⟨m, ops⟩ = true ↔ ∃ n v, n ≤ 255 ∧ ops = [.num n, v] ∧ ∃ b, v.bitFor m = some b := by
  simp only [AsmLine.wf, hm]
  split <;> simp_all [Option.isSome_iff_exists]

theorem wf_mm_iff (hm : m.format = .mm) :
    AsmLine.wf ⟨m, ops⟩ = true ↔ ∃ a b, a ≤ 255 ∧ b ≤ 255 ∧ ops = [.num a, .num b] := by
  simp only [AsmLine.wf, hm]
  split <;> simp_all

theorem wf_i24_iff (hm : m.format = .i24) : AsmLine.wf ⟨m, ops⟩ = true ↔ ∃ n ≤ 16777215, ops = [.num n] := by
  simp only [AsmLine.wf, hm]
  split <;> simp_all

/-! ### What a line of each format assembles to -/

variable {i : Instr}

/-- A line assembles to the command its mnemonic makes of it, exactly when it is well formed. -/
theorem assembles_iff {c : AsmLine → Instr} {l : AsmLine} (hc : assembleLine l = if l.wf then some (c l) else none) :
    assembleLine l = some i ↔ l.wf = true ∧ i = c l := by
  rw [hc]
  split
  case isTrue hwf => exact ⟨fun h => ⟨hwf, (Option.some.inj h).symm⟩, fun ⟨_, h⟩ => congrArg some h.symm⟩
  case isFalse hwf => exact ⟨nofun, fun ⟨h, _⟩ => absurd h hwf⟩

theorem assembles_bare {c : Instr} (hm : m.format = .z)
    (hc : assembleLine ⟨m, ops⟩ = if AsmLine.wf ⟨m, ops⟩ then some c else none) :
    assembleLine ⟨m, ops⟩ = some i ↔ ops = [] ∧ i = c := by
  rw [assembles_iff (c := fun _ => c) hc, wf_z_iff hm]

theorem assembles_onPin {c : Byte → Instr} (hm : m.format = .p)
    (hc : assembleLine ⟨m, ops⟩ = if AsmLine.wf ⟨m, ops⟩ then some (c (operandField 8 ⟨m, ops⟩ 0)) else none) :
    assembleLine ⟨m, ops⟩ = some i ↔ ∃ n : Nat, n ≤ 255 ∧ ops = [.num n] ∧ i = c (BitVec.ofNat 8 n) := by
  rw [assembles_iff (c := fun l => c (operandField 8 l 0)) hc, wf_p_iff hm]
  constructor
  · rintro ⟨⟨n, hn, rfl⟩, rfl⟩
    exact ⟨n, hn, rfl, rfl⟩
  · rintro ⟨n, hn, rfl, rfl⟩
    exact ⟨⟨n, hn, rfl⟩, rfl⟩

theorem assembles_masks {c : Byte → Byte → Instr} (hm : m.format = .mm)
    (hc : assembleLine ⟨m, ops⟩ = if AsmLine.wf ⟨m, ops⟩ then
      some (c (operandField 8 ⟨m, ops⟩ 0) (operandField 8 ⟨m, ops⟩ 1)) else none) :
    assembleLine ⟨m, ops⟩ = some i ↔
      ∃ a b : Nat, a ≤ 255 ∧ b ≤ 255 ∧ ops = [.num a, .num b] ∧ i = c (BitVec.ofNat 8 a) (BitVec.ofNat 8 b) := by
  rw [assembles_iff (c := fun l => c (operandField 8 l 0) (operandField 8 l 1)) hc, wf_mm_iff hm]
  constructor
  · rintro ⟨⟨a, b, ha, hb, rfl⟩, rfl⟩
    exact ⟨a, b, ha, hb, rfl, rfl⟩
  · rintro ⟨a, b, ha, hb, rfl, rfl⟩
    exact ⟨⟨a, b, ha, hb, rfl⟩, rfl⟩

theorem assembles_millis {c : Millis24 → Instr} (hm : m.format = .i24)
    (hc : assembleLine ⟨m, ops⟩ = if AsmLine.wf ⟨m, ops⟩ then some (c (operandField 24 ⟨m, ops⟩ 0)) else none) :
    assembleLine ⟨m, ops⟩ = some i ↔ ∃ n : Nat, n ≤ 16777215 ∧ ops = [.num n] ∧ i = c (BitVec.ofNat 24 n) := by
  rw [assembles_iff (c := fun l => c (operandField 24 l 0)) hc, wf_i24_iff hm]
  constructor
  · rintro ⟨⟨n, hn, rfl⟩, rfl⟩
    exact ⟨n, hn, rfl, rfl⟩
  · rintro ⟨n, hn, rfl, rfl⟩
    exact ⟨⟨n, hn, rfl⟩, rfl⟩

/-- The bit operand's words are `bit1` and `bit0`. -/
theorem assembles_pinAndBit {c : Byte → Bool → Instr} {bit1 bit0 : AsmOperand} (hm : m.format = .pb)
    (hc : assembleLine ⟨m, ops⟩ = if AsmLine.wf ⟨m, ops⟩ then
      some (c (operandField 8 ⟨m, ops⟩ 0) (operandBit ⟨m, ops⟩)) else none)
    (h1 : ∀ v : AsmOperand, v.bitFor m = some true ↔ v = bit1 ∨ v = .num 1)
    (h0 : ∀ v : AsmOperand, v.bitFor m = some false ↔ v = bit0 ∨ v = .num 0) :
    assembleLine ⟨m, ops⟩ = some i ↔ ∃ (n : Nat) (v : AsmOperand), n ≤ 255 ∧ ops = [.num n, v] ∧
      ((v = bit1 ∨ v = .num 1) ∧ i = c (BitVec.ofNat 8 n) true ∨
        (v = bit0 ∨ v = .num 0) ∧ i = c (BitVec.ofNat 8 n) false) := by
  have hbit {n : Nat} {v : AsmOperand} {b : Bool} (hv : v.bitFor m = some b) : operandBit ⟨m, [.num n, v]⟩ = b :=
    congrArg (Option.getD · false) hv
  rw [assembles_iff (c := fun l => c (operandField 8 l 0) (operandBit l)) hc, wf_pb_iff hm]
  simp only [← h1, ← h0]
  constructor
  · rintro ⟨⟨n, v, hn, rfl, b, hv⟩, rfl⟩
    rw [hbit hv]
    cases b with
    | true => exact ⟨n, v, hn, rfl, .inl ⟨hv, rfl⟩⟩
    | false => exact ⟨n, v, hn, rfl, .inr ⟨hv, rfl⟩⟩
  · rintro ⟨n, v, hn, rfl, ⟨hv, rfl⟩ | ⟨hv, rfl⟩⟩
    · exact ⟨⟨n, v, hn, rfl, true, hv⟩, by rw [hbit hv]; rfl⟩
    · exact ⟨⟨n, v, hn, rfl, false, hv⟩, by rw [hbit hv]; rfl⟩

end

/-- The words of SETDIR's and SETLVL's bit operand. -/
theorem bitFor_setdir (v : AsmOperand) :
    (v.bitFor .setdir = some true ↔ v = .kwIn ∨ v = .num 1) ∧ (v.bitFor .setdir = some false ↔ v = .kwOut ∨ v = .num 0) := by
  unfold AsmOperand.bitFor
  split <;> simp_all

theorem bitFor_setlvl (v : AsmOperand) :
    (v.bitFor .setlvl = some true ↔ v = .kwHi ∨ v = .num 1) ∧ (v.bitFor .setlvl = some false ↔ v = .kwLo ∨ v = .num 0) := by
  unfold AsmOperand.bitFor
  split <;> simp_all

/-! ### Expansions (30_encoding.md rule R98) -/

/-- Lines that all assemble assemble together. -/
theorem mapM_eq_some_map {α β : Type} {f : α → Option β} {g : α → β} {l : List α} (h : ∀ a ∈ l, f a = some (g a)) :
    l.mapM f = some (l.map g) := by
  induction l with
  | nil => rfl
  | cons a l ih =>
    rw [List.forall_mem_cons] at h
    simp [h.1, ih h.2]

theorem assembleLine_eadd {n : Nat} (hn : n ≤ 255) : assembleLine ⟨.eadd, [.num n]⟩ = some (.eadd (BitVec.ofNat 8 n)) :=
  (assembles_onPin (c := .eadd) rfl rfl).mpr ⟨n, hn, rfl, rfl⟩

/-- The lines of `WATCH`: ECLR, an EADD for each pin, ESTART. -/
theorem assemble_watch_lines {pins : List Nat} (hpins : ∀ n ∈ pins, n ≤ 255) :
    (expandStatement (.watch (pins.map .num))).mapM assembleLine =
      some (.eclr :: pins.map (fun n => .eadd (BitVec.ofNat 8 n)) ++ [.estart]) := by
  have hpin : (pins.map fun n => (⟨.eadd, [.num n]⟩ : AsmLine)).mapM assembleLine =
      some (pins.map fun n => .eadd (BitVec.ofNat 8 n)) := by
    rw [List.mapM_map]
    exact mapM_eq_some_map fun n hn => assembleLine_eadd (hpins n hn)
  have hclr : assembleLine ⟨.eclr, []⟩ = some .eclr := rfl
  have hstart : assembleLine ⟨.estart, []⟩ = some .estart := rfl
  rw [expandStatement, List.map_map, List.cons_append, List.mapM_cons, List.mapM_append]
  simp only [Function.comp_def, hpin, hclr, hstart, List.mapM_cons, List.mapM_nil]
  rfl

theorem assembleStatement_watch {pins : List Nat} (hpins : ∀ n ∈ pins, n ≤ 255) :
    assembleStatement (.watch (pins.map .num)) = if 1 ≤ pins.length ∧ pins.length ≤ 16 then
      some (.eclr :: pins.map (fun n => .eadd (BitVec.ofNat 8 n)) ++ [.estart]) else none := by
  rw [assembleStatement, statementOk, assemble_watch_lines hpins, List.length_map]
  simp only [Bool.and_eq_true, decide_eq_true_eq]

/-- The poll timer writes no host register (43_engine_tick.md rule R227). -/
theorem timerMoves_host (moves : List TimerMove) (s : State) : (timerMoves moves s).host = s.host := by
  induction moves generalizing s with
  | nil => rfl
  | cons move moves ih =>
    cases move with
    | request =>
      rw [timerMoves, ih, timerRequest]
      split <;> rfl
    | turn =>
      rw [timerMoves, ih, timerTurn]
      split
      · split
        · exact tick_host _
        · rfl
      · rfl

end Sys2Proof.Machine

namespace Sys2Proof.Proofs
open Sys2Proof.Machine

/-- Settles O5: each mnemonic's line by its format. -/
theorem assemblyLinesAssemble : Obligations.AssemblyLinesAssemble := by
  unfold Obligations.AssemblyLinesAssemble
  intro m ops i
  cases m with
  | init | getplvl | getout | getcfg | rdcache | eclr | estart | estop | etick | epop | estat => exact assembles_bare rfl rfl
  | getlvl | toggle | eadd => exact assembles_onPin rfl rfl
  | setdir => exact assembles_pinAndBit rfl rfl (fun v => (bitFor_setdir v).1) fun v => (bitFor_setdir v).2
  | setlvl => exact assembles_pinAndBit rfl rfl (fun v => (bitFor_setlvl v).1) fun v => (bitFor_setlvl v).2
  | setpdir | setplvl => exact assembles_masks rfl rfl
  | ethr | eper => exact assembles_millis rfl rfl

/-- Settles O6: each expansion line by line, the timer's moves by their frame, and the run by its recursion. -/
theorem pseudoCommandsExpand : Obligations.PseudoCommandsExpand := by
  unfold Obligations.PseudoCommandsExpand
  refine ⟨fun _ _ => rfl, fun _ => rfl, rfl, rfl, fun pins => assembleStatement_watch, fun _ => rfl, timerMoves_host,
    fun i moves is s t h => ?_⟩
  rw [runExpansion, h]
  rfl

end Sys2Proof.Proofs
end

section
/-! SUPPORT. The reference chip (20_memory.md rule R75): what each successful transaction tells about its registers, and what the
commands then read and write, whatever the lines do. -/
namespace Sys2Proof.Machine

/-! ### The chip's registers by kind and port -/

/-- The value of a register of the chip (rule R75). -/
def chipValue (x : RefChip) (k : RegKind) (p : Port) : Byte :=
  match k with
  | .input => chipInput x p
  | .output => x.chipOut.get p
  | .config => x.chipCfg.get p

/-- The chip with one of its latches written. -/
def chipWrite (x : RefChip) (l : Latch) (p : Port) (v : Byte) : RefChip :=
  match l with
  | .cfg => { x with chipCfg := x.chipCfg.set p v }
  | .out => { x with chipOut := x.chipOut.set p v }

/-- The six sub-addresses are different ones, so each names its register (60_exceptions.md rule R253). -/
theorem subs_ne {c : Config} (h : configWf c = true) :
    [c.subIn0, c.subIn1, c.subOut0, c.subOut1, c.subCfg0, c.subCfg1].Nodup := by
  rw [configWf, Bool.and_eq_true] at h
  exact of_decide_eq_true h.1

theorem chipReg_subOf {c : Config} (h : configWf c = true) (x : RefChip) (k : RegKind) (p : Port) :
    chipReg c x (subOf c k p) = some (chipValue x k p) := by
  have hne := subs_ne h
  simp only [List.nodup_cons, List.mem_cons, not_or] at hne
  cases k <;> cases p <;> simp only [chipReg, subOf, chipValue, Ports.get] <;> grind

theorem chipStore_subOf {c : Config} (h : configWf c = true) (x : RefChip) (l : Latch) (p : Port) (v : Byte) :
    chipStore c x (subOf c l.reg p) v = chipWrite x l p v := by
  have hne := subs_ne h
  simp only [List.nodup_cons, List.mem_cons, not_or] at hne
  cases l <;> cases p <;> simp only [chipStore, subOf, Latch.reg, chipWrite] <;> grind

/-- In `Pair` mode the second byte of a read is the other port's register (20_memory.md rule R67). -/
theorem subOf_succ {c : Config} (h : configWf c = true) (hm : c.bulkMode = .pair) (k : RegKind) :
    subOf c k .p0 + 1 = subOf c k .p1 := by
  have hnext : (subOf c k .p1).toNat = (subOf c k .p0).toNat + 1 := by
    simp only [configWf, hm, Bool.and_eq_true, Bool.or_eq_true, consecutive, beq_iff_eq, reduceCtorEq, false_or] at h
    obtain ⟨-, ⟨hin, hout⟩, hcfg⟩ := h
    cases k
    · exact hin
    · exact hout
    · exact hcfg
  have hlt : (subOf c k .p0).toNat + 1 < 2 ^ 8 := hnext ▸ (subOf c k .p1).isLt
  apply BitVec.eq_of_toNat_eq
  rw [BitVec.toNat_add, hnext]
  exact Nat.mod_eq_of_lt hlt

/-! ### What the chip answered -/

section
variable {c : Config} {x y : RefChip} {r : List (PinMask × BusEvent)}

/-- A run is its first transaction, with the levels that met, and the rest. -/
theorem chipAfterAll_of_cons {e : BusEvent} {es : List BusEvent} (hy : y ∈ chipAfterAll c x r)
    (hr : r.map Prod.snd = e :: es) :
    ∃ line r', r = (line, e) :: r' ∧ r'.map Prod.snd = es ∧
      ∃ z ∈ chipAfter c { x with line := line } e, y ∈ chipAfterAll c z r' := by
  obtain ⟨⟨line, ev⟩, r', rfl, rfl, rfl⟩ := List.map_eq_cons_iff.mp hr
  exact ⟨line, r', rfl, rfl, List.mem_flatMap.mp hy⟩

theorem chipAfterAll_append {r r' : List (PinMask × BusEvent)} (hy : y ∈ chipAfterAll c x (r ++ r')) :
    ∃ z ∈ chipAfterAll c x r, y ∈ chipAfterAll c z r' := by
  induction r generalizing x with
  | nil => exact ⟨x, List.mem_singleton_self x, hy⟩
  | cons step r ih =>
    obtain ⟨line, e⟩ := step
    obtain ⟨z, hz, hy⟩ := List.mem_flatMap.mp hy
    obtain ⟨u, hu, hy⟩ := ih hy
    exact ⟨u, List.mem_flatMap.mpr ⟨z, hz, hu⟩, hy⟩

theorem chipAfterAll_nil (hy : y ∈ chipAfterAll c x r) (hr : r.map Prod.snd = []) : y = x := by
  obtain rfl := List.map_eq_nil_iff.mp hr
  exact List.mem_singleton.mp hy

/-- The chip as a register read leaves it: pointed at the register, under the levels of the read. -/
def chipRead (c : Config) (x : RefChip) (k : RegKind) (p : Port) (line : PinMask) : RefChip :=
  { x with ptr := subOf c k p, line := line }

/-- `ReadReg` on the chip returns the register, as the lines are at the read. -/
theorem chip_readReg {k : RegKind} {p : Port} {b : Byte} {es : List BusEvent} (hw : configWf c = true)
    (hy : y ∈ chipAfterAll c x r) (hr : r.map Prod.snd = evPoint c k p :: evRead1 c b :: es) :
    ∃ line r', r[1]? = some (line, evRead1 c b) ∧ r'.map Prod.snd = es ∧ b = chipValue (chipRead c x k p line) k p ∧
      y ∈ chipAfterAll c (chipRead c x k p line) r' := by
  obtain ⟨line0, r0, rfl, hr0, z, hz, hy⟩ := chipAfterAll_of_cons hy hr
  obtain rfl := List.mem_singleton.mp hz
  obtain ⟨line, r', rfl, hr', z, hz, hy⟩ := chipAfterAll_of_cons hy hr0
  have hreg : chipReg c (chipRead c x k p line) (subOf c k p) = some (chipValue (chipRead c x k p line) k p) :=
    chipReg_subOf hw _ k p
  obtain ⟨hb, rfl⟩ := (List.mem_ite_nil_right ..).mp hz |>.imp_right List.mem_singleton.mp
  exact ⟨line, r', rfl, hr', Option.some.inj (hb.symm.trans hreg), hy⟩

/-- A two-byte read in `Pair` mode returns both ports' registers, as the lines are at the read. -/
theorem chip_readPair {k : RegKind} {b0 b1 : Byte} {es : List BusEvent} (hw : configWf c = true)
    (hm : c.bulkMode = .pair) (hy : y ∈ chipAfterAll c x r)
    (hr : r.map Prod.snd = evPoint c k .p0 :: evRead2 c b0 b1 :: es) :
    ∃ line r', r[1]? = some (line, evRead2 c b0 b1) ∧ r'.map Prod.snd = es ∧
      b0 = chipValue (chipRead c x k .p0 line) k .p0 ∧ b1 = chipValue (chipRead c x k .p0 line) k .p1 ∧
      y ∈ chipAfterAll c (chipRead c x k .p0 line) r' := by
  obtain ⟨line0, r0, rfl, hr0, z, hz, hy⟩ := chipAfterAll_of_cons hy hr
  obtain rfl := List.mem_singleton.mp hz
  obtain ⟨line, r', rfl, hr', z, hz, hy⟩ := chipAfterAll_of_cons hy hr0
  have hreg (p : Port) : chipReg c (chipRead c x k .p0 line) (subOf c k p) =
      some (chipValue (chipRead c x k .p0 line) k p) := chipReg_subOf hw _ k p
  obtain ⟨⟨hb0, hb1⟩, rfl⟩ := (List.mem_ite_nil_right ..).mp hz |>.imp_right List.mem_singleton.mp
  replace hb1 : chipReg c (chipRead c x k .p0 line) (subOf c k .p0 + 1) = some b1 := hb1
  rw [subOf_succ hw hm] at hb1
  exact ⟨line, r', rfl, hr', Option.some.inj (hb0.symm.trans (hreg .p0)), Option.some.inj (hb1.symm.trans (hreg .p1)), hy⟩

/-- A register write is stored in the latch that it names. -/
theorem chip_store {l : Latch} {p : Port} {v : Byte} {es : List BusEvent} (hw : configWf c = true)
    (hy : y ∈ chipAfterAll c x r) (hr : r.map Prod.snd = evStore c l p v :: es) :
    ∃ line r', r'.map Prod.snd = es ∧ y ∈ chipAfterAll c (chipWrite { x with line := line } l p v) r' := by
  obtain ⟨line, r', rfl, hr', z, hz, hy⟩ := chipAfterAll_of_cons hy hr
  obtain rfl := List.mem_singleton.mp hz
  rw [chipStore_subOf hw] at hy
  exact ⟨line, r', hr', hy⟩

end

/-! ### The commands on the chip -/

/-- A command whose transactions all returned `Ok` does not end with BusError. -/
theorem err_ne_busError {i : Instr} {s t : State} {evs : List BusEvent} (h : exec i s = .next t)
    (hlog : t.env.busLog = s.env.busLog ++ evs) (hok : evs.all eventOk = true) : t.host.err ≠ 0x01 := by
  intro herr
  obtain ⟨evs', hlog', -, -, hlast, -⟩ := Proofs.transactionsAreCounted i s t h
  obtain rfl := List.append_cancel_left (hlog.symm.trans hlog')
  obtain ⟨ev, hev, hfailed⟩ := hlast (.inl herr)
  exact Bool.false_ne_true (hfailed.symm.trans (List.all_eq_true.mp hok ev (List.mem_of_getLast? hev)))

section
variable {s t : State} {x y : RefChip} {r : List (PinMask × BusEvent)}

/-- A logged run of transactions that all returned `Ok`, which the reference chip `x` answered, ending as `y`. -/
structure AnsweredBy (s t : State) (x y : RefChip) (r : List (PinMask × BusEvent)) : Prop where
  wf : configWf s.cfg = true
  log : t.env.busLog = s.env.busLog ++ r.map Prod.snd
  ok : (r.all fun step => eventOk step.2) = true
  chip : y ∈ chipAfterAll s.cfg x r

namespace AnsweredBy

/-- No case of the command that ends with BusError is this run. -/
theorem not_failed (hr : AnsweredBy s t x y r) {i : Instr} {u : State} (h : exec i s = .next t)
    (hfailed : exec i s = .next u) : u.host.err ≠ 0x01 := by
  cases hfailed.symm.trans h
  exact err_ne_busError h hr.log (by rw [List.all_map]; exact hr.ok)

/-- The run is what the command issued. -/
theorem run_eq (hr : AnsweredBy s t x y r) {evs : List BusEvent} (hevs : t.env.busLog = s.env.busLog ++ evs) :
    r.map Prod.snd = evs := List.append_cancel_left (hr.log.symm.trans hevs)

theorem getlvl (hr : AnsweredBy s t x y r) {pin : Byte} (hpin : pin.toNat < 16) (h : exec (.getlvl pin) s = .next t) :
    ∃ line ev, r[1]? = some (line, ev) ∧ t.host.res0 =
      if (chipInput { x with line := line } (portOf pin.toNat)).getLsbD (pin.toNat % 8) then 1 else 0 := by
  obtain ⟨-, hcomplete, hfailed⟩ := Proofs.getlvlReadsThePin s pin
  obtain hok | ⟨j, k, hj, hfail⟩ := allOk_or_failsAt 2 s
  · cases (hcomplete hpin hok).symm.trans h
    obtain ⟨line, r', hline, -, hb, -⟩ := chip_readReg hr.wf hr.chip (hr.run_eq rfl)
    exact ⟨line, _, hline, by rw [hb]; rfl⟩
  · exact absurd rfl (hr.not_failed h (hfailed j k hpin hj hfail))

theorem getplvl (hr : AnsweredBy s t x y r) (hm : s.cfg.bulkMode = .pair) (h : exec .getplvl s = .next t) :
    ∃ line ev, r[1]? = some (line, ev) ∧ t.host.res0 =
      (packPorts (chipInput { x with line := line } .p0) (chipInput { x with line := line } .p1)).setWidth 32 := by
  obtain ⟨hcomplete, hfailed⟩ := Proofs.bulkReadsReturnBothPorts s
  obtain hok | ⟨j, k, hj, hfail⟩ := allOk_or_failsAt (bulkCount s.cfg) s
  · obtain ⟨hexec, -⟩ := hcomplete hok
    cases hexec.symm.trans h
    have hrun := hr.run_eq rfl
    rw [bulkEvents, hm] at hrun
    obtain ⟨line, r', hline, -, h0, h1, -⟩ := chip_readPair hr.wf hm hr.chip hrun
    exact ⟨line, _, hline, by rw [h0, h1]; rfl⟩
  · obtain ⟨hexec, -⟩ := hfailed j k hj hfail
    exact absurd rfl (hr.not_failed h hexec)

/-- A bulk read of the direction registers returns them in either mode: no line shows in them. -/
theorem bulk_config (hr : AnsweredBy s t x y r) (hrun : r.map Prod.snd = bulkEvents .config s) :
    (bulkData s).1 = x.chipCfg.p0 ∧ (bulkData s).2 = x.chipCfg.p1 ∧ y.chipCfg = x.chipCfg := by
  rw [bulkEvents] at hrun
  cases hm : s.cfg.bulkMode with
  | pair =>
    rw [hm] at hrun
    obtain ⟨line, r', -, hr', h0, h1, hy⟩ := chip_readPair hr.wf hm hr.chip hrun
    obtain rfl := chipAfterAll_nil hy hr'
    exact ⟨h0, h1, rfl⟩
  | split =>
    rw [hm] at hrun
    obtain ⟨line, r', -, hr', h0, hy⟩ := chip_readReg hr.wf hr.chip hrun
    obtain ⟨line', r'', -, hr'', h1, hy⟩ := chip_readReg hr.wf hy hr'
    obtain rfl := chipAfterAll_nil hy hr''
    exact ⟨h0, h1, rfl⟩

theorem getcfg (hr : AnsweredBy s t x y r) (h : exec .getcfg s = .next t) :
    t.host.res0 = (packPorts x.chipCfg.p0 x.chipCfg.p1).setWidth 32 ∧ y.chipCfg = x.chipCfg ∧ t.exp = s.exp := by
  obtain ⟨hcomplete, hfailed⟩ := Proofs.bulkReadsReturnBothPorts s
  obtain hok | ⟨j, k, hj, hfail⟩ := allOk_or_failsAt (bulkCount s.cfg) s
  · obtain ⟨-, -, hexec⟩ := hcomplete hok
    cases hexec.symm.trans h
    obtain ⟨h0, h1, hcfg⟩ := hr.bulk_config (hr.run_eq rfl)
    exact ⟨by rw [← h0, ← h1]; rfl, hcfg, rfl⟩
  · obtain ⟨-, -, hexec⟩ := hfailed j k hj hfail
    exact absurd rfl (hr.not_failed h hexec)

/-- SETDIR on the chip: under `RMW_SOURCE` = Cache from the cached direction, which must be the chip's. -/
theorem setdir (hr : AnsweredBy s t x y r) {pin : Byte} {d : Bool} (hpin : pin.toNat < 16)
    (hcache : s.cfg.rmwSource = .cache →
      s.exp.cacheDir.get (portOf pin.toNat) = x.chipCfg.get (portOf pin.toNat))
    (h : exec (.setdir pin d) s = .next t) :
    y.chipCfg = x.chipCfg.set (portOf pin.toNat)
      (putb (bitOf pin.toNat) d (x.chipCfg.get (portOf pin.toNat))) := by
  have hi := setdir_isPinCommand pin d
  cases hm : s.cfg.rmwSource with
  | hardware =>
    obtain hok | ⟨j, k, hj, hfail⟩ := allOk_or_failsAt 3 s
    · cases (hi.exec_hardware_ok hpin hm hok).symm.trans h
      obtain ⟨line, r', -, hr', hb, hy⟩ := chip_readReg hr.wf hr.chip (hr.run_eq rfl)
      obtain ⟨line', r'', hr'', hy⟩ := chip_store hr.wf hy hr'
      obtain rfl := chipAfterAll_nil hy hr''
      rw [hb]
      rfl
    · exact absurd rfl (hr.not_failed h (hi.exec_hardware_fails hpin hm hj hfail))
  | cache =>
    cases hv : cacheValid .cfg (portOf pin.toNat) s with
    | false => cases (hi.exec_unwritten hpin hm hv).symm.trans h
    | true =>
      obtain hok | ⟨j, k, hj, hfail⟩ := allOk_or_failsAt 1 s
      · cases (hi.exec_cache_ok hpin hm hv hok).symm.trans h
        obtain ⟨line, r', hr', hy⟩ := chip_store hr.wf hr.chip (hr.run_eq rfl)
        obtain rfl := chipAfterAll_nil hy hr'
        rw [← hcache hm]
        rfl
      · obtain rfl : j = 0 := by omega
        exact absurd rfl (hr.not_failed h (hi.exec_cache_fails hpin hm hv hfail))

theorem setplvl (hr : AnsweredBy s t x y r) {m0 m1 : Byte} (h : exec (.setplvl m0 m1) s = .next t) :
    y.chipOut = ⟨m0, m1⟩ ∧ t.exp.cacheOut = ⟨m0, m1⟩ := by
  obtain hok | ⟨j, k, hj, hfail⟩ := allOk_or_failsAt 2 s
  · cases (exec_of_done (.setplvl m0 m1) rfl (writePair_ok .out m0 m1 (s := clearRes s) hok)).symm.trans h
    obtain ⟨line, r', hr', hy⟩ := chip_store hr.wf hr.chip (hr.run_eq rfl)
    obtain ⟨line', r'', hr'', hy⟩ := chip_store hr.wf hy hr'
    obtain rfl := chipAfterAll_nil hy hr''
    exact ⟨rfl, rfl⟩
  · obtain ⟨-, hfirst, hsecond, -⟩ := Proofs.setplvlOverwritesBothPorts s m0 m1 k
    obtain rfl | rfl : j = 0 ∨ j = 1 := by omega
    · exact absurd rfl (hr.not_failed h (hfirst hfail))
    · exact absurd rfl (hr.not_failed h (hsecond hfail))

/-- The run of two operations in a row is a run of the first and one of the second. -/
theorem split {u : State} (hr : AnsweredBy s u x y r) (hst : Follows s t) (htu : Follows t u) :
    ∃ z r1 r2, AnsweredBy s t x z r1 ∧ AnsweredBy t u z y r2 := by
  obtain ⟨hcfg, evs1, hlog1, -⟩ := hst
  obtain ⟨-, evs2, hlog2, -⟩ := htu
  have hrun : r.map Prod.snd = evs1 ++ evs2 := hr.run_eq (by rw [hlog2, hlog1, List.append_assoc])
  obtain ⟨r1, r2, rfl, rfl, rfl⟩ := List.map_eq_append_iff.mp hrun
  obtain ⟨z, hz, hy⟩ := chipAfterAll_append hr.chip
  obtain ⟨hok1, hok2⟩ := Bool.and_eq_true_iff.mp (List.all_append.symm.trans hr.ok)
  exact ⟨z, r1, r2, ⟨hr.wf, hlog1, hok1, hz⟩, ⟨hcfg ▸ hr.wf, hlog2, hok2, hcfg ▸ hy⟩⟩

end AnsweredBy
end

/-! ### Bits of the two ports -/

theorem packPorts_getLsbD (v : Ports Byte) (j : Nat) :
    ((packPorts v.p0 v.p1).setWidth 32).getLsbD j = (decide (j < 16) && (v.get (portOf j)).getLsbD (j % 8)) := by
  rw [packPorts, BitVec.getLsbD_setWidth, BitVec.getLsbD_append, portOf]
  by_cases h8 : j < 8
  · rw [if_pos h8, if_pos h8, Nat.mod_eq_of_lt h8, decide_eq_true (show j < 32 by omega),
      decide_eq_true (show j < 16 by omega)]
    rfl
  · rw [if_neg h8, if_neg h8]
    by_cases h16 : j < 16
    · rw [show j % 8 = j - 8 by omega, decide_eq_true h16, decide_eq_true (show j < 32 by omega)]
      rfl
    · rw [decide_eq_false h16, BitVec.getLsbD_of_ge v.p1 (j - 8) (by omega), Bool.and_false, Bool.false_and]

/-- A pin of the input registers: the latch where it is an output, the line where it is an input (20_memory.md section 7). -/
theorem chipInput_getLsbD (x : RefChip) {j : Nat} (hj : j < 16) :
    (chipInput x (portOf j)).getLsbD (j % 8) =
      if (x.chipCfg.get (portOf j)).getLsbD (j % 8) then x.line.getLsbD j
      else (x.chipOut.get (portOf j)).getLsbD (j % 8) := by
  have hline : (Ports.get ⟨x.line.setWidth 8, x.line.extractLsb' 8 8⟩ (portOf j)).getLsbD (j % 8) = x.line.getLsbD j := by
    by_cases h8 : j < 8
    · simp [portOf, h8, Ports.get, Nat.mod_eq_of_lt h8]
    · have : 8 + j % 8 = j := by omega
      simp [portOf, h8, Ports.get, this]
      omega
  have hlt : j % 8 < 8 := by omega
  rw [chipInput, BitVec.getLsbD_or, BitVec.getLsbD_and, BitVec.getLsbD_and, BitVec.getLsbD_not, hline]
  cases (x.chipCfg.get (portOf j)).getLsbD (j % 8) <;> simp [hlt]

/-- Bit j of a two-port value after the bit of one pin was put. -/
theorem set_putb_getLsbD (v : Ports Byte) (b : Bool) {n j : Nat} (hn : n < 16) (hj : j < 16) :
    ((v.set (portOf n) (putb (bitOf n) b (v.get (portOf n)))).get (portOf j)).getLsbD (j % 8) =
      if j = n then b else (v.get (portOf j)).getLsbD (j % 8) := by
  by_cases hport : portOf j = portOf n
  · have hsame : j = n ↔ j % 8 = n % 8 := by
      unfold portOf at hport
      grind
    rw [hport, Ports.get_set_same, putb_getLsbD _ _ _ (by omega), bitOf]
    simp only [hsame]
  · rw [Ports.get_set_other _ _ _ _ hport, if_neg fun h => hport (congrArg portOf h)]

end Sys2Proof.Machine

namespace Sys2Proof.Proofs
open Sys2Proof.Machine

/-- Settles O58: GETCFG reads the chip's directions, which SETDIR changes at the pin alone. -/
theorem directionRoundTrip : Obligations.DirectionRoundTrip := by
  unfold Obligations.DirectionRoundTrip
  intro s0 s1 s2 s3 pin d run x y hw hpin hcache h01 h12 h23 hlog hok hy j hj
  have hrun : AnsweredBy s0 s3 x y run := ⟨hw, hlog, hok, hy⟩
  have f01 := exec_follows hw h01
  have hw1 : configWf s1.cfg = true := f01.1 ▸ hw
  have f12 := exec_follows hw1 h12
  have f23 := exec_follows (f12.1 ▸ hw1) h23
  obtain ⟨x1, r1, r, hr1, hr⟩ := hrun.split f01 (f12.trans f23)
  obtain ⟨x2, r2, r3, hr2, hr3⟩ := hr.split f12 f23
  obtain ⟨hres1, hcfg1, hexp1⟩ := hr1.getcfg h01
  have hcfg2 := hr2.setdir hpin (fun hm => by rw [hexp1, hcfg1]; exact hcache (f01.1 ▸ hm)) h12
  obtain ⟨hres3, -, -⟩ := hr3.getcfg h23
  rw [hres3, hres1, packPorts_getLsbD, packPorts_getLsbD, hcfg2, hcfg1, set_putb_getLsbD _ _ hpin hj]
  simp only [hj, decide_true, Bool.true_and]

/-- Settles O59: each SETPLVL leaves (x, y) in the chip's output registers and in the cache. -/
theorem portLevelIsIdempotent : Obligations.PortLevelIsIdempotent := by
  unfold Obligations.PortLevelIsIdempotent
  intro s0 s1 s2 m0 m1 once twice x y z hw h01 h12 hlog1 hlog2 hok hy hz
  obtain ⟨hcfg, -⟩ := exec_follows hw h01
  obtain ⟨hok1, hok2⟩ := Bool.and_eq_true_iff.mp (List.all_append.symm.trans hok)
  have honce : AnsweredBy s0 s1 x y once := ⟨hw, hlog1, hok1, hy⟩
  have htwice : AnsweredBy s1 s2 y z twice := ⟨hcfg ▸ hw, hlog2, hok2, hcfg ▸ hz⟩
  obtain ⟨hout1, hcache1⟩ := honce.setplvl h01
  obtain ⟨hout2, hcache2⟩ := htwice.setplvl h12
  exact ⟨hout1, hcache1, hout2.trans hout1.symm, hcache2.trans hcache1.symm⟩

/-- Settles O60: the input registers at the read, bit by bit, for one pin and for all sixteen. -/
theorem referenceChipLoopsOutputsBack : Obligations.ReferenceChipLoopsOutputsBack := by
  unfold Obligations.ReferenceChipLoopsOutputsBack
  intro s t run x y line ev hw hlog hok hy hline level
  have hrun : AnsweredBy s t x y run := ⟨hw, hlog, hok, hy⟩
  refine ⟨fun pin hpin h => ?_, fun hm h j hj => ?_⟩
  · obtain ⟨line', ev', hline', hres⟩ := hrun.getlvl hpin h
    cases hline.symm.trans hline'
    rw [hres, chipInput_getLsbD _ hpin]
  · obtain ⟨line', ev', hline', hres⟩ := hrun.getplvl hm h
    cases hline.symm.trans hline'
    have hget (p : Port) : Ports.get ⟨chipInput { x with line := line } .p0, chipInput { x with line := line } .p1⟩ p =
        chipInput { x with line := line } p := by cases p <;> rfl
    rw [hres, packPorts_getLsbD ⟨_, _⟩, hget]
    by_cases h16 : j < 16
    · rw [chipInput_getLsbD _ h16]
    · rw [decide_eq_false h16, Bool.false_and, Bool.false_and]

end Sys2Proof.Proofs
end
